-- ==== Sys2Proof/Word.lean ====
section
/-! DEFINITION. The stimulus word of FSME and its two parts (spec/30_encoding.md R80). -/

namespace Sys2Proof

/-- One stimulus word, and one word of the register space: 64 bits (R60, R80). -/
abbrev Word := BitVec 64

/-- The opcode field `OPC` of a stimulus word (R80). -/
abbrev Opc := BitVec 8

/-- The argument field `ARG` of a stimulus word (R80). -/
abbrev Arg := BitVec 56

end Sys2Proof
end

