-- ==== Sys2Proof/Syntax.lean ====
section
/-! DEFINITION. The sixteen stimuli of FSME and the enumerations their operands range over
(spec/30_encoding.md R83, R90; spec/10_state.md R24). -/

namespace Sys2Proof

/-- GateTime, selected by `CTRL.GATE_SEL` (R24, R204; names of R97). -/
inductive GateTime where
  | g0_1s | g1s | g5s | g10s
  deriving DecidableEq, Repr

/-- DirectThreshold, selected by `CTRL.THRESH_SEL` (R24, R205; names of R97). -/
inductive DirectThreshold where
  | alwaysGated | t1k | t10k | t100k | t1M
  deriving DecidableEq, Repr

/-- The top-level operating mode `CTRL.OPMODE` (R24, R207). -/
inductive OpMode where
  | generator | counter
  deriving DecidableEq, Repr

/-- The direction of a trim step (R83 format T, R208). -/
inductive TrimDir where
  | up | down
  deriving DecidableEq, Repr

/-- One stimulus: a host command, a hardware event, or reset (R90). -/
inductive Instr where
  /-- `NOP` (R210). -/
  | nop
  /-- `SET_FREQ v`, `v` unsigned (R201). -/
  | setFreq (v : Arg)
  /-- `SET_DUTY v`, `v` unsigned (R202). -/
  | setDuty (v : Arg)
  /-- `SET_TRIM v`, `v` two's complement (R203). -/
  | setTrim (v : Arg)
  /-- `SET_GATE e` (R204). -/
  | setGate (g : GateTime)
  /-- `SET_THRESH e` (R205). -/
  | setThresh (t : DirectThreshold)
  /-- `SET_GEN e`: generator on or off (R206). -/
  | setGen (on : Bool)
  /-- `SET_MODE e` (R207). -/
  | setMode (m : OpMode)
  /-- `TRIM_STEP cursor, dir` (R208). -/
  | trimStep (cursor : BitVec 3) (dir : TrimDir)
  /-- `SYNTH` (R140). -/
  | synth
  /-- `RD idx` (R211). -/
  | rd (idx : BitVec 8)
  /-- `EV_EDGE` (R151). -/
  | evEdge
  /-- `EV_GATE_CLOSE` (R152). -/
  | evGateClose
  /-- `EV_CAPTURE period, pulse, ovf` (R157). -/
  | evCapture (period pulse : BitVec 24) (ovf : Bool)
  /-- `EV_REF_TICK` (R158). -/
  | evRefTick
  /-- `RESET` (R250). -/
  | reset
  deriving DecidableEq, Repr

/-- The sixteen opcodes of R90, one for each row of the opcode map. -/
inductive Opcode where
  | nop | setFreq | setDuty | setTrim | setGate | setThresh | setGen | setMode | trimStep | synth
  | rd | evEdge | evGateClose | evCapture | evRefTick | reset
  deriving DecidableEq, Repr

/-- The opcode of a stimulus (R90). -/
def Instr.opcode : Instr → Opcode
  | .nop => .nop
  | .setFreq _ => .setFreq
  | .setDuty _ => .setDuty
  | .setTrim _ => .setTrim
  | .setGate _ => .setGate
  | .setThresh _ => .setThresh
  | .setGen _ => .setGen
  | .setMode _ => .setMode
  | .trimStep _ _ => .trimStep
  | .synth => .synth
  | .rd _ => .rd
  | .evEdge => .evEdge
  | .evGateClose => .evGateClose
  | .evCapture _ _ _ => .evCapture
  | .evRefTick => .evRefTick
  | .reset => .reset

/-- The agents that take steps (spec/00_scope.md R9). -/
inductive Agent where
  | host | inputSignal | referenceTimers | reset
  deriving DecidableEq, Repr

/-- The agent whose stimulus an opcode is (R9, the agent column of R90). -/
def Opcode.agent : Opcode → Agent
  | .nop | .setFreq | .setDuty | .setTrim | .setGate | .setThresh | .setGen | .setMode
  | .trimStep | .synth | .rd => .host
  | .evEdge | .evCapture => .inputSignal
  | .evGateClose | .evRefTick => .referenceTimers
  | .reset => .reset

end Sys2Proof
end

