-- ==== Sys2Proof/WellFormed.lean ====
section
/-! DEFINITION. Which stimuli are well formed. The operand types rule out every ill-formed operand
but one: the index of an `RD` must be mapped (spec/30_encoding.md R83 format R). -/

namespace Sys2Proof

/-- A register index is mapped: 0x00 to 0x06, 0x10 to 0x1A, or 0x20 to 0x29
(spec/20_memory.md R61). -/
def mappedIndex (idx : BitVec 8) : Bool :=
  decide (idx ≤ 0x06#8) || (decide (0x10#8 ≤ idx) && decide (idx ≤ 0x1A#8))
    || (decide (0x20#8 ≤ idx) && decide (idx ≤ 0x29#8))

/-- The operands of a stimulus are ones its format admits (R83). -/
def Instr.wellFormed : Instr → Bool
  | .rd idx => mappedIndex idx
  | .nop | .setFreq _ | .setDuty _ | .setTrim _ | .setGate _ | .setThresh _ | .setGen _
  | .setMode _ | .trimStep _ _ | .synth | .evEdge | .evGateClose | .evCapture _ _ _
  | .evRefTick | .reset => true

end Sys2Proof
end

