-- ==== Sys2Proof/Decode.lean ====
section
/-! DEFINITION. Decoding a stimulus word, total on any 64-bit word, and the encoder
(spec/30_encoding.md R80 to R96). -/

namespace Sys2Proof

/-- `OPC`, bits 63:56 (R80). -/
def opcField (w : Word) : Opc := w.extractLsb' 56 8

/-- `ARG`, bits 55:0 (R80). -/
def argField (w : Word) : Arg := w.extractLsb' 0 56

/-- The source tag `SRC`, bit 63: true for an event or reset word (R81). -/
def srcTag (w : Word) : Bool := w.getLsbD 63

/-- A word from its two fields (R80). -/
def mkWord (opc : Opc) (arg : Arg) : Word := opc ++ arg

/-- The number of an opcode (R90). -/
def Opcode.code : Opcode → Opc
  | .nop => 0x00#8
  | .setFreq => 0x01#8
  | .setDuty => 0x02#8
  | .setTrim => 0x03#8
  | .setGate => 0x04#8
  | .setThresh => 0x05#8
  | .setGen => 0x06#8
  | .setMode => 0x07#8
  | .trimStep => 0x08#8
  | .synth => 0x09#8
  | .rd => 0x0A#8
  | .evEdge => 0x80#8
  | .evGateClose => 0x81#8
  | .evCapture => 0x82#8
  | .evRefTick => 0x83#8
  | .reset => 0xFF#8

/-- The opcode a number stands for, none when R90 does not list it. -/
def Opcode.ofCode? (c : Opc) : Option Opcode :=
  if c = 0x00#8 then some .nop
  else if c = 0x01#8 then some .setFreq
  else if c = 0x02#8 then some .setDuty
  else if c = 0x03#8 then some .setTrim
  else if c = 0x04#8 then some .setGate
  else if c = 0x05#8 then some .setThresh
  else if c = 0x06#8 then some .setGen
  else if c = 0x07#8 then some .setMode
  else if c = 0x08#8 then some .trimStep
  else if c = 0x09#8 then some .synth
  else if c = 0x0A#8 then some .rd
  else if c = 0x80#8 then some .evEdge
  else if c = 0x81#8 then some .evGateClose
  else if c = 0x82#8 then some .evCapture
  else if c = 0x83#8 then some .evRefTick
  else if c = 0xFF#8 then some .reset
  else none

/-- GateTime by its code, in the order the enumeration is listed (R24, R204). -/
def GateTime.ofCode? (e : Arg) : Option GateTime :=
  if e = 0 then some .g0_1s else if e = 1 then some .g1s
  else if e = 2 then some .g5s else if e = 3 then some .g10s else none

/-- The code of a GateTime (R24). -/
def GateTime.code : GateTime → BitVec 2
  | .g0_1s => 0 | .g1s => 1 | .g5s => 2 | .g10s => 3

/-- DirectThreshold by its code; 5 and above name none (R24, R205). -/
def DirectThreshold.ofCode? (e : Arg) : Option DirectThreshold :=
  if e = 0 then some .alwaysGated else if e = 1 then some .t1k
  else if e = 2 then some .t10k else if e = 3 then some .t100k
  else if e = 4 then some .t1M else none

/-- The code of a DirectThreshold (R24). -/
def DirectThreshold.code : DirectThreshold → BitVec 3
  | .alwaysGated => 0 | .t1k => 1 | .t10k => 2 | .t100k => 3 | .t1M => 4

/-- The operating mode by its code (R24, R207). -/
def OpMode.ofCode? (e : Arg) : Option OpMode :=
  if e = 0 then some .generator else if e = 1 then some .counter else none

/-- The code of an operating mode (R24). -/
def OpMode.code : OpMode → BitVec 1
  | .generator => 0 | .counter => 1

/-- The on/off operand of `SET_GEN` (R206). -/
def onOff? (e : Arg) : Option Bool :=
  if e = 0 then some false else if e = 1 then some true else none

/-- The direction bit of format T: 0 up, 1 down (R83). -/
def TrimDir.ofBit : Bool → TrimDir
  | false => .up | true => .down

/-- The bit of a direction (R83). -/
def TrimDir.bit : TrimDir → BitVec 1
  | .up => 0 | .down => 1

/-- An argument that a format with no operand admits: 0 only (R83 format Z). -/
def noOperand (i : Instr) (a : Arg) : Option Instr := if a = 0 then some i else none

/-- The operation an opcode and its `ARG` select, with its operands assembled; none when `ARG` is
outside the format's legal set (R83, R96). -/
def assemble : Opcode → Arg → Option Instr
  | .nop, a => noOperand .nop a
  | .setFreq, a => some (.setFreq a)
  | .setDuty, a => some (.setDuty a)
  | .setTrim, a => some (.setTrim a)
  | .setGate, a => (GateTime.ofCode? a).map .setGate
  | .setThresh, a => (DirectThreshold.ofCode? a).map .setThresh
  | .setGen, a => (onOff? a).map .setGen
  | .setMode, a => (OpMode.ofCode? a).map .setMode
  | .trimStep, a =>
    if a ≤ 15 then some (.trimStep (a.extractLsb' 0 3) (TrimDir.ofBit (a.getLsbD 3))) else none
  | .synth, a => noOperand .synth a
  | .rd, a =>
    if a ≤ 255 ∧ mappedIndex (a.extractLsb' 0 8) = true then some (.rd (a.extractLsb' 0 8)) else none
  | .evEdge, a => noOperand .evEdge a
  | .evGateClose, a => noOperand .evGateClose a
  | .evCapture, a =>
    if a < 0x2000000000000#56 then
      some (.evCapture (a.extractLsb' 0 24) (a.extractLsb' 24 24) (a.getLsbD 48))
    else none
  | .evRefTick, a => noOperand .evRefTick a
  | .reset, a => noOperand .reset a

/-- What a word is (R95): every word is exactly one of the three. -/
inductive Verdict where
  /-- A defined operation, with its operands. -/
  | stimulus (i : Instr)
  /-- An illegal host word (R93). -/
  | illegalHostWord
  /-- A malformed event word: no wire of the hardware stands for it (R94). -/
  | malformedEventWord
  deriving DecidableEq, Repr

/-- The verdict on a word that selects no operation, by its source tag (R93, R94). -/
def rejected (w : Word) : Verdict :=
  if srcTag w then .malformedEventWord else .illegalHostWord

/-- The decoding procedure of R96. -/
def decode (w : Word) : Verdict :=
  match Opcode.ofCode? (opcField w) with
  | none => rejected w
  | some op =>
    match assemble op (argField w) with
    | none => rejected w
    | some i => .stimulus i

/-- The stimulus a word stands for, none when it stands for none. -/
def Verdict.stimulus? : Verdict → Option Instr
  | .stimulus i => some i
  | .illegalHostWord | .malformedEventWord => none

/-- The instruction read from the low `nbits` bits of `w`, every bit above them 0. One stimulus is one
word and FSME has no byte order (R65, R80), so the number is the word. -/
def decodeTableWord (nbits w : Nat) : Option Instr :=
  (decode (BitVec.ofNat 64 (w % 2 ^ nbits))).stimulus?

/-! ## The encoder -/

/-- The `ARG` field of a stimulus (R83). -/
def Instr.arg : Instr → Arg
  | .nop | .synth | .evEdge | .evGateClose | .evRefTick | .reset => 0
  | .setFreq v | .setDuty v | .setTrim v => v
  | .setGate g => g.code.setWidth 56
  | .setThresh t => t.code.setWidth 56
  | .setGen on => (BitVec.ofBool on).setWidth 56
  | .setMode m => m.code.setWidth 56
  | .trimStep cursor dir => (dir.bit ++ cursor).setWidth 56
  | .rd idx => idx.setWidth 56
  | .evCapture period pulse ovf => (BitVec.ofBool ovf ++ pulse ++ period).setWidth 56

/-- The word of a stimulus (R80, R83, R90). -/
def encode (i : Instr) : Word := mkWord i.opcode.code i.arg

/-! ## The match and mask table -/

/-- The `match` column of R91. -/
def Opcode.pattern : Opcode → Word
  | .nop => 0x0000000000000000#64
  | .setFreq => 0x0100000000000000#64
  | .setDuty => 0x0200000000000000#64
  | .setTrim => 0x0300000000000000#64
  | .setGate => 0x0400000000000000#64
  | .setThresh => 0x0500000000000000#64
  | .setGen => 0x0600000000000000#64
  | .setMode => 0x0700000000000000#64
  | .trimStep => 0x0800000000000000#64
  | .synth => 0x0900000000000000#64
  | .rd => 0x0A00000000000000#64
  | .evEdge => 0x8000000000000000#64
  | .evGateClose => 0x8100000000000000#64
  | .evCapture => 0x8200000000000000#64
  | .evRefTick => 0x8300000000000000#64
  | .reset => 0xFF00000000000000#64

/-- The `mask` column of R91. -/
def Opcode.mask : Opcode → Word
  | .setFreq | .setDuty | .setTrim => 0xFF00000000000000#64
  | .setGate => 0xFFFFFFFFFFFFFFFC#64
  | .setThresh => 0xFFFFFFFFFFFFFFF8#64
  | .setGen | .setMode => 0xFFFFFFFFFFFFFFFE#64
  | .trimStep => 0xFFFFFFFFFFFFFFF0#64
  | .rd => 0xFFFFFFFFFFFFFF00#64
  | .evCapture => 0xFFFE000000000000#64
  | .nop | .synth | .evEdge | .evGateClose | .evRefTick | .reset => 0xFFFFFFFFFFFFFFFF#64

/-- The further constraint column of R91. -/
def Opcode.constraint : Opcode → Word → Bool
  | .setThresh, w => decide (w.extractLsb' 0 3 ≤ 4#3)
  | .rd, w => mappedIndex (w.extractLsb' 0 8)
  | .nop, _ | .setFreq, _ | .setDuty, _ | .setTrim, _ | .setGate, _ | .setGen, _ | .setMode, _
  | .trimStep, _ | .synth, _ | .evEdge, _ | .evGateClose, _ | .evCapture, _ | .evRefTick, _
  | .reset, _ => true

/-- The row of R91 for `op` selects the word `w`. -/
def Opcode.selects (op : Opcode) (w : Word) : Bool :=
  decide (w &&& op.mask = op.pattern) && op.constraint w

end Sys2Proof
end

