-- ==== Sys2Proof/Config.lean ====
section
/-! DEFINITION. What the spec leaves to the implementation: the OPEN parameters
(spec/00_scope.md R7, spec/43_mode_controller.md R183) and the free value
(spec/93_implementation_defined.md U7). -/

namespace Sys2Proof

/-- One threshold pair, in mHz (R183). -/
structure ThreshPair where
  lo : Nat
  hi : Nat
  deriving DecidableEq, Repr

/-- The threshold table `THRESH_LO[0..4]`, `THRESH_HI[0..4]`, a pair for each DirectThreshold
(R183). -/
structure ThreshTable where
  alwaysGated : ThreshPair
  t1k : ThreshPair
  t10k : ThreshPair
  t100k : ThreshPair
  t1M : ThreshPair
  deriving DecidableEq, Repr

/-- The pair a DirectThreshold selects. -/
def ThreshTable.pair (tab : ThreshTable) : DirectThreshold → ThreshPair
  | .alwaysGated => tab.alwaysGated
  | .t1k => tab.t1k
  | .t10k => tab.t10k
  | .t100k => tab.t100k
  | .t1M => tab.t1M

/-- The nominal value of a threshold in mHz; AlwaysGated has none (R7, R183). -/
def DirectThreshold.nominal? : DirectThreshold → Option Nat
  | .alwaysGated => none
  | .t1k => some 1000000
  | .t10k => some 10000000
  | .t100k => some 100000000
  | .t1M => some 1000000000

/-- `0 < lo < nominal < hi` (R183). -/
abbrev ThreshPair.Straddles (p : ThreshPair) (nominal : Nat) : Prop :=
  0 < p.lo ∧ p.lo < nominal ∧ nominal < p.hi

/-- The constraint on a threshold table: `THRESH_LO[0] = 0`, and every other pair straddles its
nominal value (R183). -/
abbrev ThreshTable.Admitted (tab : ThreshTable) : Prop :=
  tab.alwaysGated.lo = 0 ∧ tab.t1k.Straddles 1000000 ∧ tab.t10k.Straddles 10000000 ∧
    tab.t100k.Straddles 100000000 ∧ tab.t1M.Straddles 1000000000

/-- A choice of the OPEN parameters, admitted or not (R7). -/
structure RawParams where
  /-- `PLL_MIN_LOCK_FREQ`, `P`, in mHz. -/
  pllMinLockFreq : Nat
  /-- `RECIP_WINDOW_TICKS`, `W`. -/
  recipWindowTicks : Nat
  /-- `THRESH_LO`, `THRESH_HI`. -/
  thresh : ThreshTable
  deriving DecidableEq, Repr

/-- The constraints of R7. -/
abbrev RawParams.Admitted (r : RawParams) : Prop :=
  1 ≤ r.pllMinLockFreq ∧ r.pllMinLockFreq ≤ 1000000000000 ∧
    1 ≤ r.recipWindowTicks ∧ r.recipWindowTicks < 4294967296 ∧ r.thresh.Admitted

/-- A parameter set that meets its constraints. A set that does not is refused where it would be
built: no value of this type holds one (spec/93_implementation_defined.md U6). -/
structure Params where
  raw : RawParams
  admitted : raw.Admitted
  deriving DecidableEq, Repr

/-- The constructor that rejects a parameter set outside its constraint (U6). -/
def Params.ofRaw? (r : RawParams) : Option Params :=
  if h : r.Admitted then some ⟨r, h⟩ else none

/-- `P` (R7). -/
def Params.P (p : Params) : Nat := p.raw.pllMinLockFreq

/-- `W` (R7). -/
def Params.W (p : Params) : Nat := p.raw.recipWindowTicks

/-- The threshold pair of a DirectThreshold (R183). -/
def Params.pair (p : Params) (t : DirectThreshold) : ThreshPair := p.raw.thresh.pair t

/-- The default threshold table, which a model uses unless told otherwise (R183). -/
def ThreshTable.default : ThreshTable where
  alwaysGated := ⟨0, 0⟩
  t1k := ⟨990000, 1010000⟩
  t10k := ⟨9900000, 10100000⟩
  t100k := ⟨99000000, 101000000⟩
  t1M := ⟨990000000, 1010000000⟩

/-- OPEN (R7, D9; log 4): `P - 1`. The type holds exactly the values that `1 ≤ P ≤ 10^12` admits. -/
opaque Config.pllMinLockPred : Fin 1000000000000

/-- OPEN (R7, D22; log 4): `W - 1`. The type holds exactly the values that `1 ≤ W < 2^32` admits. -/
opaque Config.recipWindowPred : Fin 4294967295

/-- The parameters of the machine that `State.reset` describes: `P` and `W` open, the thresholds at
their defaults (log 4, log 5). -/
def Config.params : Params where
  raw :=
    { pllMinLockFreq := Config.pllMinLockPred.val + 1
      recipWindowTicks := Config.recipWindowPred.val + 1
      thresh := ThreshTable.default }
  admitted := by
    refine ⟨Nat.le_add_left .., ?_, Nat.le_add_left .., ?_, by decide⟩
    · exact Config.pllMinLockPred.isLt
    · exact Nat.succ_lt_succ Config.recipWindowPred.isLt

/-- FREE VALUE (U7; log 3): what the read port shows after the `n`-th reset until an `RD`. -/
opaque Config.readPortAfterReset : Nat → Word

end Sys2Proof
end

