-- ==== Sys2Proof/Machine/Constants.lean ====
section
/-! DEFINITION. The constants of FSME (spec/00_scope.md R6, R7 DECIDED rows). -/

namespace Sys2Proof.Machine

/-- `FREQ_MIN` in mHz (R6). -/
def freqMin : Nat := 100
/-- `FREQ_MAX` in mHz (R6). -/
def freqMax : Nat := 105000000000
/-- `DUTY_MAX` in permyriad (R6). -/
def dutyMax : Nat := 10000
/-- `TRIM_MIN` in mHz (R6). -/
def trimMin : Int := -99999999
/-- `TRIM_MAX` in mHz (R6). -/
def trimMax : Int := 99999999
/-- `NOMINAL_CRYSTAL` in mHz (R6). -/
def nominalCrystal : Nat := 12000000000
/-- `REFDIV_MIN` (R6). -/
def refDivMin : Nat := 8
/-- `REFDIV_MAX` (R6). -/
def refDivMax : Nat := 374
/-- `REFDIV_STRIDE` (R6). -/
def refDivStride : Nat := 2
/-- `PLL_FRAC_STEPS` (R6). -/
def pllFracSteps : Nat := 16
/-- `DIRECT_PATH_MAX_DIV` (R6). -/
def directPathMaxDiv : Nat := 2
/-- `DUTY_LO_THR` in permyriad (R6, D12). -/
def dutyLoThr : Nat := 3333
/-- `DUTY_HI_THR` in permyriad (R6, D12). -/
def dutyHiThr : Nat := 6666
/-- `2^PWM_COUNTER_BITS` (R6). -/
def pwmModulus : Nat := 2 ^ 24
/-- `SNAP_THRESHOLD` in mHz (R6, C5). -/
def snapThreshold : Nat := 10000
/-- `SMOOTH_DIV` (R6). -/
def smoothDiv : Nat := 8
/-- `GRACE_TICKS` (R6). -/
def graceTicks : Nat := 16
/-- `COOLDOWN` in measurement cycles (R6). -/
def cooldown : BitVec 2 := 3
/-- `GATE_MODULUS` (R7, D20). -/
def gateModulus : Nat := 2 ^ 24

/-- `GATE_MULT`, the mapping table of GateTime (R6, R113). -/
def gateMult : GateTime → Nat
  | .g0_1s => 10000
  | .g1s => 1000
  | .g5s => 200
  | .g10s => 100

end Sys2Proof.Machine
end

