-- ==== Sys2Proof/Machine/State.lean ====
section
/-! DEFINITION. The state of FSME as plain data, and its reset values (spec/10_state.md R20 to R46,
spec/70_reset_and_hazards.md R250, R251). -/

namespace Sys2Proof.Machine

/-- The fields of `CTRL` (R24). -/
structure Ctrl where
  opmode : OpMode
  genEn : Bool
  gateSel : GateTime
  threshSel : DirectThreshold
  deriving DecidableEq, Repr

/-- What drives the pin, `PLAN_OUTMODE` (R37). -/
inductive OutMode where
  | staticLow | staticHigh | directClk | pwm
  deriving DecidableEq, Repr

/-- The eleven plan registers, indices 0x10 to 0x1A (R31 to R38). -/
structure Plan where
  refDiv : BitVec 9
  pint : BitVec 16
  pfrac : BitVec 4
  outDiv : BitVec 64
  hwDiv : BitVec 2
  presc : BitVec 40
  period : BitVec 24
  compare : BitVec 24
  outMode : OutMode
  achFreq : BitVec 37
  achDuty : BitVec 14
  deriving DecidableEq, Repr

/-- The measurement mode `MEAS_STATUS.MMODE` (R41). -/
inductive MeasMode where
  | gated | direct
  deriving DecidableEq, Repr

/-- The measurement registers, indices 0x20 to 0x29, `MEAS_STATUS` by its fields (R39 to R46). -/
structure Meas where
  freq : BitVec 64
  duty : BitVec 64
  mmode : MeasMode
  block : BitVec 2
  stale : Bool
  dutyValid : Bool
  act : Bool
  accOvf : Bool
  gateCount : BitVec 24
  gateOvf : BitVec 16
  accPeriod : BitVec 64
  accDuty : BitVec 64
  accEdges : BitVec 32
  winTicks : BitVec 32
  zeroTicks : BitVec 5
  deriving DecidableEq, Repr

/-- The state of FSME. `params`, `freeCount` and `trace` are the model's own (logs 1, 3, 4). -/
structure State where
  /-- The OPEN parameters, which no stimulus changes (R7, R10). -/
  params : Params
  /-- `CTRL` (R24). -/
  ctrl : Ctrl
  /-- `FREQ_SET` (R25). -/
  freqSet : BitVec 37
  /-- `DUTY_SET` (R26). -/
  dutySet : BitVec 14
  /-- `TRIM`, two's complement (R27). -/
  trim : BitVec 28
  /-- `STATUS.ILLEGAL` (R30). -/
  illegal : Bool
  /-- The plan registers (R31 to R38). -/
  plan : Plan
  /-- The measurement registers (R39 to R46). -/
  meas : Meas
  /-- The value the read port shows (R211, U7). -/
  readPort : Word
  /-- How many free values have been drawn (log 3). -/
  freeCount : Nat
  /-- The stimulus words FSME has not accepted yet, the next one first (R21, R262). -/
  trace : List Word
  deriving DecidableEq, Repr

/-- FSME has no trap mechanism and nothing halts it (spec/60_exceptions.md R233), so no step ends in a
fault: this type has no constructor. -/
inductive Fault where
  deriving DecidableEq, Repr

/-- Why a step has no outcome of FSME. -/
inductive Refusal where
  /-- Raised by an arm of `exec` whose instruction has no meaning in the model; safe. No arm raises it. -/
  | notModelled (mnemonic : String)
  /-- Raised by `step` on a word with `SRC = 1` that matches no row: it stands for nothing that can
  happen in hardware, and a model refuses it (R94, U2); safe. -/
  | malformedEvent
  /-- Raised by a meaning whose result does not fit its register: the step is outside the spec, and a
  model neither wraps, saturates nor traps (R14, U1); safe. -/
  | resultMisfit
  deriving DecidableEq, Repr

/-- `CTRL` after reset (R251): Generator, generator off, 0.1 s gate, AlwaysGated. -/
def Ctrl.reset : Ctrl where
  opmode := .generator
  genEn := false
  gateSel := .g0_1s
  threshSel := .alwaysGated

/-- The plan registers after reset: 0 each (R251). -/
def Plan.reset : Plan where
  refDiv := 0
  pint := 0
  pfrac := 0
  outDiv := 0
  hwDiv := 0
  presc := 0
  period := 0
  compare := 0
  outMode := .staticLow
  achFreq := 0
  achDuty := 0

/-- The measurement registers after reset: 0 each (R251). -/
def Meas.reset : Meas where
  freq := 0
  duty := 0
  mmode := .gated
  block := 0
  stale := false
  dutyValid := false
  act := false
  accOvf := false
  gateCount := 0
  gateOvf := 0
  accPeriod := 0
  accDuty := 0
  accEdges := 0
  winTicks := 0
  zeroTicks := 0

/-- FSME right after reset (R251, R252). The read port shows a free value, the first one drawn (U7;
log 3); the model's own fields are DESIGN CHOICES (logs 1, 3, 4); every other value is the spec's. -/
def State.reset : State where
  params := Config.params
  ctrl := Ctrl.reset
  freqSet := 100
  dutySet := 0
  trim := 0
  illegal := false
  plan := Plan.reset
  meas := Meas.reset
  readPort := Config.readPortAfterReset 0
  freeCount := 1
  trace := []

end Sys2Proof.Machine
end

