-- ==== Sys2Proof/Machine/ClockRef.lean ====
section
/-! DEFINITION. The clock reference model (spec/40_clock_reference.md R110 to R114). -/

namespace Sys2Proof.Machine

/-- `crystal_ref = NOMINAL_CRYSTAL + TRIM` in mHz; positive for every 28-bit trim (R110). -/
def crystalRef (trim : BitVec 28) : Nat := ((nominalCrystal : Int) + trim.toInt).toNat

/-- `gate_ticks = crystal_ref / GATE_MULT[GATE_SEL]` (R112). -/
def gateTicks (c : Nat) (g : GateTime) : Nat := c / gateMult g

/-- The derived register `CRYSTAL_REF` (R28). -/
def State.crystalRef (s : State) : Nat := Machine.crystalRef s.trim

/-- The derived register `GATE_TICKS` (R29). -/
def State.gateTicks (s : State) : Nat := Machine.gateTicks s.crystalRef s.ctrl.gateSel

/-- `reference_freq`, the frequency of the clock whose cycles the captures count, is `crystal_ref`
(R114). -/
def State.referenceFreq (s : State) : Nat := s.crystalRef

/-- The threshold pair that `CTRL.THRESH_SEL` selects (R181, R183). -/
def State.threshPair (s : State) : ThreshPair := s.params.pair s.ctrl.threshSel

end Sys2Proof.Machine
end

