-- ==== Sys2Proof/Machine/Flags.lean ====
section
/-! DEFINITION. The five flags of FSME (spec/10_state.md R47): what each becomes where a rule sets or
clears it. FSME has no condition codes. -/

namespace Sys2Proof.Machine

/-- `STATUS.ILLEGAL <- 1`, sticky (R30, R93). -/
def State.flagIllegal (s : State) : State := { s with illegal := true }

/-- `MEAS_STATUS.STALE` after a reference tick that left `ZERO_TICKS` at `ticks`: set when the grace
period has expired, kept otherwise (R158, R159). -/
def staleAfterTick (stale : Bool) (ticks grace : Nat) : Bool := stale || decide (ticks = grace)

/-- `MEAS_STATUS.ACC_OVF` after a capture: sticky for the window (R157). -/
def accOvfAfterCapture (accOvf ovf : Bool) : Bool := accOvf || ovf

/-- `MEAS_STATUS.DUTY_VALID` after a window end that recomputes the sample (R161). -/
def dutyValidAfterWindow (accOvf : Bool) : Bool := !accOvf

end Sys2Proof.Machine
end

