-- ==== Sys2Proof/Machine/ModeCtl.lean ====
section
/-! DEFINITION. The mode controller: the Gated/Direct machine with its hysteresis band and cool-down
(spec/43_mode_controller.md R180 to R186). -/

namespace Sys2Proof.Machine

/-- `acc_reinit`: the accumulators, counters and flags of both modes, and the duty they describe
(R185). -/
def Meas.accReinit (m : Meas) : Meas :=
  { m with
    gateCount := 0, gateOvf := 0
    accPeriod := 0, accDuty := 0, accEdges := 0
    winTicks := 0, zeroTicks := 0
    act := false, accOvf := false, stale := false
    duty := 0, dutyValid := false }

/-- `switch_to`: the new mode, the cool-down, everything reinitialised but the sample (R184). -/
def Meas.switchTo (mode : MeasMode) (m : Meas) : Meas :=
  Meas.accReinit { m with mmode := mode, block := cooldown }

/-- `meas_start`: the state in which a measurement begins (R186). -/
def Meas.start (m : Meas) : Meas :=
  Meas.accReinit { m with mmode := .gated, block := 0, freq := 0 }

/-- The transition rule, evaluated when the switch-block counter is 0 (R181, R182). -/
def Meas.evaluate (pair : ThreshPair) (m : Meas) : Meas :=
  match m.mmode with
  | .gated => if m.freq.toNat < pair.lo then m.switchTo .direct else m
  | .direct => if pair.hi < m.freq.toNat then m.switchTo .gated else m

/-- `mode_cycle`, the last action of every measurement cycle: it either counts the cool-down down or
evaluates the transition rule (R181). -/
def Meas.modeCycle (pair : ThreshPair) (m : Meas) : Meas :=
  if m.block = 0 then m.evaluate pair else { m with block := m.block - 1 }

end Sys2Proof.Machine
end

