-- ==== Sys2Proof/Machine/Arith.lean ====
section
/-! DEFINITION. The integer arithmetic of FSME (spec/00_scope.md R12, R14;
spec/40_clock_reference.md R115, R116). Values are mathematical integers; nothing wraps. -/

namespace Sys2Proof.Machine

/-- Signed division truncating toward zero (R12, R115 item 4). -/
def tdiv (a b : Int) : Int := Int.tdiv a b

/-- The nearest integer to `n / d`, halves up (R12, R115 item 5). -/
def roundDiv (n d : Nat) : Nat := (2 * n + d) / (2 * d)

/-- `max(lo, min(v, hi))` on natural numbers (R12). -/
def clampNat (v lo hi : Nat) : Nat := max lo (min v hi)

/-- `max(lo, min(v, hi))` on integers (R12). -/
def clampInt (v lo hi : Int) : Int := max lo (min v hi)

/-- `10^n` (R12, R116). -/
def ipow10 (n : Nat) : Nat := 10 ^ n

/-- A value as the contents of a `w`-bit register; none when it does not fit (R14). -/
def fit (w n : Nat) : Option (BitVec w) := if n < 2 ^ w then some (BitVec.ofNat w n) else none

end Sys2Proof.Machine
end

