-- ==== Sys2Proof/Machine/Synth.lean ====
section
/-! DEFINITION. The synthesizer: a pure function from a target frequency, a target duty and the
crystal reference to a plan (spec/41_synthesizer.md R120 to R139). -/

namespace Sys2Proof.Machine

/-! ## Step 1: the output divider (R122) -/

/-- The loop of R122 with at most `fuel` doublings. Forty reach any floor `P ≤ 10^12` from
`f ≥ 1` (log 9). -/
def outDivLoop (P f : Nat) : (fuel od : Nat) → Nat
  | 0, od => od
  | fuel + 1, od => if f * od < P then outDivLoop P f fuel (od * 2) else od

/-- The bound on the doublings of R122 and the halvings of R134 (log 9). -/
def loopFuel : Nat := 64

/-- `od`: the smallest power of two with `f * od ≥ P` (R122). -/
def outDivider (P f : Nat) : Nat := outDivLoop P f loopFuel 1

/-! ## Step 2: the reference-divider search (R124 to R128) -/

/-- The candidates 8, 10, ..., 374 in ascending order (R124). -/
def refDividers : List Nat :=
  List.range' refDivMin ((refDivMax - refDivMin) / refDivStride + 1) refDivStride

/-- A candidate: its divider, `ref`, `step`, error and whether it rounds up (R124). -/
structure Candidate where
  rd : Nat
  ref : Nat
  step : Nat
  err : Nat
  up : Bool
  deriving DecidableEq, Repr

/-- `ref = c / rd` (R125). -/
def candRef (c rd : Nat) : Nat := c / rd

/-- `step = ref / 16` (R125). -/
def candStep (c rd : Nat) : Nat := candRef c rd / pllFracSteps

/-- `r = T mod step`, the residual (R124). -/
def candResidual (T c rd : Nat) : Nat := T % candStep c rd

/-- The candidate `rd`: the smaller of the residual and its complement, the residual on a tie
(R125, R126). -/
def candidate (T c rd : Nat) : Candidate :=
  let step := candStep c rd
  let r := candResidual T c rd
  let comp := step - r
  if r ≤ comp then ⟨rd, candRef c rd, step, r, false⟩ else ⟨rd, candRef c rd, step, comp, true⟩

/-- A candidate replaces the best only when there is none or its error is strictly smaller (R127). -/
def better (best : Option Candidate) (cand : Candidate) : Candidate :=
  match best with
  | none => cand
  | some b => if cand.err < b.err then cand else b

/-- The search over a list of dividers, ending early on an exact match (R124, R127). -/
def searchFrom (T c : Nat) : Option Candidate → List Nat → Option Candidate
  | best, [] => best
  | best, rd :: rest =>
    let best' := better best (candidate T c rd)
    if candResidual T c rd = 0 then some best' else searchFrom T c (some best') rest

/-- The winner. The search always yields one (R128), so the alternative is never taken. -/
def winner (T c : Nat) : Candidate :=
  (searchFrom T c none refDividers).getD (candidate T c refDivMin)

/-! ## Steps 3 and 4: the PLL divisor and the achieved frequency (R129 to R132) -/

/-- `pll_div = T / step + up` (R129). -/
def pllDiv (T : Nat) (w : Candidate) : Nat := T / w.step + w.up.toNat

/-- `pint = pll_div / 16` (R130). -/
def pllInt (pd : Nat) : Nat := pd / 16

/-- `pfrac = pll_div mod 16` (R130). -/
def pllFrac (pd : Nat) : Nat := pd % 16

/-- `ach_freq = (ref * pint + (ref * pfrac) / 16) / od` (R132). -/
def achievedFreq (ref pint pfrac od : Nat) : Nat := (ref * pint + ref * pfrac / 16) / od

/-! ## Steps 5 and 6: the output stage (R133 to R137) -/

/-- What the output stage contributes to a plan. -/
structure OutStage where
  hwDiv : Nat
  presc : Nat
  period : Nat
  compare : Nat
  outMode : OutMode
  achDuty : Nat
  deriving DecidableEq, Repr

/-- The duty of the direct path: 0, 5000 or 10000 permyriad (R133). -/
def directDuty (d : Nat) : Nat :=
  if d < dutyLoThr then 0 else if dutyHiThr < d then 10000 else 5000

/-- The output mode of the direct path (R137). -/
def directOutMode (achDuty : Nat) : OutMode :=
  if achDuty = 0 then .staticLow else if achDuty = 10000 then .staticHigh else .directClk

/-- The direct path, `od ≤ 2` (R133, R137). -/
def directStage (od d : Nat) : OutStage :=
  { hwDiv := od, presc := 0, period := 0, compare := 0
    outMode := directOutMode (directDuty d), achDuty := directDuty d }

/-- The prescaler and the period: halve the raw divider until it fits the counter (R134). -/
def prescale : (fuel raw presc : Nat) → Nat × Nat
  | 0, raw, presc => (presc, raw)
  | fuel + 1, raw, presc =>
    if pwmModulus ≤ raw then prescale fuel (raw / 2) (presc * 2) else (presc, raw)

/-- `compare = round(d * period / 10000)` (R135). -/
def pwmCompare (d period : Nat) : Nat := roundDiv (d * period) 10000

/-- `ach_duty = round(compare * 10000 / period)` (R136). -/
def pwmDuty (compare period : Nat) : Nat := roundDiv (compare * 10000) period

/-- The output mode of the PWM path (R137). -/
def pwmOutMode (compare period : Nat) : OutMode :=
  if compare = 0 then .staticLow else if compare = period then .staticHigh else .pwm

/-- The PWM path, `od > 2` (R134 to R137). -/
def pwmStage (od d : Nat) : OutStage :=
  let pp := prescale loopFuel od 1
  let compare := pwmCompare d pp.2
  { hwDiv := 1, presc := pp.1, period := pp.2, compare := compare
    outMode := pwmOutMode compare pp.2, achDuty := pwmDuty compare pp.2 }

/-- The output stage (R133, R134). -/
def outStage (od d : Nat) : OutStage :=
  if od ≤ directPathMaxDiv then directStage od d else pwmStage od d

/-! ## The whole function -/

/-- A plan as the rules compute it, before it is written to the registers (R120). -/
structure RawPlan where
  refDiv : Nat
  pint : Nat
  pfrac : Nat
  outDiv : Nat
  stage : OutStage
  achFreq : Nat
  deriving DecidableEq, Repr

/-- `synthesize(f, d, c)` for the floor `P` (R121). -/
def synthesize (P f d c : Nat) : RawPlan :=
  let od := outDivider P f
  let T := f * od
  let w := winner T c
  let pd := pllDiv T w
  { refDiv := w.rd, pint := pllInt pd, pfrac := pllFrac pd, outDiv := od
    stage := outStage od d
    achFreq := achievedFreq w.ref (pllInt pd) (pllFrac pd) od }

/-- A computed plan as register contents; none when a field does not fit its register (R14, R139). -/
def RawPlan.fit? (p : RawPlan) : Option Plan := do
  let refDiv ← fit 9 p.refDiv
  let pint ← fit 16 p.pint
  let pfrac ← fit 4 p.pfrac
  let outDiv ← fit 64 p.outDiv
  let hwDiv ← fit 2 p.stage.hwDiv
  let presc ← fit 40 p.stage.presc
  let period ← fit 24 p.stage.period
  let compare ← fit 24 p.stage.compare
  let achFreq ← fit 37 p.achFreq
  let achDuty ← fit 14 p.stage.achDuty
  return { refDiv, pint, pfrac, outDiv, hwDiv, presc, period, compare
           outMode := p.stage.outMode, achFreq, achDuty }

/-- The OFF plan: every field 0, the pin held low (R138). -/
def offPlan : Plan where
  refDiv := 0
  pint := 0
  pfrac := 0
  outDiv := 0
  hwDiv := 0
  presc := 0
  period := 0
  compare := 0
  outMode := .staticLow
  achFreq := 0
  achDuty := 0

end Sys2Proof.Machine
end

