-- ==== Sys2Proof/Machine/Ops.lean ====
section
/-! DEFINITION. The operations the stimuli share: the outcome of a step, the procedures `resynth` and
`meas_start` on the state, and the effects of a setting change (spec/41_synthesizer.md R121;
spec/44_instrument_control.md R213, R214). FSME takes no exception (spec/60_exceptions.md R233): the
one thing that happens to a bad host word is `State.illegalWord`. -/

namespace Sys2Proof.Machine

/-- What a step of FSME answers. -/
abbrev Result := Host.Outcome State Fault Refusal

/-- The outcome of a rule: refused when a result does not fit its register (R14, U1). -/
def ofFit : Option State → Result
  | some s => .next s
  | none => .refused .resultMisfit

/-- Write all eleven plan registers (R121). -/
def State.withPlan (p : Plan) (s : State) : State := { s with plan := p }

/-- Write the measurement registers. -/
def State.withMeas (m : Meas) (s : State) : State := { s with meas := m }

/-- Write `CTRL`. -/
def State.withCtrl (c : Ctrl) (s : State) : State := { s with ctrl := c }

/-- The plan the settings call for: the OFF plan unless the generator owns the PLL and is on
(R121). -/
def State.plannedPlan? (s : State) : Option Plan :=
  if s.ctrl.opmode = .counter ∨ s.ctrl.genEn = false then some offPlan
  else (synthesize s.params.P s.freqSet.toNat s.dutySet.toNat s.crystalRef).fit?

/-- `resynth` (R121). -/
def State.resynth (s : State) : Option State := s.plannedPlan?.map fun p => s.withPlan p

/-- `meas_start` on the state (R186). -/
def State.measStart (s : State) : State := s.withMeas s.meas.start

/-- The generator-side effect of a setting change: `resynth` in Generator mode (R213). -/
def State.generatorChange (s : State) : Option State :=
  match s.ctrl.opmode with
  | .generator => s.resynth
  | .counter => some s

/-- The counter-side effect of a setting change: `meas_start` in Counter mode (R214). -/
def State.counterChange (s : State) : State :=
  match s.ctrl.opmode with
  | .generator => s
  | .counter => s.measStart

/-- The effect of a change of `TRIM`, on which both halves depend (R203, R208, R213, R214). -/
def State.trimChange (s : State) : Option State := s.counterChange.generatorChange

/-- The effect of an illegal host word: the flag, and 0 on the read port when its opcode is that of
`RD` (R93, spec/20_memory.md R63). -/
def State.illegalWord (isRd : Bool) (s : State) : State :=
  { s.flagIllegal with readPort := if isRd then 0 else s.readPort }

/-- Draw a free value: its number, and the state that has drawn it (log 3). -/
def State.drawFree (s : State) : Nat × State := (s.freeCount, { s with freeCount := s.freeCount + 1 })

end Sys2Proof.Machine
end

