-- ==== Sys2Proof/Machine/Regs.lean ====
section
/-! DEFINITION. The register map and `RegRead` (spec/10_state.md R22 to R46; spec/20_memory.md R60 to
R63). -/

namespace Sys2Proof.Machine

/-- The 28 registers of R23. -/
inductive Reg where
  | ctrl | freqSet | dutySet | trim | crystalRef | gateTicks | status
  | planRefDiv | planInt | planFrac | planOutDiv | planHwDiv | planPresc | planPeriod
  | planCompare | planOutMode | achFreq | achDuty
  | measFreq | measDuty | measStatus | gateCount | gateOvf | accPeriod | accDuty | accEdges
  | winTicks | zeroTicks
  deriving DecidableEq, Repr

/-- The index of a register (R23). -/
def Reg.index : Reg → BitVec 8
  | .ctrl => 0x00#8
  | .freqSet => 0x01#8
  | .dutySet => 0x02#8
  | .trim => 0x03#8
  | .crystalRef => 0x04#8
  | .gateTicks => 0x05#8
  | .status => 0x06#8
  | .planRefDiv => 0x10#8
  | .planInt => 0x11#8
  | .planFrac => 0x12#8
  | .planOutDiv => 0x13#8
  | .planHwDiv => 0x14#8
  | .planPresc => 0x15#8
  | .planPeriod => 0x16#8
  | .planCompare => 0x17#8
  | .planOutMode => 0x18#8
  | .achFreq => 0x19#8
  | .achDuty => 0x1A#8
  | .measFreq => 0x20#8
  | .measDuty => 0x21#8
  | .measStatus => 0x22#8
  | .gateCount => 0x23#8
  | .gateOvf => 0x24#8
  | .accPeriod => 0x25#8
  | .accDuty => 0x26#8
  | .accEdges => 0x27#8
  | .winTicks => 0x28#8
  | .zeroTicks => 0x29#8

/-- Every register, in index order (R23). -/
def Reg.all : List Reg :=
  [.ctrl, .freqSet, .dutySet, .trim, .crystalRef, .gateTicks, .status,
   .planRefDiv, .planInt, .planFrac, .planOutDiv, .planHwDiv, .planPresc, .planPeriod,
   .planCompare, .planOutMode, .achFreq, .achDuty,
   .measFreq, .measDuty, .measStatus, .gateCount, .gateOvf, .accPeriod, .accDuty, .accEdges,
   .winTicks, .zeroTicks]

/-- The register at an index, none when the index is unmapped (R61, R63). -/
def Reg.ofIndex? (idx : BitVec 8) : Option Reg := Reg.all.find? fun r => r.index == idx

/-- `CTRL` as a number (R24). -/
def Ctrl.image (c : Ctrl) : BitVec 7 :=
  c.threshSel.code ++ c.gateSel.code ++ BitVec.ofBool c.genEn ++ c.opmode.code

/-- The code of `PLAN_OUTMODE` (R37). -/
def OutMode.code : OutMode → BitVec 2
  | .staticLow => 0
  | .staticHigh => 1
  | .directClk => 2
  | .pwm => 3

/-- The code of `MEAS_STATUS.MMODE` (R41). -/
def MeasMode.code : MeasMode → BitVec 1
  | .gated => 0
  | .direct => 1

/-- `MEAS_STATUS` as a number (R41). -/
def Meas.statusImage (m : Meas) : BitVec 7 :=
  BitVec.ofBool m.accOvf ++ BitVec.ofBool m.act ++ BitVec.ofBool m.dutyValid
    ++ BitVec.ofBool m.stale ++ m.block ++ m.mmode.code

/-- The value of a register as the read port shows it: zero-extended, `TRIM` sign-extended (R22). -/
def State.regValue (s : State) : Reg → Word
  | .ctrl => s.ctrl.image.setWidth 64
  | .freqSet => s.freqSet.setWidth 64
  | .dutySet => s.dutySet.setWidth 64
  | .trim => s.trim.signExtend 64
  | .crystalRef => BitVec.ofNat 64 s.crystalRef
  | .gateTicks => BitVec.ofNat 64 s.gateTicks
  | .status => (BitVec.ofBool s.illegal).setWidth 64
  | .planRefDiv => s.plan.refDiv.setWidth 64
  | .planInt => s.plan.pint.setWidth 64
  | .planFrac => s.plan.pfrac.setWidth 64
  | .planOutDiv => s.plan.outDiv
  | .planHwDiv => s.plan.hwDiv.setWidth 64
  | .planPresc => s.plan.presc.setWidth 64
  | .planPeriod => s.plan.period.setWidth 64
  | .planCompare => s.plan.compare.setWidth 64
  | .planOutMode => s.plan.outMode.code.setWidth 64
  | .achFreq => s.plan.achFreq.setWidth 64
  | .achDuty => s.plan.achDuty.setWidth 64
  | .measFreq => s.meas.freq
  | .measDuty => s.meas.duty
  | .measStatus => s.meas.statusImage.setWidth 64
  | .gateCount => s.meas.gateCount.setWidth 64
  | .gateOvf => s.meas.gateOvf.setWidth 64
  | .accPeriod => s.meas.accPeriod
  | .accDuty => s.meas.accDuty
  | .accEdges => s.meas.accEdges.setWidth 64
  | .winTicks => s.meas.winTicks.setWidth 64
  | .zeroTicks => s.meas.zeroTicks.setWidth 64

/-- `RegRead(idx)`: 0 for an unmapped index (R62, R63). -/
def State.regRead (s : State) (idx : BitVec 8) : Word :=
  match Reg.ofIndex? idx with
  | some r => s.regValue r
  | none => 0

end Sys2Proof.Machine
end

