-- ==== Sys2Proof/Machine/Control.lean ====
section
/-! DEFINITION. The top-level mode, re-synthesis, the register read, the no-operation and reset
(spec/44_instrument_control.md R207, R210, R211; spec/41_synthesizer.md R140;
spec/70_reset_and_hazards.md R250). -/

namespace Sys2Proof.Machine

/-- `NOP` (R210). -/
def execNop (s : State) : Result := .next s

/-- The teardown of the previous owner of the PLL (R207). -/
def State.tearDown (s : State) : State := (s.withPlan offPlan).measStart

/-- `SET_MODE e`: tear down the previous owner, then set up the new one (R207). -/
def execSetMode (m : OpMode) (s : State) : Result :=
  ofFit (State.generatorChange (s.tearDown.withCtrl { s.ctrl with opmode := m }))

/-- `SYNTH`: `resynth` in Generator mode, nothing in Counter mode (R140). -/
def execSynth (s : State) : Result := ofFit s.generatorChange

/-- `RD idx`: the register's value on the read port; an unmapped index is an illegal host word
(R211, R63). -/
def execRd (idx : BitVec 8) (s : State) : Result :=
  match Reg.ofIndex? idx with
  | some r => .next { s with readPort := s.regValue r }
  | none => .next (s.illegalWord true)

/-- The registers as `RESET` leaves them (R250). -/
def State.resetRegisters (s : State) : State :=
  State.measStart
    { s with
      ctrl := ⟨.generator, false, .g0_1s, .alwaysGated⟩
      freqSet := 100, dutySet := 0, trim := 0, illegal := false
      plan := offPlan }

/-- `RESET`: every register (R250). What the read port shows until the next `RD` is a free value (U7;
log 3); the parameters and the stimuli still to come are not FSME's registers. -/
def execReset (s : State) : Result :=
  .next
    { s.drawFree.2.resetRegisters with
      readPort := Config.readPortAfterReset s.drawFree.1 }

end Sys2Proof.Machine
end

