-- ==== Sys2Proof/Machine/Measure.lean ====
section
/-! DEFINITION. The measurement engine: gated counting and reciprocal counting
(spec/42_measurement.md R150 to R161). -/

namespace Sys2Proof.Machine

/-! ## Which events act (R150) -/

/-- The engine is live in the measurement mode `mode` (R150). -/
abbrev State.live (mode : MeasMode) (s : State) : Prop :=
  s.ctrl.opmode = .counter ∧ s.meas.mmode = mode

/-- An event acts on the measurement registers when the engine is live in its mode, and is ignored
anywhere else (R150, spec/60_exceptions.md R235). -/
def State.onEvent (mode : MeasMode) (act : Meas → Option Meas) (s : State) : Result :=
  if s.live mode then ofFit ((act s.meas).map fun m => s.withMeas m) else .next s

/-! ## Gated counting -/

/-- One counted edge: modulo `2^24`, each wrap adding one to the tally (R151). -/
def Meas.countEdge (m : Meas) : Option Meas :=
  if m.gateCount.toNat = gateModulus - 1 then
    (fit 16 (m.gateOvf.toNat + 1)).map fun o => { m with gateCount := 0, gateOvf := o }
  else some { m with gateCount := m.gateCount + 1 }

/-- The number of edges since the gate opened (R151, R152). -/
def Meas.edgesSinceOpen (m : Meas) : Nat := m.gateCount.toNat + m.gateOvf.toNat * gateModulus

/-- `raw` in mHz (R153). -/
def rawGated (count mult : Nat) : Nat := count * mult

/-- `smooth`: snap when the difference is above the threshold, else one eighth of it (R154). -/
def smooth (cur raw : Nat) : Nat :=
  let diff : Int := (raw : Int) - (cur : Int)
  if diff.natAbs > snapThreshold then raw else ((cur : Int) + tdiv diff smoothDiv).toNat

/-- The body of `EV_GATE_CLOSE` in Gated mode (R152). -/
def Meas.gateClose (mult : Nat) (pair : ThreshPair) (m : Meas) : Option Meas :=
  (fit 64 (smooth m.freq.toNat (rawGated m.edgesSinceOpen mult))).map fun f =>
    Meas.modeCycle pair
      { m with gateCount := 0, gateOvf := 0, freq := f, duty := 0, dutyValid := false }

/-! ## Reciprocal counting -/

/-- The body of `EV_CAPTURE` in Direct mode (R157). -/
def Meas.capture (period pulse : BitVec 24) (ovf : Bool) (m : Meas) : Option Meas := do
  let accPeriod ← fit 64 (m.accPeriod.toNat + period.toNat)
  let accDuty ← fit 64 (m.accDuty.toNat + pulse.toNat)
  let accEdges ← fit 32 (m.accEdges.toNat + 1)
  return { m with accPeriod, accDuty, accEdges, accOvf := accOvfAfterCapture m.accOvf ovf, act := true }

/-- The recomputed frequency, `(CRYSTAL_REF * ACC_EDGES) / ACC_PERIOD` (R160). -/
def reciprocalFreq (c edges period : Nat) : Nat := c * edges / period

/-- The recomputed duty, `(ACC_DUTY * 10000) / ACC_PERIOD`, and 0 after a capture overflow (R161). -/
def reciprocalDuty (accOvf : Bool) (dutySum period : Nat) : Nat :=
  if accOvf then 0 else dutySum * 10000 / period

/-- The sample at a window end: recomputed when the window has an edge and a period, else kept
(R160, R161). -/
def Meas.recompute (c : Nat) (m : Meas) : Option Meas :=
  if 0 < m.accEdges.toNat ∧ 0 < m.accPeriod.toNat then do
    let freq ← fit 64 (reciprocalFreq c m.accEdges.toNat m.accPeriod.toNat)
    let duty ← fit 64 (reciprocalDuty m.accOvf m.accDuty.toNat m.accPeriod.toNat)
    return { m with freq, duty, dutyValid := dutyValidAfterWindow m.accOvf, stale := false }
  else some m

/-- The atomic take of the accumulators at a window end (R160, R162). -/
def Meas.takeWindow (m : Meas) : Meas :=
  { m with accPeriod := 0, accDuty := 0, accEdges := 0, accOvf := false }

/-- `window_end` (R160). -/
def Meas.windowEnd (c : Nat) (pair : ThreshPair) (m : Meas) : Option Meas :=
  (m.recompute c).map fun m' => m'.takeWindow.modeCycle pair

/-- `ZERO_TICKS` after a tick: 0 after a capture, else counted up to 16 (R158). -/
def zeroTicksAfter (act : Bool) (ticks : Nat) : Nat := if act then 0 else min (ticks + 1) graceTicks

/-- The grace bookkeeping of a tick (R158, R159). -/
def Meas.graceTick (m : Meas) : Meas :=
  let ticks := zeroTicksAfter m.act m.zeroTicks.toNat
  { m with
    zeroTicks := BitVec.ofNat 5 ticks, act := false
    stale := staleAfterTick m.stale ticks graceTicks }

/-- The window bookkeeping of a tick: the `W`-th tick is a window end (R158). -/
def Meas.windowTick (W c : Nat) (pair : ThreshPair) (m : Meas) : Option Meas := do
  let win ← fit 32 (m.winTicks.toNat + 1)
  if win.toNat = W then Meas.windowEnd c pair { m with winTicks := 0 }
  else some { m with winTicks := win }

/-- The body of `EV_REF_TICK` in Direct mode, its lines in order (R158). -/
def Meas.refTick (W c : Nat) (pair : ThreshPair) (m : Meas) : Option Meas :=
  m.graceTick.windowTick W c pair

/-! ## The four events -/

/-- `EV_EDGE` (R151). -/
def execEvEdge (s : State) : Result := s.onEvent .gated Meas.countEdge

/-- `EV_GATE_CLOSE` (R152). -/
def execEvGateClose (s : State) : Result :=
  s.onEvent .gated (Meas.gateClose (gateMult s.ctrl.gateSel) s.threshPair)

/-- `EV_CAPTURE period, pulse, ovf` (R157). -/
def execEvCapture (period pulse : BitVec 24) (ovf : Bool) (s : State) : Result :=
  s.onEvent .direct (Meas.capture period pulse ovf)

/-- `EV_REF_TICK` (R158). -/
def execEvRefTick (s : State) : Result :=
  s.onEvent .direct (Meas.refTick s.params.W s.referenceFreq s.threshPair)

end Sys2Proof.Machine
end

