-- ==== Sys2Proof/Machine/Operands.lean ====
section
/-! DEFINITION. Operand assembly and the clamps of the setting mutators (spec/30_encoding.md R83;
spec/44_instrument_control.md R201 to R203, R208). -/

namespace Sys2Proof.Machine

/-- The operand of format U: the 56 bits, unsigned (R83). -/
def operandU (v : Arg) : Nat := v.toNat

/-- The operand of format S: the 56 bits, two's complement (R83). -/
def operandS (v : Arg) : Int := v.toInt

/-- What `SET_FREQ` stores (R201). -/
def clampFreq (v : Arg) : BitVec 37 := BitVec.ofNat 37 (clampNat (operandU v) freqMin freqMax)

/-- What `SET_DUTY` stores (R202). -/
def clampDuty (v : Arg) : BitVec 14 := BitVec.ofNat 14 (clampNat (operandU v) 0 dutyMax)

/-- A trim clamped to its declared range (R203, R208). -/
def clampTrim (t : Int) : BitVec 28 := BitVec.ofInt 28 (clampInt t trimMin trimMax)

/-- The signed step of `TRIM_STEP cursor, dir` (R208). -/
def trimDelta (cursor : BitVec 3) : TrimDir → Int
  | .up => (ipow10 cursor.toNat : Int)
  | .down => -(ipow10 cursor.toNat : Int)

end Sys2Proof.Machine
end

