-- ==== Sys2Proof/Machine/Settings.lean ====
section
/-! DEFINITION. The setting commands and the trim step (spec/44_instrument_control.md R201 to R206,
R208). -/

namespace Sys2Proof.Machine

/-- `SET_FREQ v` (R201). -/
def execSetFreq (v : Arg) (s : State) : Result :=
  ofFit (State.generatorChange { s with freqSet := clampFreq v })

/-- `SET_DUTY v` (R202). -/
def execSetDuty (v : Arg) (s : State) : Result :=
  ofFit (State.generatorChange { s with dutySet := clampDuty v })

/-- `SET_TRIM v` (R203). -/
def execSetTrim (v : Arg) (s : State) : Result :=
  ofFit (State.trimChange { s with trim := clampTrim (operandS v) })

/-- `SET_GATE e` (R204). -/
def execSetGate (g : GateTime) (s : State) : Result :=
  .next (State.counterChange (s.withCtrl { s.ctrl with gateSel := g }))

/-- `SET_THRESH e` (R205). -/
def execSetThresh (t : DirectThreshold) (s : State) : Result :=
  .next (State.counterChange (s.withCtrl { s.ctrl with threshSel := t }))

/-- `SET_GEN e` (R206). -/
def execSetGen (on : Bool) (s : State) : Result :=
  ofFit (State.generatorChange (s.withCtrl { s.ctrl with genEn := on }))

/-- `TRIM_STEP cursor, dir`: the exact sum, then the clamp (R208). -/
def execTrimStep (cursor : BitVec 3) (dir : TrimDir) (s : State) : Result :=
  ofFit (State.trimChange { s with trim := clampTrim (s.trim.toInt + trimDelta cursor dir) })

end Sys2Proof.Machine
end

