-- ==== Sys2Proof/Machine/Dispatch.lean ====
section
/-! DEFINITION. One arm per stimulus, each one call of its meaning. -/

namespace Sys2Proof.Machine

def exec (i : Instr) (s : State) : Host.Outcome State Fault Refusal :=
  match i with
  | .nop => Sys2Proof.Machine.execNop s
  | .setFreq v => Sys2Proof.Machine.execSetFreq v s
  | .setDuty v => Sys2Proof.Machine.execSetDuty v s
  | .setTrim v => Sys2Proof.Machine.execSetTrim v s
  | .setGate g => Sys2Proof.Machine.execSetGate g s
  | .setThresh t => Sys2Proof.Machine.execSetThresh t s
  | .setGen on => Sys2Proof.Machine.execSetGen on s
  | .setMode m => Sys2Proof.Machine.execSetMode m s
  | .trimStep cursor dir => Sys2Proof.Machine.execTrimStep cursor dir s
  | .synth => Sys2Proof.Machine.execSynth s
  | .rd idx => Sys2Proof.Machine.execRd idx s
  | .evEdge => Sys2Proof.Machine.execEvEdge s
  | .evGateClose => Sys2Proof.Machine.execEvGateClose s
  | .evCapture period pulse ovf => Sys2Proof.Machine.execEvCapture period pulse ovf s
  | .evRefTick => Sys2Proof.Machine.execEvRefTick s
  | .reset => Sys2Proof.Machine.execReset s

end Sys2Proof.Machine
end

