-- ==== Sys2Proof/Machine/Accept.lean ====
section
/-! DEFINITION. Accepting one stimulus word (spec/30_encoding.md R93 to R96). -/

namespace Sys2Proof.Machine

/-- The word has the opcode of `RD` (R90): an illegal one puts 0 on the read port (R93). -/
def isRdWord (w : Word) : Bool := opcField w == Opcode.rd.code

/-- The effect of one stimulus word: the operation it selects, the one flag of an illegal host word
(R93), or a refusal of a word that stands for nothing in hardware (R94). -/
def accept (w : Word) (s : State) : Result :=
  match decode w with
  | .stimulus i => exec i s
  | .illegalHostWord => .next (s.illegalWord (isRdWord w))
  | .malformedEventWord => .refused .malformedEvent

end Sys2Proof.Machine
end

