-- ==== Sys2Proof/Machine/Step.lean ====
section
/-! DEFINITION. One step: accept the next stimulus word (spec/10_state.md R21;
spec/70_reset_and_hazards.md R262; log 1). -/

namespace Sys2Proof.Machine

/-- One step. With no stimulus FSME does nothing (R262); otherwise it accepts the next word. -/
def step (s : State) : Host.Outcome State Fault Refusal :=
  match s.trace with
  | [] => .next s
  | w :: rest => accept w { s with trace := rest }

/-- `s` with the stimulus word in the low `nbits` bits of `w` as the next one to be accepted. -/
def State.withFetchWord (s : State) (nbits w : Nat) : State :=
  { s with trace := BitVec.ofNat 64 (w % 2 ^ nbits) :: s.trace }

end Sys2Proof.Machine
end

