-- ==== Sys2Proof/Machine/Arrival.lean ====
section
/-! DEFINITION. How stimuli arrive: the command port and the strobes of one clock cycle
(spec/30_encoding.md R81; spec/60_exceptions.md R235, R236). -/

namespace Sys2Proof.Machine

/-- The data wires of the capture strobe (R86). -/
structure CaptureData where
  period : BitVec 24
  pulse : BitVec 24
  ovf : Bool
  deriving DecidableEq, Repr

/-- What FSME's inputs carry in one clock cycle: at most one strobe of each kind, and at most one word
on the 63-bit command port (R81, R236). -/
structure Cycle where
  reset : Bool
  edge : Bool
  capture : Option CaptureData
  gateClose : Bool
  refTick : Bool
  host : Option (BitVec 63)
  deriving DecidableEq, Repr

/-- The word of a command port value: `SRC` is 0, so the host cannot forge an event (R81). -/
def hostWord (p : BitVec 63) : Word := p.setWidth 64

/-- The word that stands for a strobe, when it is asserted (R81). -/
def strobeWord (on : Bool) (i : Instr) : List Word := if on then [encode i] else []

/-- The words of one cycle in the order FSME processes them: `RESET` first and alone, then `EV_EDGE`,
`EV_CAPTURE`, `EV_GATE_CLOSE`, `EV_REF_TICK`, then the host command (R236). -/
def Cycle.words (c : Cycle) : List Word :=
  if c.reset then [encode .reset]
  else
    strobeWord c.edge .evEdge
      ++ (c.capture.toList.map fun d => encode (.evCapture d.period d.pulse d.ovf))
      ++ strobeWord c.gateClose .evGateClose
      ++ strobeWord c.refTick .evRefTick
      ++ c.host.toList.map hostWord

/-- One cycle's inputs arrive: its words come after those already waiting (R21, R236). -/
def State.arrive (c : Cycle) (s : State) : State := { s with trace := s.trace ++ c.words }

end Sys2Proof.Machine
end

