-- ==== Sys2Proof/Machine/Outputs.lean ====
section
/-! DEFINITION. FSME's outputs, driven continuously from the registers (spec/60_exceptions.md R242;
spec/70_reset_and_hazards.md R255). They are functions of the state: there is no separate "apply". -/

namespace Sys2Proof.Machine

/-- What drives the output pin (R37, R242). -/
inductive PinDrive where
  /-- `drive_pin_static(low)`. -/
  | low
  /-- `drive_pin_static(high)`. -/
  | high
  /-- The PLL clock divided by `divider`, 50% duty. -/
  | dividedClock (divider : BitVec 2)
  /-- The PWM timer. -/
  | pwm (prescaler : BitVec 40) (period compare : BitVec 24)
  deriving DecidableEq, Repr

/-- The pin as `PLAN_OUTMODE` selects it (R37, R242). -/
def Plan.pin (p : Plan) : PinDrive :=
  match p.outMode with
  | .staticLow => .low
  | .staticHigh => .high
  | .directClk => .dividedClock p.hwDiv
  | .pwm => .pwm p.presc p.period p.compare

/-- The lines to the PLL, the divider, the PWM timer, the pin and the gate timer (R242, R255). -/
structure ClockLines where
  /-- `configure_pll(reference_divider, integer_ratio, fraction_ratio)`. -/
  pll : BitVec 9 × BitVec 16 × BitVec 4
  /-- `configure_output_divider(power_of_two)`. -/
  outputDivider : BitVec 2
  /-- `configure_pwm(prescaler, period, compare)`. -/
  pwm : BitVec 40 × BitVec 24 × BitVec 24
  /-- Which of them drives the pin. -/
  pin : PinDrive
  /-- The gate timer's window length. -/
  gateTicks : Nat
  deriving DecidableEq, Repr

/-- The values on the lines (R242, R255). -/
def State.clockLines (s : State) : ClockLines where
  pll := (s.plan.refDiv, s.plan.pint, s.plan.pfrac)
  outputDivider := s.plan.hwDiv
  pwm := (s.plan.presc, s.plan.period, s.plan.compare)
  pin := s.plan.pin
  gateTicks := s.gateTicks

/-- The frequency of the PLL output in sixteenths of a mHz:
`(crystal_ref / PLAN_REFDIV) * (PLAN_INT + PLAN_FRAC / 16)` (R242). -/
def State.pllSixteenths (s : State) : Nat :=
  s.crystalRef / s.plan.refDiv.toNat * (16 * s.plan.pint.toNat + s.plan.pfrac.toNat)

end Sys2Proof.Machine
end

