-- ==== Sys2Proof/Machine/Text.lean ====
section
/-! DEFINITION. The textual form of stimuli and the pseudo-instructions (spec/30_encoding.md R97,
R98): one stimulus a line, operands separated by commas, `;` before a comment. -/

namespace Sys2Proof.Machine

/-- The blanks between the parts of a line (log 10). -/
def isBlank (c : Char) : Bool := c == ' ' || c == '\t'

/-- A text without the blanks at its two ends. -/
def trimBlanks (t : List Char) : List Char :=
  ((t.dropWhile isBlank).reverse.dropWhile isBlank).reverse

/-- The parts of a text between occurrences of a character. -/
def splitAt (sep : Char) : List Char → List (List Char)
  | [] => [[]]
  | c :: cs =>
    if c == sep then [] :: splitAt sep cs
    else
      match splitAt sep cs with
      | [] => [[c]]
      | p :: ps => (c :: p) :: ps

/-- The value of a digit, decimal or hexadecimal. -/
def digitValue (c : Char) : Nat :=
  if '0' ≤ c ∧ c ≤ '9' then c.toNat - '0'.toNat
  else if 'a' ≤ c ∧ c ≤ 'f' then c.toNat - 'a'.toNat + 10
  else if 'A' ≤ c ∧ c ≤ 'F' then c.toNat - 'A'.toNat + 10
  else 16

/-- The value of the digits of a text in a base, `_` being a separator (R11, R97). PRESUMED: `_` may stand
anywhere after the first digit, also after the last one and more than once in a row (log 10). -/
def digits? (base acc : Nat) : List Char → Option Nat
  | [] => some acc
  | c :: cs =>
    if c == '_' then digits? base acc cs
    else if digitValue c < base then digits? base (acc * base + digitValue c) cs
    else none

/-- A number: hexadecimal after `0x`, decimal otherwise (R97). -/
def number? : List Char → Option Nat
  | '0' :: 'x' :: c :: cs => if digitValue c < 16 then digits? 16 0 (c :: cs) else none
  | c :: cs => if digitValue c < 10 then digits? 10 0 (c :: cs) else none
  | [] => none

/-- The named operands of R97 with their codes. -/
def operandNames : Opcode → List (String × Nat)
  | .setGate => [("G0_1S", 0), ("G1S", 1), ("G5S", 2), ("G10S", 3)]
  | .setThresh => [("ALWAYS_GATED", 0), ("T1K", 1), ("T10K", 2), ("T100K", 3), ("T1M", 4)]
  | .setMode => [("GENERATOR", 0), ("COUNTER", 1)]
  | .setGen => [("OFF", 0), ("ON", 1)]
  | .trimStep => [("UP", 0), ("DOWN", 1)]
  | .nop | .setFreq | .setDuty | .setTrim | .synth | .rd | .evEdge | .evGateClose | .evCapture
  | .evRefTick | .reset => []

/-- An enumerated operand, by name or by number (R97). -/
def enumerated? (op : Opcode) (t : List Char) : Option Nat :=
  match (operandNames op).find? fun n => n.1.toList == t with
  | some n => some n.2
  | none => number? t

/-- A number below a bound. -/
def below? (bound n : Nat) : Option Nat := if n < bound then some n else none

/-- The signed operand of `SET_TRIM` as its 56-bit pattern (R83 format S, R97). PRESUMED: `-` may also
precede a hexadecimal number, and a number without `-` is a magnitude below `2^55`, in hexadecimal too,
never the pattern itself (log 10). -/
def signed? : List Char → Option Nat
  | '-' :: t => do
    let n ← number? t
    if n ≤ 2 ^ 55 then some ((2 ^ 56 - n) % 2 ^ 56) else none
  | t => number? t >>= below? (2 ^ 55)

/-- The `ARG` that the operands of a mnemonic stand for, in the order of R90 (R97). -/
def argOf? : Opcode → List (List Char) → Option Nat
  | .nop, [] | .synth, [] | .evEdge, [] | .evGateClose, [] | .evRefTick, [] | .reset, [] => some 0
  | .setFreq, [v] | .setDuty, [v] | .rd, [v] => number? v >>= below? (2 ^ 56)
  | .setTrim, [v] => signed? v
  | .setGate, [e] => enumerated? .setGate e >>= below? (2 ^ 56)
  | .setThresh, [e] => enumerated? .setThresh e >>= below? (2 ^ 56)
  | .setGen, [e] => enumerated? .setGen e >>= below? (2 ^ 56)
  | .setMode, [e] => enumerated? .setMode e >>= below? (2 ^ 56)
  | .trimStep, [c, d] => do
    let cursor ← number? c >>= below? 8
    let dir ← enumerated? .trimStep d >>= below? 2
    some (cursor + 8 * dir)
  | .evCapture, [p, q, o] => do
    let period ← number? p >>= below? (2 ^ 24)
    let pulse ← number? q >>= below? (2 ^ 24)
    let ovf ← number? o >>= below? 2
    some (period + 2 ^ 24 * pulse + 2 ^ 48 * ovf)
  | _, _ => none

/-- The mnemonics of R90. -/
def mnemonics : List (String × Opcode) :=
  [("NOP", .nop), ("SET_FREQ", .setFreq), ("SET_DUTY", .setDuty), ("SET_TRIM", .setTrim),
   ("SET_GATE", .setGate), ("SET_THRESH", .setThresh), ("SET_GEN", .setGen),
   ("SET_MODE", .setMode), ("TRIM_STEP", .trimStep), ("SYNTH", .synth), ("RD", .rd),
   ("EV_EDGE", .evEdge), ("EV_GATE_CLOSE", .evGateClose), ("EV_CAPTURE", .evCapture),
   ("EV_REF_TICK", .evRefTick), ("RESET", .reset)]

/-- The stimulus of a mnemonic and its operands, when they are legal (R83, R97). -/
def operation? (mnemonic : List Char) (ops : List (List Char)) : Option Instr := do
  let op ← (mnemonics.find? fun m => m.1.toList == mnemonic).map Prod.snd
  let arg ← argOf? op ops
  assemble op (BitVec.ofNat 56 arg)

/-- The pseudo-instructions of R98. -/
inductive Pseudo where
  | edges (n : Nat)
  | ticks (n : Nat)
  | caps (n : Nat) (period pulse : BitVec 24)
  | genOn
  | genOff
  | trimUp (cursor : BitVec 3)
  | trimDown (cursor : BitVec 3)
  | gate (n : Nat)
  deriving DecidableEq, Repr

/-- The expansion of a pseudo-instruction (R98). -/
def Pseudo.expand : Pseudo → List Instr
  | .edges n => List.replicate n .evEdge
  | .ticks n => List.replicate n .evRefTick
  | .caps n period pulse => List.replicate n (.evCapture period pulse false)
  | .genOn => [.setGen true]
  | .genOff => [.setGen false]
  | .trimUp c => [.trimStep c .up]
  | .trimDown c => [.trimStep c .down]
  | .gate n => List.replicate n .evEdge ++ [.evGateClose]

/-- The pseudo-instruction of a name and its operands (R98). -/
def pseudo? (name : List Char) (ops : List (List Char)) : Option Pseudo :=
  match ops with
  | [] =>
    if name == "GEN_ON".toList then some .genOn
    else if name == "GEN_OFF".toList then some .genOff
    else none
  | [a] => do
    let n ← number? a
    if name == "EDGES".toList then some (.edges n)
    else if name == "TICKS".toList then some (.ticks n)
    else if name == "GATE".toList then some (.gate n)
    else if name == "TRIM_UP".toList then (below? 8 n).map fun c => .trimUp (BitVec.ofNat 3 c)
    else if name == "TRIM_DOWN".toList then (below? 8 n).map fun c => .trimDown (BitVec.ofNat 3 c)
    else none
  | [a, b, c] => do
    let n ← number? a
    let period ← number? b >>= below? (2 ^ 24)
    let pulse ← number? c >>= below? (2 ^ 24)
    if name == "CAPS".toList then some (.caps n (BitVec.ofNat 24 period) (BitVec.ofNat 24 pulse))
    else none
  | _ => none

/-- The operands of a line: none when nothing follows the mnemonic. -/
def operands (t : List Char) : List (List Char) :=
  if trimBlanks t == [] then [] else (splitAt ',' t).map trimBlanks

/-- The stimuli of one line, none when it is no line of the textual form; an empty line or a comment
has none (R97, R98). -/
def parseLine (line : List Char) : Option (List Instr) :=
  let t := trimBlanks (line.takeWhile fun c => c != ';')
  let name := t.takeWhile fun c => !isBlank c
  let ops := operands (t.dropWhile fun c => !isBlank c)
  if t == [] then some []
  else
    match operation? name ops with
    | some i => some [i]
    | none => (pseudo? name ops).map Pseudo.expand

/-- The stimuli of a text of several lines (R97). -/
def parseText (text : List Char) : Option (List Instr) :=
  ((splitAt '\n' text).mapM parseLine).map List.flatten

end Sys2Proof.Machine
end

