-- ==== Sys2Proof/Safety.lean ====
section
/-! DEFINITION. The terms the statements use: the invariants of spec/10_state.md R50, the obligations on
the environment of spec/70_reset_and_hazards.md R258, runs of stimuli, measurement cycles
(spec/43_mode_controller.md R180) and the start-up of the host (R254). -/

namespace Sys2Proof.Machine

/-! ## Invariants (R50) -/

/-- The settings registers hold values in their declared ranges (R50 item 1). -/
structure State.SettingsInRange (s : State) : Prop where
  freq_lo : 100 ≤ s.freqSet.toNat
  freq_hi : s.freqSet.toNat ≤ 105000000000
  duty_hi : s.dutySet.toNat ≤ 10000
  trim_lo : -99999999 ≤ s.trim.toInt
  trim_hi : s.trim.toInt ≤ 99999999

/-- The numbers that the plan registers hold. -/
def Plan.raw (p : Plan) : RawPlan where
  refDiv := p.refDiv.toNat
  pint := p.pint.toNat
  pfrac := p.pfrac.toNat
  outDiv := p.outDiv.toNat
  stage :=
    { hwDiv := p.hwDiv.toNat, presc := p.presc.toNat, period := p.period.toNat
      compare := p.compare.toNat, outMode := p.outMode, achDuty := p.achDuty.toNat }
  achFreq := p.achFreq.toNat

/-- `p` holds what the settings of `s` call for: the synthesizer's numbers in Generator mode with the
generator on, 0 in every register otherwise (R121, R138). -/
def State.PlanFor (s : State) (p : Plan) : Prop :=
  (s.ctrl.opmode = .generator ∧ s.ctrl.genEn = true →
    p.raw = synthesize s.params.P s.freqSet.toNat s.dutySet.toNat s.crystalRef) ∧
  (s.ctrl.opmode = .counter ∨ s.ctrl.genEn = false → p = Plan.reset)

/-- The plan registers hold what the settings call for (R50 items 3 and 4). -/
def State.PlanCurrent (s : State) : Prop := s.PlanFor s.plan

/-- What the measurement registers hold in Gated mode (R50 item 7). -/
structure Meas.GatedClean (m : Meas) : Prop where
  accPeriod : m.accPeriod = 0
  accDuty : m.accDuty = 0
  accEdges : m.accEdges = 0
  winTicks : m.winTicks = 0
  zeroTicks : m.zeroTicks = 0
  act : m.act = false
  accOvf : m.accOvf = false
  stale : m.stale = false
  dutyValid : m.dutyValid = false
  duty : m.duty = 0

/-- What the measurement registers hold in Direct mode (R50 item 7). -/
structure Meas.DirectClean (m : Meas) : Prop where
  gateCount : m.gateCount = 0
  gateOvf : m.gateOvf = 0

/-- The invariants of R50. Item 2 holds by definition (`State.crystalRef`, `State.gateTicks` are
functions), as do the bounds of item 6 that are a register's width and `THRESH_SEL ≤ 4`. -/
structure State.Inv (s : State) : Prop where
  settings : s.SettingsInRange
  plan : s.PlanCurrent
  idle : s.ctrl.opmode = .generator → s.meas = Meas.reset
  zeroTicks : s.meas.zeroTicks.toNat ≤ 16
  winTicks : s.meas.winTicks.toNat < s.params.W
  gated : s.meas.mmode = .gated → s.meas.GatedClean
  direct : s.meas.mmode = .direct → s.meas.DirectClean
  alwaysGated : s.ctrl.threshSel = .alwaysGated → s.meas.mmode = .gated
  duty : s.meas.dutyValid = false → s.meas.duty = 0

/-! ## Obligations on the environment (R258) -/

/-- Another edge keeps the gate's count below `2^40` (R258 item 1). -/
def Meas.EdgeFits (m : Meas) : Prop := m.edgesSinceOpen + 1 < 2 ^ 40

/-- Another capture keeps the window below `2^30` captures, each sum being at most that many captures
of 24 bits (R258 item 2). -/
structure Meas.CaptureFits (m : Meas) : Prop where
  edges : m.accEdges.toNat + 1 < 2 ^ 30
  period : m.accPeriod.toNat ≤ m.accEdges.toNat * (2 ^ 24 - 1)
  duty : m.accDuty.toNat ≤ m.accEdges.toNat * (2 ^ 24 - 1)

/-- A window end that computes a duty computes one that fits (R258 item 3), from fewer than `2^30`
captures (item 2). -/
structure Meas.WindowFits (m : Meas) : Prop where
  edges : m.accEdges.toNat < 2 ^ 30
  duty : m.accOvf = false → m.accDuty.toNat * 10000 / m.accPeriod.toNat < 2 ^ 64

/-! ## Runs and measurement cycles -/

/-- The stimuli of a list, one after the other, stopping at the first refusal (R68, R262). -/
def runInstrs : List Instr → State → Result
  | [], s => .next s
  | i :: rest, s =>
    match exec i s with
    | .next t => runInstrs rest t
    | .fault r => .fault r
    | .refused r => .refused r

/-- The stimulus is a hardware event (R9). -/
def isEvent (i : Instr) : Bool :=
  decide (i.opcode.agent = .inputSignal) || decide (i.opcode.agent = .referenceTimers)

/-- The stimulus restarts the measurement in Counter mode (R207, R214, R250). -/
def restartsMeasurement : Instr → Bool
  | .setTrim _ | .setGate _ | .setThresh _ | .setMode _ | .trimStep _ _ | .reset => true
  | .nop | .setFreq _ | .setDuty _ | .setGen _ | .synth | .rd _ | .evEdge | .evGateClose
  | .evCapture _ _ _ | .evRefTick => false

/-- From `s` to `t` the stimulus reinitialised the measurement registers: it restarted the measurement
(R186), or it switched the measurement mode (R184, R185). -/
def reinitializes (i : Instr) (s t : State) : Prop :=
  restartsMeasurement i = true ∨ t.meas.mmode ≠ s.meas.mmode

/-- The stimulus runs the synthesizer in Generator mode (R207, R213, R140, R250). -/
def synthesizes : Instr → Bool
  | .setFreq _ | .setDuty _ | .setTrim _ | .setGen _ | .setMode _ | .trimStep _ _ | .synth
  | .reset => true
  | .nop | .setGate _ | .setThresh _ | .rd _ | .evEdge | .evGateClose | .evCapture _ _ _
  | .evRefTick => false

/-- The stimulus completes a measurement cycle in this state: an `EV_GATE_CLOSE` acted on in Gated
mode, or the `W`-th tick of a window in Direct mode (R180). -/
def completesCycle (i : Instr) (s : State) : Bool :=
  match i with
  | .evGateClose => decide (s.live .gated)
  | .evRefTick => decide (s.live .direct) && decide (s.meas.winTicks.toNat + 1 = s.params.W)
  | .nop | .setFreq _ | .setDuty _ | .setTrim _ | .setGate _ | .setThresh _ | .setGen _
  | .setMode _ | .trimStep _ _ | .synth | .rd _ | .evEdge | .evCapture _ _ _ | .reset => false

/-- The number of measurement cycles a list of stimuli completes from a state (R180). -/
def cyclesIn : List Instr → State → Nat
  | [], _ => 0
  | i :: rest, s =>
    (if completesCycle i s then 1 else 0) +
      match exec i s with
      | .next t => cyclesIn rest t
      | .fault _ => 0
      | .refused _ => 0

/-! ## Start-up of the host (R254) -/

/-- The stored settings the host loads at power-on (R254). -/
structure StoredSettings where
  trim : Arg
  freq : Arg
  duty : Arg
  gate : GateTime
  thresh : DirectThreshold
  /-- What `SET_GEN` is issued with; none when the output is not to run and it is not issued. -/
  gen : Option Bool
  mode : OpMode
  deriving DecidableEq, Repr

/-- Steps 2 to 4 of the start-up, in the order R254 lists them; `SET_GEN` only where it is issued. -/
def StoredSettings.commands (c : StoredSettings) : List Instr :=
  [.setTrim c.trim, .setFreq c.freq, .setDuty c.duty, .setGate c.gate, .setThresh c.thresh]
    ++ c.gen.toList.map .setGen

/-- The start-up sequence: the settings, then `SET_MODE` last (R254). -/
def StoredSettings.startUp (c : StoredSettings) : List Instr := c.commands ++ [.setMode c.mode]

end Sys2Proof.Machine
end

