-- ==== Sys2Proof/Certificates/Slice0/Obligations.lean ====
section
/-! DEFINITION. The statements for the provers. Each docstring says which rule of spec/ it formalises. -/

open Sys2Proof Sys2Proof.Machine

/-! ## Words -/

/-- A few stimulus words, as the examples of R84 to R86 and spec/95_test_vectors.md section 2.1 write
them, decode to the stimuli they stand for. -/
def Obligations.KnownWordsDecode : Prop :=
  decode 0x0000000000000000#64 = .stimulus .nop ∧
  decode 0x010000003B9ACA00#64 = .stimulus (.setFreq 1000000000#56) ∧
  decode 0x0200000000001388#64 = .stimulus (.setDuty 5000#56) ∧
  decode 0x03FFFFFFFFFFFFFB#64 = .stimulus (.setTrim (BitVec.ofInt 56 (-5))) ∧
  decode 0x0400000000000003#64 = .stimulus (.setGate .g10s) ∧
  decode 0x0500000000000004#64 = .stimulus (.setThresh .t1M) ∧
  decode 0x0800000000000009#64 = .stimulus (.trimStep 1#3 .down) ∧
  decode 0x0A00000000000020#64 = .stimulus (.rd 0x20#8) ∧
  decode 0x820000029A000535#64 = .stimulus (.evCapture 1333#24 666#24 false) ∧
  decode 0x820100003C0000F0#64 = .stimulus (.evCapture 240#24 60#24 true) ∧
  decode 0xFF00000000000000#64 = .stimulus .reset ∧
  decode 0x0500000000000005#64 = .illegalHostWord ∧
  decode 0x0A00000000000007#64 = .illegalHostWord ∧
  decode 0x8202000000000000#64 = .malformedEventWord

/-- Decoding the encoding of a well-formed stimulus gives it back, with every operand at every value
its format admits (R83, R90, R96). -/
def Obligations.DecodeOfEncodeIsIdentity : Prop :=
  ∀ i : Instr, i.wellFormed = true → decode (encode i) = .stimulus i

/-- A word that selects a stimulus is the encoding of that stimulus, which is well formed: no two words
stand for one stimulus (R82, R83, R96). -/
def Obligations.EncodeOfDecodeIsIdentity : Prop :=
  ∀ (w : Word) (i : Instr), decode w = .stimulus i → encode i = w ∧ i.wellFormed = true

/-- R91: a word selects the operation of a row exactly when it matches the row under its mask and
meets the row's constraint, and no two rows match the same word. -/
def Obligations.MatchMaskRowsSelectOperations : Prop :=
  (∀ (w : Word) (op : Opcode),
    (∃ i, decode w = .stimulus i ∧ i.opcode = op) ↔ op.selects w = true) ∧
  ∀ (w : Word) (op op' : Opcode), op.selects w = true → op'.selects w = true → op = op'

/-- R93: a host word (`SRC = 0`) that matches no row has exactly one effect, `STATUS.ILLEGAL <- 1`; an
illegal `RD` shows 0 on the read port. There is no trap. The words in question are those of an undefined
opcode 0x0B to 0x7F and those whose argument is outside the legal set of their format. That every illegal
word with the opcode of `RD`, also one with `ARG > 255`, shows 0 is the model's choice of reading
(log 12). -/
def Obligations.IllegalHostWordSetsOneFlag : Prop :=
  (∀ (s : State) (w : Word) (rest : List Word), s.trace = w :: rest → w.getLsbD 63 = false →
    (∀ op : Opcode, op.selects w = false) →
    step s = .next
      { s with
        trace := rest, illegal := true
        readPort := if w.extractLsb' 56 8 = 0x0A#8 then 0 else s.readPort }) ∧
  ∀ (opc : BitVec 8) (arg : BitVec 56), opc.toNat < 0x80 →
    ((∀ op : Opcode, op.selects (opc ++ arg) = false) ↔
      0x0B ≤ opc.toNat ∨
      ((opc = 0x00#8 ∨ opc = 0x09#8) ∧ arg ≠ 0) ∨
      (opc = 0x04#8 ∧ 3 < arg.toNat) ∨
      (opc = 0x05#8 ∧ 4 < arg.toNat) ∨
      ((opc = 0x06#8 ∨ opc = 0x07#8) ∧ 1 < arg.toNat) ∨
      (opc = 0x08#8 ∧ 15 < arg.toNat) ∨
      (opc = 0x0A#8 ∧ (255 < arg.toNat ∨ mappedIndex (arg.extractLsb' 0 8) = false)))

/-- R94: a word with `SRC = 1` that matches no row is refused, whatever the state. The words in question
are those of an opcode 0x84 to 0xFE and those of a defined event opcode with a reserved argument bit
set. -/
def Obligations.MalformedEventWordIsRefused : Prop :=
  (∀ (s : State) (w : Word) (rest : List Word), s.trace = w :: rest → w.getLsbD 63 = true →
    (∀ op : Opcode, op.selects w = false) → step s = .refused .malformedEvent) ∧
  ∀ (opc : BitVec 8) (arg : BitVec 56), 0x80 ≤ opc.toNat →
    ((∀ op : Opcode, op.selects (opc ++ arg) = false) ↔
      (0x84 ≤ opc.toNat ∧ opc.toNat ≤ 0xFE) ∨
      (opc = 0x82#8 ∧ 2 ^ 49 ≤ arg.toNat) ∨
      ((opc = 0x80#8 ∨ opc = 0x81#8 ∨ opc = 0x83#8 ∨ opc = 0xFF#8) ∧ arg ≠ 0))

/-- R81: what the 63-bit command port carries is never an event, a reset or a malformed event word. -/
def Obligations.HostCannotForgeEvents : Prop :=
  ∀ p : BitVec 63,
    (hostWord p).getLsbD 63 = false ∧ decode (hostWord p) ≠ .malformedEventWord ∧
    ∀ i, decode (hostWord p) = .stimulus i → i.opcode.agent = .host

/-- A step runs the operation that the next stimulus word stands for, having taken the word from the
trace; with no stimulus waiting nothing changes (R21, R262; log 1 is the model's trace). -/
def Obligations.StepRunsDecodedStimulus : Prop :=
  (∀ (s : State) (w : Word) (rest : List Word) (i : Instr), s.trace = w :: rest →
    decode w = .stimulus i → step s = exec i { s with trace := rest }) ∧
  ∀ s : State, s.trace = [] → step s = .next s

/-- The stimuli of one clock cycle reach the trace, after those already waiting, in a fixed order: `RESET`
alone, otherwise `EV_EDGE`, `EV_CAPTURE`, `EV_GATE_CLOSE`, `EV_REF_TICK`, then the host command; their
arrival changes nothing else. The order is that of R236; that they arrive in the trace which `step`
consumes is the model's choice (log 1, log 13). -/
def Obligations.CoincidentStrobesInFixedOrder : Prop :=
  ∀ (c : Cycle) (s : State), ∃ ws : List Word,
    s.arrive c = { s with trace := s.trace ++ ws } ∧
    (c.reset = true → ws.map decode = [.stimulus .reset]) ∧
    (c.reset = false → ws.map decode =
      (if c.edge then [.stimulus .evEdge] else []) ++
      (match c.capture with
        | some d => [.stimulus (.evCapture d.period d.pulse d.ovf)]
        | none => []) ++
      (if c.gateClose then [.stimulus .evGateClose] else []) ++
      (if c.refTick then [.stimulus .evRefTick] else []) ++
      (match c.host with
        | some p => [decode (hostWord p)]
        | none => []))

/-! ## Registers -/

/-- R251: what each register reads right after reset; every unmapped index reads 0 (R63). -/
def Obligations.ResetRegisterValues : Prop :=
  ∀ idx : BitVec 8, State.reset.regRead idx =
    if idx = 0x01#8 then 100#64
    else if idx = 0x04#8 then 12000000000#64
    else if idx = 0x05#8 then 1200000#64
    else 0#64

/-- R22, R24, R30, R37, R41: a register reads zero-extended, `TRIM` sign-extended; `CTRL` and
`MEAS_STATUS` read as their fields at their places. The second half spells out the number of every
member of the enumerated fields. -/
def Obligations.RegisterReadValues : Prop :=
  ∀ s : State,
    (s.regRead 0x00#8).toNat =
      s.ctrl.opmode.code.toNat + 2 * s.ctrl.genEn.toNat + 4 * s.ctrl.gateSel.code.toNat
        + 16 * s.ctrl.threshSel.code.toNat ∧
    (s.regRead 0x01#8).toNat = s.freqSet.toNat ∧ (s.regRead 0x02#8).toNat = s.dutySet.toNat ∧
    (s.regRead 0x03#8).toInt = s.trim.toInt ∧
    (s.regRead 0x04#8).toNat = s.crystalRef ∧ (s.regRead 0x05#8).toNat = s.gateTicks ∧
    (s.regRead 0x06#8).toNat = s.illegal.toNat ∧
    (s.regRead 0x10#8).toNat = s.plan.refDiv.toNat ∧ (s.regRead 0x11#8).toNat = s.plan.pint.toNat ∧
    (s.regRead 0x12#8).toNat = s.plan.pfrac.toNat ∧ (s.regRead 0x13#8).toNat = s.plan.outDiv.toNat ∧
    (s.regRead 0x14#8).toNat = s.plan.hwDiv.toNat ∧ (s.regRead 0x15#8).toNat = s.plan.presc.toNat ∧
    (s.regRead 0x16#8).toNat = s.plan.period.toNat ∧
    (s.regRead 0x17#8).toNat = s.plan.compare.toNat ∧
    (s.regRead 0x18#8).toNat = s.plan.outMode.code.toNat ∧
    (s.regRead 0x19#8).toNat = s.plan.achFreq.toNat ∧
    (s.regRead 0x1A#8).toNat = s.plan.achDuty.toNat ∧
    (s.regRead 0x20#8).toNat = s.meas.freq.toNat ∧ (s.regRead 0x21#8).toNat = s.meas.duty.toNat ∧
    (s.regRead 0x22#8).toNat =
      s.meas.mmode.code.toNat + 2 * s.meas.block.toNat + 8 * s.meas.stale.toNat
        + 16 * s.meas.dutyValid.toNat + 32 * s.meas.act.toNat + 64 * s.meas.accOvf.toNat ∧
    (s.regRead 0x23#8).toNat = s.meas.gateCount.toNat ∧
    (s.regRead 0x24#8).toNat = s.meas.gateOvf.toNat ∧
    (s.regRead 0x25#8).toNat = s.meas.accPeriod.toNat ∧
    (s.regRead 0x26#8).toNat = s.meas.accDuty.toNat ∧
    (s.regRead 0x27#8).toNat = s.meas.accEdges.toNat ∧
    (s.regRead 0x28#8).toNat = s.meas.winTicks.toNat ∧
    (s.regRead 0x29#8).toNat = s.meas.zeroTicks.toNat ∧
    (s.regRead 0x00#8).toNat % 2 =
      (match s.ctrl.opmode with | .generator => 0 | .counter => 1) ∧
    (s.regRead 0x00#8).toNat / 2 % 2 = (if s.ctrl.genEn then 1 else 0) ∧
    (s.regRead 0x00#8).toNat / 4 % 4 =
      (match s.ctrl.gateSel with | .g0_1s => 0 | .g1s => 1 | .g5s => 2 | .g10s => 3) ∧
    (s.regRead 0x00#8).toNat / 16 =
      (match s.ctrl.threshSel with
        | .alwaysGated => 0 | .t1k => 1 | .t10k => 2 | .t100k => 3 | .t1M => 4) ∧
    (s.regRead 0x18#8).toNat =
      (match s.plan.outMode with
        | .staticLow => 0 | .staticHigh => 1 | .directClk => 2 | .pwm => 3) ∧
    (s.regRead 0x22#8).toNat % 2 = (match s.meas.mmode with | .gated => 0 | .direct => 1)

/-- R211, R63: `RD` of a mapped index shows the register on the read port and changes no register; `RD`
of an unmapped index sets `STATUS.ILLEGAL` and shows 0. That `exec` of such an ill-formed `rd`, which no
word decodes to, does the same is the model's choice (log 12). -/
def Obligations.ReadShowsRegisterAndChangesNone : Prop :=
  ∀ (s : State) (idx : BitVec 8),
    (mappedIndex idx = true →
      decode (0x0A#8 ++ idx.setWidth 56) = .stimulus (.rd idx) ∧
      exec (.rd idx) s = .next { s with readPort := s.regRead idx }) ∧
    (mappedIndex idx = false →
      s.regRead idx = 0 ∧
      (∀ rest : List Word, step { s with trace := (0x0A#8 ++ idx.setWidth 56) :: rest } =
        .next { s with trace := rest, readPort := 0, illegal := true }) ∧
      exec (.rd idx) s = .next { s with readPort := 0, illegal := true })

/-- R210: `NOP` changes nothing; it is the all-zero word, and with a nonzero `ARG` the word is an
illegal host word. -/
def Obligations.NopChangesNothing : Prop :=
  (∀ s : State, exec .nop s = .next s) ∧ decode 0#64 = .stimulus .nop ∧
  ∀ a : BitVec 56, a ≠ 0 → decode (0x00#8 ++ a) = .illegalHostWord

/-- R110: `CRYSTAL_REF = 12_000_000_000 + TRIM`, in its range; R112, R113: `GATE_TICKS` is its quotient
by the gate multiplier; both are exposed for reading. -/
def Obligations.CrystalRefAndGateTicks : Prop :=
  ∀ s : State, s.SettingsInRange →
    (s.crystalRef : Int) = 12000000000 + s.trim.toInt ∧
    (s.regRead 0x04#8).toNat = s.crystalRef ∧ (s.regRead 0x05#8).toNat = s.gateTicks ∧
    11900000001 ≤ s.crystalRef ∧ s.crystalRef ≤ 12099999999 ∧
    (s.ctrl.gateSel = .g0_1s → s.gateTicks = s.crystalRef / 10000) ∧
    (s.ctrl.gateSel = .g1s → s.gateTicks = s.crystalRef / 1000) ∧
    (s.ctrl.gateSel = .g5s → s.gateTicks = s.crystalRef / 200) ∧
    (s.ctrl.gateSel = .g10s → s.gateTicks = s.crystalRef / 100)

/-! ## The synthesizer -/

/-- R122: the output divider is the smallest power of two that lifts the target to the floor, and the
PLL frequency is below twice the floor when the divider is above 1; at most `2^34` for the declared
frequencies. It is the output divider of every plan, whatever the duty and the reference. -/
def Obligations.OutputDividerIsSmallestPowerOfTwo : Prop :=
  ∀ P f : Nat, 1 ≤ P → P ≤ 1000000000000 → 1 ≤ f →
    ∃ k, outDivider P f = 2 ^ k ∧ P ≤ f * 2 ^ k ∧ (∀ j, j < k → f * 2 ^ j < P) ∧
      (1 < outDivider P f → f * outDivider P f < 2 * P) ∧
      (100 ≤ f → outDivider P f ≤ 2 ^ 34) ∧
      ∀ d c : Nat, (synthesize P f d c).outDiv = outDivider P f

/-- R125: `ref` and `step` of every candidate lie in the stated bounds, so no division is by 0. -/
def Obligations.CandidateReferenceAndStepBounds : Prop :=
  ∀ T c rd : Nat, 11900000001 ≤ c → c ≤ 12099999999 → rd ∈ refDividers →
    (candidate T c rd).ref = c / rd ∧ (candidate T c rd).step = c / rd / 16 ∧
    c / rd / 16 = c / (16 * rd) ∧
    31818181 ≤ c / rd ∧ c / rd ≤ 1512499999 ∧
    1988636 ≤ c / rd / 16 ∧ c / rd / 16 ≤ 94531249

/-- R124, R126, R127: over the even dividers 8 to 374 the winner has the least error, the smaller of
residual and complement, and among equals it is the one tried first; it rounds up exactly when the
complement is strictly smaller. -/
def Obligations.SearchFindsFirstLeastError : Prop :=
  ∀ T c : Nat,
    let err := fun rd : Nat => min (T % (c / rd / 16)) (c / rd / 16 - T % (c / rd / 16))
    let w := winner T c
    8 ≤ w.rd ∧ w.rd ≤ 374 ∧ w.rd % 2 = 0 ∧ w.ref = c / w.rd ∧ w.step = c / w.rd / 16 ∧
    w.err = err w.rd ∧
    (w.up = true ↔ w.step - T % w.step < T % w.step) ∧
    ∀ rd, 8 ≤ rd → rd ≤ 374 → rd % 2 = 0 →
      w.err ≤ err rd ∧ (rd < w.rd → w.err < err rd)

/-- R128: the search always yields a winner, the first candidate becoming the best in any case, and the
winner's error is at most half its own step. -/
def Obligations.SearchAlwaysYieldsWinner : Prop :=
  ∀ T c : Nat, 11900000001 ≤ c → c ≤ 12099999999 →
    refDividers.head? = some 8 ∧ better none (candidate T c 8) = candidate T c 8 ∧
    searchFrom T c none refDividers = some (winner T c) ∧
    2 * (winner T c).err ≤ (winner T c).step

/-- R129, R130, R132: the PLL divisor of the winner, its split, and the achieved frequency. -/
def Obligations.PlanFollowsWinner : Prop :=
  ∀ P f d c : Nat,
    let p := synthesize P f d c
    let T := f * p.outDiv
    let w := winner T c
    p.refDiv = w.rd ∧ 16 * p.pint + p.pfrac = T / w.step + w.up.toNat ∧ p.pfrac < 16 ∧
    p.achFreq = (w.ref * p.pint + w.ref * p.pfrac / 16) / p.outDiv

/-- R131: no range check is applied to the integer ratio, which is 0 for this target at every floor up
to it. -/
def Obligations.IntegerRatioCanBeZero : Prop :=
  ∀ P d : Nat, 1 ≤ P → P ≤ 1031250000 →
    (synthesize P 1031250000 d 12000000000).pint = 0 ∧
    (synthesize P 1031250000 d 12000000000).pfrac = 11 ∧
    (synthesize P 1031250000 d 12000000000).refDiv = 8

/-- The property of spec/95_test_vectors.md S1: the achieved frequency is within one PLL fractional
step of the target, scaled by the output divider, up to the last floor. -/
def Obligations.AchievedFrequencyWithinOneStep : Prop :=
  ∀ P f d c : Nat, 1 ≤ P → P ≤ 1000000000000 → 100 ≤ f → f ≤ 105000000000 →
    11900000001 ≤ c → c ≤ 12099999999 →
    let p := synthesize P f d c
    let step := c / p.refDiv / 16
    p.outDiv * p.achFreq ≤ f * p.outDiv + step ∧
    f * p.outDiv < p.outDiv * p.achFreq + step + p.outDiv

/-- R133: on the direct path the duty is 0, 5000 or 10000 by strict thresholds at 3333 and 6666, the
divider is the output divider and the timer is unused. -/
def Obligations.DirectPathDutyClasses : Prop :=
  ∀ od d : Nat, od ≤ 2 →
    (outStage od d).hwDiv = od ∧ (outStage od d).presc = 0 ∧ (outStage od d).period = 0 ∧
    (outStage od d).compare = 0 ∧
    (d < 3333 → (outStage od d).achDuty = 0) ∧
    (6666 < d → (outStage od d).achDuty = 10000) ∧
    (3333 ≤ d → d ≤ 6666 → (outStage od d).achDuty = 5000)

/-- R134: on the PWM path the timer does the whole division with the least power-of-two prescaler that
brings the period below `2^24`. -/
def Obligations.PwmPrescalerAndPeriod : Prop :=
  ∀ k d : Nat, 2 ≤ k → k ≤ 34 →
    (outStage (2 ^ k) d).hwDiv = 1 ∧
    ∃ j m, (outStage (2 ^ k) d).presc = 2 ^ j ∧ (outStage (2 ^ k) d).period = 2 ^ m ∧
      j + m = k ∧ 2 ≤ m ∧ m ≤ 23 ∧ (j = 0 ∨ m = 23)

/-- R135: the compare value is the nearest number of timer ticks to the duty, halves up, and never above
the period. -/
def Obligations.PwmCompareIsNearest : Prop :=
  ∀ k d : Nat, 2 ≤ k → k ≤ 34 → d ≤ 10000 →
    let g := outStage (2 ^ k) d
    g.compare = (d * g.period + 5000) / 10000 ∧ g.compare ≤ g.period ∧
    20000 * g.compare ≤ 2 * (d * g.period) + 10000 ∧
    2 * (d * g.period) + 10000 < 20000 * (g.compare + 1)

/-- R136: the achieved duty is what the compare value comes to, rounded to nearest with halves up, and it
is within one timer tick of the target (also spec/95_test_vectors.md S3). -/
def Obligations.PwmDutyWithinOneTick : Prop :=
  ∀ k d : Nat, 2 ≤ k → k ≤ 34 → d ≤ 10000 →
    let g := outStage (2 ^ k) d
    g.achDuty = (g.compare * 10000 + g.period / 2) / g.period ∧
    2 * g.period * g.achDuty ≤ 2 * (g.compare * 10000) + g.period ∧
    2 * (g.compare * 10000) + g.period < 2 * g.period * (g.achDuty + 1) ∧
    g.achDuty * g.period ≤ d * g.period + 10000 ∧ d * g.period ≤ g.achDuty * g.period + 10000

/-- R137: the pin is driven statically exactly when the quantized duty is 0 or full, on either path; a
target of 0 always holds it low and a target of 10000 always high. The duty decides nothing but the
output stage: every other plan field is the same whatever the target duty. -/
def Obligations.StaticDriveAtDegenerateDuty : Prop :=
  (∀ od d : Nat, od ≤ 2 →
    ((outStage od d).outMode = .staticLow ↔ (outStage od d).achDuty = 0) ∧
    ((outStage od d).outMode = .staticHigh ↔ (outStage od d).achDuty = 10000) ∧
    ((outStage od d).outMode = .directClk ↔ (outStage od d).achDuty = 5000)) ∧
  (∀ k d : Nat, 2 ≤ k → k ≤ 34 → d ≤ 10000 →
    let g := outStage (2 ^ k) d
    (g.outMode = .staticLow ↔ g.compare = 0) ∧ (g.compare = 0 ↔ g.achDuty = 0) ∧
    (g.outMode = .staticHigh ↔ g.compare = g.period) ∧ (g.compare = g.period ↔ g.achDuty = 10000) ∧
    (g.outMode = .pwm ↔ 0 < g.compare ∧ g.compare < g.period)) ∧
  (∀ k : Nat, k ≤ 34 →
    (outStage (2 ^ k) 0).outMode = .staticLow ∧ (outStage (2 ^ k) 10000).outMode = .staticHigh) ∧
  ∀ P f d d' c : Nat,
    synthesize P f d c =
      { synthesize P f d' c with stage := outStage (synthesize P f d' c).outDiv d }

/-- R35, R242: whenever the plan is current, the output stage divides the PLL clock by the output
divider in all, and the pin is held low when the generator is off or does not own the PLL. -/
def Obligations.OutputStageDividesByOutputDivider : Prop :=
  ∀ s : State, s.SettingsInRange → s.PlanCurrent →
    (s.ctrl.opmode = .generator ∧ s.ctrl.genEn = true →
      (s.plan.outDiv.toNat ≤ 2 → s.plan.hwDiv.toNat = s.plan.outDiv.toNat) ∧
      (2 < s.plan.outDiv.toNat → s.plan.hwDiv.toNat = 1 ∧
        s.plan.hwDiv.toNat * s.plan.presc.toNat * s.plan.period.toNat = s.plan.outDiv.toNat)) ∧
    (s.ctrl.opmode = .counter ∨ s.ctrl.genEn = false →
      s.plan.hwDiv = 0 ∧ s.clockLines.pin = .low)

/-- R139: every result of the synthesizer fits its register. -/
def Obligations.SynthesisFitsRegisters : Prop :=
  ∀ P f d c : Nat, 1 ≤ P → P ≤ 1000000000000 → 100 ≤ f → f ≤ 105000000000 → d ≤ 10000 →
    11900000001 ≤ c → c ≤ 12099999999 →
    let p := synthesize P f d c
    (∃ r : Plan, r.raw = p) ∧
    f * p.outDiv < 2 * 10 ^ 12 ∧ 16 * p.pint + p.pfrac ≤ f * p.outDiv / 1988636 + 1 ∧
    16 * p.pint + p.pfrac < 2 ^ 20 ∧ p.pint < 2 ^ 16 ∧
    p.outDiv ≤ 2 ^ 34 ∧ p.stage.presc ≤ 2 ^ 11 ∧ p.stage.period < 2 ^ 24 ∧ p.achFreq < 2 ^ 37 ∧
    (P ≤ 52500000000 → f * p.outDiv ≤ 105000000000 ∧ p.pint ≤ 3300)

/-- R144: the worked example of the whole function, its candidates and its plan, at both floors it is
worked for. -/
def Obligations.OneMegahertzScenario : Prop :=
  candidate 1000000000 12000000000 8 = ⟨8, 1500000000, 93750000, 31250000, true⟩ ∧
  candidate 1000000000 12000000000 10 = ⟨10, 1200000000, 75000000, 25000000, false⟩ ∧
  candidate 1000000000 12000000000 12 = ⟨12, 1000000000, 62500000, 0, false⟩ ∧
  candidate 64000000000 12000000000 12 = ⟨12, 1000000000, 62500000, 0, false⟩ ∧
  synthesize 1000000000 1000000000 5000 12000000000 =
    { refDiv := 12, pint := 1, pfrac := 0, outDiv := 1
      stage := { hwDiv := 1, presc := 0, period := 0, compare := 0
                 outMode := .directClk, achDuty := 5000 }
      achFreq := 1000000000 } ∧
  synthesize 48000000000 1000000000 5000 12000000000 =
    { refDiv := 12, pint := 64, pfrac := 0, outDiv := 64
      stage := { hwDiv := 1, presc := 1, period := 64, compare := 32
                 outMode := .pwm, achDuty := 5000 }
      achFreq := 1000000000 }

/-! ## Host commands -/

/-- R201: `SET_FREQ` stores the clamped frequency; in Generator mode the plan follows, in Counter mode
it stays. Nothing else changes. -/
def Obligations.SetFreqStoresClampedFrequency : Prop :=
  ∀ (s : State) (v : Arg), s.SettingsInRange →
    decode (0x01#8 ++ v) = .stimulus (.setFreq v) ∧
    ∃ (f : BitVec 37) (p : Plan), f.toNat = max 100 (min v.toNat 105000000000) ∧
      exec (.setFreq v) s = .next { s with freqSet := f, plan := p } ∧
      (s.ctrl.opmode = .generator → State.PlanFor { s with freqSet := f } p) ∧
      (s.ctrl.opmode = .counter → p = s.plan)

/-- R202: `SET_DUTY` stores the clamped duty; the plan follows in Generator mode. Nothing else
changes. -/
def Obligations.SetDutyStoresClampedDuty : Prop :=
  ∀ (s : State) (v : Arg), s.SettingsInRange →
    decode (0x02#8 ++ v) = .stimulus (.setDuty v) ∧
    ∃ (d : BitVec 14) (p : Plan), d.toNat = min v.toNat 10000 ∧
      exec (.setDuty v) s = .next { s with dutySet := d, plan := p } ∧
      (s.ctrl.opmode = .generator → State.PlanFor { s with dutySet := d } p) ∧
      (s.ctrl.opmode = .counter → p = s.plan)

/-- R203: `SET_TRIM` stores the clamped trim; the plan follows in Generator mode, the measurement
restarts in Counter mode. Nothing else changes. -/
def Obligations.SetTrimStoresClampedTrim : Prop :=
  ∀ (s : State) (v : Arg), s.SettingsInRange →
    decode (0x03#8 ++ v) = .stimulus (.setTrim v) ∧
    ∃ t : BitVec 28, t.toInt = max (-99999999) (min v.toInt 99999999) ∧
      (s.ctrl.opmode = .generator →
        ∃ p, State.PlanFor { s with trim := t } p ∧
          exec (.setTrim v) s = .next { s with trim := t, plan := p }) ∧
      (s.ctrl.opmode = .counter →
        exec (.setTrim v) s = .next { s with trim := t, meas := Meas.reset })

/-- R208: `TRIM_STEP` adds or subtracts `10^cursor` exactly and then clamps; what follows is as for
`SET_TRIM`. Nothing else changes. -/
def Obligations.TrimStepClampsAfterExactSum : Prop :=
  ∀ (s : State) (cursor : BitVec 3) (dir : TrimDir), s.SettingsInRange →
    decode (0x08#8 ++ (dir.bit ++ cursor).setWidth 56) = .stimulus (.trimStep cursor dir) ∧
    (∀ a : BitVec 56, 15 < a.toNat → decode (0x08#8 ++ a) = .illegalHostWord) ∧
    decode 0x0800000000000003#64 = .stimulus (.trimStep 3#3 .up) ∧
    decode 0x080000000000000B#64 = .stimulus (.trimStep 3#3 .down) ∧
    ∃ t : BitVec 28,
      (dir = .up → t.toInt = max (-99999999) (min (s.trim.toInt + 10 ^ cursor.toNat) 99999999)) ∧
      (dir = .down → t.toInt = max (-99999999) (min (s.trim.toInt - 10 ^ cursor.toNat) 99999999)) ∧
      (s.ctrl.opmode = .generator →
        ∃ p, State.PlanFor { s with trim := t } p ∧
          exec (.trimStep cursor dir) s = .next { s with trim := t, plan := p }) ∧
      (s.ctrl.opmode = .counter →
        exec (.trimStep cursor dir) s = .next { s with trim := t, meas := Meas.reset })

/-- R204, R205: `SET_GATE` and `SET_THRESH` store the selector, by its code; in Counter mode the
measurement restarts. The plan does not depend on them; nothing else changes. A larger argument is
illegal. -/
def Obligations.SetGateAndThreshRestartMeasurement : Prop :=
  (∀ a : BitVec 56, 3 < a.toNat → decode (0x04#8 ++ a) = .illegalHostWord) ∧
  (∀ a : BitVec 56, 4 < a.toNat → decode (0x05#8 ++ a) = .illegalHostWord) ∧
  decode 0x0400000000000000#64 = .stimulus (.setGate .g0_1s) ∧
  decode 0x0400000000000001#64 = .stimulus (.setGate .g1s) ∧
  decode 0x0400000000000002#64 = .stimulus (.setGate .g5s) ∧
  decode 0x0400000000000003#64 = .stimulus (.setGate .g10s) ∧
  decode 0x0500000000000000#64 = .stimulus (.setThresh .alwaysGated) ∧
  decode 0x0500000000000001#64 = .stimulus (.setThresh .t1k) ∧
  decode 0x0500000000000002#64 = .stimulus (.setThresh .t10k) ∧
  decode 0x0500000000000003#64 = .stimulus (.setThresh .t100k) ∧
  decode 0x0500000000000004#64 = .stimulus (.setThresh .t1M) ∧
  ∀ s : State,
    (∀ g : GateTime,
      decode (0x04#8 ++ g.code.setWidth 56) = .stimulus (.setGate g) ∧
      (s.ctrl.opmode = .generator →
        exec (.setGate g) s = .next { s with ctrl := { s.ctrl with gateSel := g } }) ∧
      (s.ctrl.opmode = .counter →
        exec (.setGate g) s =
          .next { s with ctrl := { s.ctrl with gateSel := g }, meas := Meas.reset })) ∧
    ∀ t : DirectThreshold,
      decode (0x05#8 ++ t.code.setWidth 56) = .stimulus (.setThresh t) ∧
      (s.ctrl.opmode = .generator →
        exec (.setThresh t) s = .next { s with ctrl := { s.ctrl with threshSel := t } }) ∧
      (s.ctrl.opmode = .counter →
        exec (.setThresh t) s =
          .next { s with ctrl := { s.ctrl with threshSel := t }, meas := Meas.reset })

/-- R206: `SET_GEN` turns the output on or off; in Generator mode the plan follows and is the OFF plan
when off. Nothing else changes. -/
def Obligations.SetGenTurnsOutputOnAndOff : Prop :=
  ∀ (s : State) (on : Bool), s.SettingsInRange →
    decode (0x06#8 ++ (BitVec.ofBool on).setWidth 56) = .stimulus (.setGen on) ∧
    (∀ a : BitVec 56, 1 < a.toNat → decode (0x06#8 ++ a) = .illegalHostWord) ∧
    ∃ p : Plan,
      exec (.setGen on) s = .next { s with ctrl := { s.ctrl with genEn := on }, plan := p } ∧
      (s.ctrl.opmode = .generator →
        State.PlanFor { s with ctrl := { s.ctrl with genEn := on } } p ∧
        (on = false → p = Plan.reset)) ∧
      (s.ctrl.opmode = .counter → p = s.plan)

/-- R207: `SET_MODE` tears the previous owner down and sets the new one up in one step: the measurement
is started, and the plan is the settings' in Generator mode and the OFF plan in Counter mode. -/
def Obligations.SetModeTearsDownAndSetsUp : Prop :=
  ∀ (s : State) (m : OpMode), s.SettingsInRange →
    decode (0x07#8 ++ m.code.setWidth 56) = .stimulus (.setMode m) ∧
    decode 0x0700000000000000#64 = .stimulus (.setMode .generator) ∧
    decode 0x0700000000000001#64 = .stimulus (.setMode .counter) ∧
    (∀ a : BitVec 56, 1 < a.toNat → decode (0x07#8 ++ a) = .illegalHostWord) ∧
    ∃ p : Plan,
      exec (.setMode m) s =
        .next { s with ctrl := { s.ctrl with opmode := m }, plan := p, meas := Meas.reset } ∧
      State.PlanFor { s with ctrl := { s.ctrl with opmode := m } } p

/-- R207, its closing example and its same-mode clause: going to Counter mode and back restores every
register, and `SET_MODE 0` in Generator mode leaves every register as it was. -/
def Obligations.ModeRoundTripRestoresState : Prop :=
  ∀ s : State, s.Inv → s.ctrl.opmode = .generator →
    exec (.setMode .generator) s = .next s ∧
    ∃ t, exec (.setMode .counter) s = .next t ∧ t.plan = Plan.reset ∧
      exec (.setMode .generator) t = .next s

/-- R140: in Counter mode `SYNTH` does nothing; in Generator mode it recomputes the plan, which changes
no register when the plan is current. -/
def Obligations.SynthRecomputesPlan : Prop :=
  decode 0x0900000000000000#64 = .stimulus .synth ∧
  (∀ a : BitVec 56, a ≠ 0 → decode (0x09#8 ++ a) = .illegalHostWord) ∧
  ∀ s : State, s.SettingsInRange →
    (s.ctrl.opmode = .counter → exec .synth s = .next s) ∧
    (s.ctrl.opmode = .generator →
      ∃ p, s.PlanFor p ∧ exec .synth s = .next { s with plan := p }) ∧
    (s.PlanCurrent → exec .synth s = .next s)

/-! ## The measurement engine -/

/-- R151: in Counter and Gated mode an edge adds exactly one to `GATE_COUNT + GATE_OVF * 2^24`, the
count wrapping at `2^24`. Nothing else changes. Anywhere else the event is ignored. The step whose tally
would not fit is outside the spec (R14); that it is refused is the model's choice, after
spec/93_implementation_defined.md U1 (log 6). -/
def Obligations.EdgeIsCountedOnce : Prop :=
  decode 0x8000000000000000#64 = .stimulus .evEdge ∧
  (∀ s : State, ¬ (s.ctrl.opmode = .counter ∧ s.meas.mmode = .gated) → exec .evEdge s = .next s) ∧
  ∀ s : State, s.ctrl.opmode = .counter → s.meas.mmode = .gated →
    (s.meas.gateCount.toNat + 1 < 2 ^ 24 →
      exec .evEdge s =
        .next { s with meas := { s.meas with gateCount := s.meas.gateCount + 1 } }) ∧
    (s.meas.gateCount.toNat + 1 = 2 ^ 24 → s.meas.gateOvf.toNat + 1 < 2 ^ 16 →
      exec .evEdge s =
        .next { s with meas := { s.meas with gateCount := 0, gateOvf := s.meas.gateOvf + 1 } }) ∧
    (s.meas.gateCount.toNat + 1 = 2 ^ 24 → s.meas.gateOvf.toNat + 1 = 2 ^ 16 →
      exec .evEdge s = .refused .resultMisfit)

/-- R256, R68: `n` edges and the gate's close lose none and count none twice: the raw frequency at the
close is the exact number of edges times the multiplier. -/
def Obligations.NoEdgeLostInAGate : Prop :=
  ∀ (n : Nat) (s : State), s.ctrl.opmode = .counter → s.meas.mmode = .gated →
    s.meas.gateCount.toNat + s.meas.gateOvf.toNat * 2 ^ 24 + n < 2 ^ 40 →
    ∃ t u : State, runInstrs (List.replicate n .evEdge) s = .next t ∧
      t.meas.gateCount.toNat + t.meas.gateOvf.toNat * 2 ^ 24 =
        s.meas.gateCount.toNat + s.meas.gateOvf.toNat * 2 ^ 24 + n ∧
      t = { s with meas := { s.meas with
              gateCount := t.meas.gateCount, gateOvf := t.meas.gateOvf } } ∧
      runInstrs (Pseudo.gate n).expand s = .next u ∧
      u.meas.freq.toNat = smooth s.meas.freq.toNat
        ((s.meas.gateCount.toNat + s.meas.gateOvf.toNat * 2 ^ 24 + n) * gateMult s.ctrl.gateSel) ∧
      u.meas.gateCount = 0 ∧ u.meas.gateOvf = 0

/-- R154: a difference above 10000 snaps; otherwise the sample moves an eighth of the difference,
truncated toward zero, so 7/8 of it remains up to the truncation. -/
def Obligations.AsymmetricSmoothing : Prop :=
  ∀ cur raw : Nat,
    (10000 < ((raw : Int) - cur).natAbs → smooth cur raw = raw) ∧
    (((raw : Int) - cur).natAbs ≤ 10000 →
      (smooth cur raw : Int) = cur + Int.tdiv ((raw : Int) - cur) 8 ∧
      ((raw : Int) - smooth cur raw).natAbs =
        ((raw : Int) - cur).natAbs - ((raw : Int) - cur).natAbs / 8)

/-- R152, R153, R155: closing the gate in Counter and Gated mode takes and clears the count, updates
the sample, asserts that there is no duty, and runs the mode cycle on the new sample. Nothing outside
the measurement registers changes. Anywhere else the event is ignored. -/
def Obligations.GateCloseUpdatesSample : Prop :=
  decode 0x8100000000000000#64 = .stimulus .evGateClose ∧
  (∀ s : State, ¬ (s.ctrl.opmode = .counter ∧ s.meas.mmode = .gated) →
    exec .evGateClose s = .next s) ∧
  ∀ s : State, s.ctrl.opmode = .counter → s.meas.mmode = .gated →
    ∃ f : BitVec 64,
      f.toNat = smooth s.meas.freq.toNat
        ((s.meas.gateCount.toNat + s.meas.gateOvf.toNat * 16777216) *
          (match s.ctrl.gateSel with
            | .g0_1s => 10000
            | .g1s => 1000
            | .g5s => 200
            | .g10s => 100)) ∧
      exec .evGateClose s =
        .next { s with meas :=
          (Meas.modeCycle (s.params.pair s.ctrl.threshSel)
            { s.meas with
              gateCount := 0, gateOvf := 0, freq := f, duty := 0, dutyValid := false }) }

/-- R157: a capture in Counter and Direct mode adds to the three sums, remembers an overflow for the
window and marks the tick active. Nothing else changes. Anywhere else the event is ignored. -/
def Obligations.CaptureAccumulates : Prop :=
  (∀ (period pulse : BitVec 24) (ovf : Bool),
    decode (0x82#8 ++ (0#7 ++ BitVec.ofBool ovf ++ pulse ++ period)) =
      .stimulus (.evCapture period pulse ovf) ∧
    ∀ s : State, ¬ (s.ctrl.opmode = .counter ∧ s.meas.mmode = .direct) →
      exec (.evCapture period pulse ovf) s = .next s) ∧
  ∀ (s : State) (period pulse : BitVec 24) (ovf : Bool),
    s.ctrl.opmode = .counter → s.meas.mmode = .direct → s.meas.CaptureFits →
    ∃ (p d : BitVec 64) (e : BitVec 32),
      p.toNat = s.meas.accPeriod.toNat + period.toNat ∧
      d.toNat = s.meas.accDuty.toNat + pulse.toNat ∧
      e.toNat = s.meas.accEdges.toNat + 1 ∧
      exec (.evCapture period pulse ovf) s =
        .next { s with meas := { s.meas with
          accPeriod := p, accDuty := d, accEdges := e
          accOvf := s.meas.accOvf || ovf, act := true } }

/-- R158: a reference tick does the grace bookkeeping, which sets `STALE` when `ZERO_TICKS` has just
reached 16, and then counts itself; inside a window nothing else changes, and the `W`-th tick starts the
next window and runs the window end on what the bookkeeping left. Anywhere but in Counter and Direct
mode the event is ignored. A window end whose result does not fit is outside the spec (R14); that the
tick is then refused is the model's choice, after spec/93_implementation_defined.md U1 (log 6). -/
def Obligations.ReferenceTickBookkeeping : Prop :=
  decode 0x8300000000000000#64 = .stimulus .evRefTick ∧
  (∀ s : State, ¬ (s.ctrl.opmode = .counter ∧ s.meas.mmode = .direct) →
    exec .evRefTick s = .next s) ∧
  ∀ s : State, s.ctrl.opmode = .counter → s.meas.mmode = .direct →
    ∃ (z : BitVec 5) (m : Meas),
      z.toNat = (if s.meas.act then 0 else min (s.meas.zeroTicks.toNat + 1) 16) ∧
      m = { s.meas with
            zeroTicks := z, act := false, stale := s.meas.stale || decide (z.toNat = 16) } ∧
      (s.meas.winTicks.toNat + 1 < s.params.W →
        ∃ n : BitVec 32, n.toNat = s.meas.winTicks.toNat + 1 ∧
          exec .evRefTick s = .next { s with meas := { m with winTicks := n } }) ∧
      (s.meas.winTicks.toNat + 1 = s.params.W →
        exec .evRefTick s =
          match Meas.windowEnd s.crystalRef (s.params.pair s.ctrl.threshSel)
              { m with winTicks := 0 } with
          | some m' => .next { s with meas := m' }
          | none => .refused .resultMisfit)

/-- R158, R160, R161: the last tick of a window recomputes the sample when the window has an edge and a
period, and keeps it otherwise; the duty is valid only without a capture overflow; the accumulators are
taken and the mode cycle runs. Nothing outside the measurement registers changes. -/
def Obligations.WindowEndRecomputesSample : Prop :=
  ∀ s : State, s.ctrl.opmode = .counter → s.meas.mmode = .direct →
    s.meas.winTicks.toNat + 1 = s.params.W → s.meas.WindowFits →
    ∃ (z : BitVec 5) (f d : BitVec 64) (v st : Bool),
      z.toNat = (if s.meas.act then 0 else min (s.meas.zeroTicks.toNat + 1) 16) ∧
      (0 < s.meas.accEdges.toNat ∧ 0 < s.meas.accPeriod.toNat →
        f.toNat = s.crystalRef * s.meas.accEdges.toNat / s.meas.accPeriod.toNat ∧
        (s.meas.accOvf = false →
          d.toNat = s.meas.accDuty.toNat * 10000 / s.meas.accPeriod.toNat ∧ v = true) ∧
        (s.meas.accOvf = true → d = 0 ∧ v = false) ∧ st = false) ∧
      (¬ (0 < s.meas.accEdges.toNat ∧ 0 < s.meas.accPeriod.toNat) →
        f = s.meas.freq ∧ d = s.meas.duty ∧ v = s.meas.dutyValid ∧
        st = (s.meas.stale || decide (z.toNat = 16))) ∧
      exec .evRefTick s =
        .next { s with meas :=
          (Meas.modeCycle (s.params.pair s.ctrl.threshSel)
            { s.meas with
              zeroTicks := z, act := false, stale := st, winTicks := 0
              freq := f, duty := d, dutyValid := v
              accPeriod := 0, accDuty := 0, accEdges := 0, accOvf := false }) }

/-- R150: an event acts only in its own measurement mode; anywhere else it changes no register. -/
def Obligations.EventsOutsideTheirModeAreIgnored : Prop :=
  ∀ s : State,
    (¬ (s.ctrl.opmode = .counter ∧ s.meas.mmode = .gated) →
      exec .evEdge s = .next s ∧ exec .evGateClose s = .next s) ∧
    (¬ (s.ctrl.opmode = .counter ∧ s.meas.mmode = .direct) →
      exec .evRefTick s = .next s ∧
      ∀ (period pulse : BitVec 24) (ovf : Bool),
        exec (.evCapture period pulse ovf) s = .next s)

/-- R159: capture-free ticks never change the frequency shown, nor the duty while the machine stays in
Direct mode; they count to 16 and then set `STALE`, and that is all. -/
def Obligations.SilenceFreezesSample : Prop :=
  ∀ (n : Nat) (s : State), s.ctrl.opmode = .counter → s.meas.mmode = .direct →
    s.meas.act = false → s.meas.accEdges = 0 → s.meas.winTicks.toNat < s.params.W →
    s.meas.zeroTicks.toNat ≤ 16 →
    ∃ t : State, runInstrs (List.replicate n .evRefTick) s = .next t ∧
      t.meas.freq = s.meas.freq ∧
      (t.meas.mmode = .direct →
        t.meas.duty = s.meas.duty ∧ t.meas.dutyValid = s.meas.dutyValid ∧
        t.meas.zeroTicks.toNat = min (s.meas.zeroTicks.toNat + n) 16 ∧
        t.meas.stale =
          (s.meas.stale || decide (0 < n ∧ 16 ≤ s.meas.zeroTicks.toNat + n)))

/-! ## The mode controller -/

/-- R181, R182, R184, R185: a measurement cycle counts the cool-down down without evaluating, or
evaluates the strict comparisons; a switch sets the cool-down to 3 and clears everything but the
sample. -/
def Obligations.ModeCycleTransitions : Prop :=
  ∀ (pair : ThreshPair) (m : Meas),
    (0 < m.block.toNat → ∃ b : BitVec 2, b.toNat = m.block.toNat - 1 ∧
      m.modeCycle pair = { m with block := b }) ∧
    (m.block = 0 → m.mmode = .gated → m.freq.toNat < pair.lo →
      m.modeCycle pair = { Meas.reset with freq := m.freq, mmode := .direct, block := 3 }) ∧
    (m.block = 0 → m.mmode = .gated → pair.lo ≤ m.freq.toNat → m.modeCycle pair = m) ∧
    (m.block = 0 → m.mmode = .direct → pair.hi < m.freq.toNat →
      m.modeCycle pair = { Meas.reset with freq := m.freq, mmode := .gated, block := 3 }) ∧
    (m.block = 0 → m.mmode = .direct → m.freq.toNat ≤ pair.hi → m.modeCycle pair = m)

/-- R188 items 1: an event switches the mode only at a measurement cycle with the switch-block counter
at 0, and leaves it at 3; from there no switch happens within three measurement cycles, whatever
stimuli come that do not restart the measurement. -/
def Obligations.NeverTwoSwitchesWithinThreeCycles : Prop :=
  (∀ (i : Instr) (s t : State), isEvent i = true → exec i s = .next t →
    t.meas.mmode ≠ s.meas.mmode →
    completesCycle i s = true ∧ s.meas.block = 0 ∧ t.meas.block = 3) ∧
  ∀ (es : List Instr) (s t : State), (∀ i ∈ es, restartsMeasurement i = false) →
    s.meas.block = 3 → runInstrs es s = .next t → cyclesIn es s ≤ 3 →
    t.meas.mmode = s.meas.mmode ∧ t.meas.block.toNat = 3 - cyclesIn es s

/-- R188 item 4: with AlwaysGated selected the machine never leaves Gated, whatever stimuli come that
select no other threshold. -/
def Obligations.AlwaysGatedNeverLeavesGated : Prop :=
  ∀ (es : List Instr) (s t : State), s.ctrl.threshSel = .alwaysGated → s.meas.mmode = .gated →
    (∀ i ∈ es, ∀ u, i = .setThresh u → u = .alwaysGated) → runInstrs es s = .next t →
    t.meas.mmode = .gated ∧ t.ctrl.threshSel = .alwaysGated

/-- R183, R188 items 2 and 3: every admitted threshold pair straddles its nominal value, so no sample
is on both sides of the band; a sample inside the band causes no switch in either mode; a parameter set
outside its constraint cannot be built (spec/93_implementation_defined.md U6). -/
def Obligations.HysteresisBandIsProper : Prop :=
  (∀ (p : Params) (t : DirectThreshold) (nominal : Nat), t.nominal? = some nominal →
    0 < (p.pair t).lo ∧ (p.pair t).lo < nominal ∧ nominal < (p.pair t).hi ∧
    (∀ x, ¬ (x < (p.pair t).lo ∧ (p.pair t).hi < x)) ∧
    ∀ m : Meas, (p.pair t).lo ≤ m.freq.toNat → m.freq.toNat ≤ (p.pair t).hi →
      (m.modeCycle (p.pair t)).mmode = m.mmode) ∧
  (∀ p : Params, (p.pair .alwaysGated).lo = 0) ∧
  ∀ r : RawParams, (Params.ofRaw? r).isSome = true ↔ r.Admitted

/-! ## Reset and the whole machine -/

/-- R250: after `RESET` every register holds its reset value, whatever the state before it. The read
port shows some value (`∃ v`: the model's free value, log 3); the model's parameters and the waiting
stimuli are not FSME's registers. `RESET` cannot come through the command port, and nothing else clears
`STATUS.ILLEGAL`. -/
def Obligations.ResetWritesEveryRegister : Prop :=
  decode 0xFF00000000000000#64 = .stimulus .reset ∧
  (∀ p : BitVec 63, decode (hostWord p) ≠ .stimulus .reset) ∧
  (∀ (i : Instr) (s t : State), exec i s = .next t → s.illegal = true → t.illegal = false →
    i = .reset) ∧
  ∀ s : State, ∃ (v : Word) (n : Nat), exec .reset s =
    .next
      { params := s.params
        ctrl := { opmode := .generator, genEn := false, gateSel := .g0_1s
                  threshSel := .alwaysGated }
        freqSet := 100, dutySet := 0, trim := 0, illegal := false
        plan := { refDiv := 0, pint := 0, pfrac := 0, outDiv := 0, hwDiv := 0, presc := 0
                  period := 0, compare := 0, outMode := .staticLow, achFreq := 0, achDuty := 0 }
        meas := { freq := 0, duty := 0, mmode := .gated, block := 0, stale := false
                  dutyValid := false, act := false, accOvf := false, gateCount := 0, gateOvf := 0
                  accPeriod := 0, accDuty := 0, accEdges := 0, winTicks := 0, zeroTicks := 0 }
        readPort := v, freeCount := n, trace := s.trace }

/-- R50, R252: the invariants hold in the reset state. -/
def Obligations.ResetStateMeetsInvariants : Prop := State.reset.Inv

/-- R50, R252: every step keeps the invariants, from every state that meets them, not only from those a
run reaches. -/
def Obligations.StepKeepsInvariants : Prop :=
  ∀ s t : State, s.Inv → step s = .next t → t.Inv

/-- R262 under the obligations of R258: every well-formed stimulus completes from every state that meets
the invariants. -/
def Obligations.EveryStimulusCompletesUnderObligations : Prop :=
  ∀ (i : Instr) (s : State), s.Inv →
    (i = .evEdge → s.meas.mmode = .gated → s.meas.EdgeFits) →
    (i.opcode = .evCapture → s.meas.mmode = .direct → s.meas.CaptureFits) →
    (i = .evRefTick → s.meas.mmode = .direct → s.meas.winTicks.toNat + 1 = s.params.W →
      s.meas.WindowFits) →
    ∃ t, exec i s = .next t

/-- The "written by" column of R23 and the table of R47, register by register and flag by flag: each
changes only by the stimuli listed for it, `RESET` aside. A reinitialisation is a restart of the
measurement or a switch of the measurement mode (R184 to R186). Nothing but `RD` changes the read port; no
stimulus changes the parameters or the waiting stimuli. `ILLEGAL` changes in a step only by an illegal
host word or `RESET`; that `exec` of an ill-formed `rd` sets it is the model's choice (log 12). -/
def Obligations.RegistersWrittenOnlyByTheirWriters : Prop :=
  (∀ (i : Instr) (s t : State), exec i s = .next t →
    t.params = s.params ∧ t.trace = s.trace ∧
    (i ≠ .reset →
      (t.ctrl.opmode ≠ s.ctrl.opmode → ∃ m, i = .setMode m) ∧
      (t.ctrl.genEn ≠ s.ctrl.genEn → ∃ b, i = .setGen b) ∧
      (t.ctrl.gateSel ≠ s.ctrl.gateSel → ∃ g, i = .setGate g) ∧
      (t.ctrl.threshSel ≠ s.ctrl.threshSel → ∃ u, i = .setThresh u) ∧
      (t.freqSet ≠ s.freqSet → ∃ v, i = .setFreq v) ∧
      (t.dutySet ≠ s.dutySet → ∃ v, i = .setDuty v) ∧
      (t.trim ≠ s.trim → (∃ v, i = .setTrim v) ∨ ∃ c d, i = .trimStep c d) ∧
      (t.plan ≠ s.plan → synthesizes i = true) ∧
      (t.meas.freq ≠ s.meas.freq →
        i = .evGateClose ∨ i = .evRefTick ∨ restartsMeasurement i = true) ∧
      (t.meas.duty ≠ s.meas.duty ∨ t.meas.dutyValid ≠ s.meas.dutyValid →
        i = .evGateClose ∨ i = .evRefTick ∨ reinitializes i s t) ∧
      (t.meas.mmode ≠ s.meas.mmode ∨ t.meas.block ≠ s.meas.block →
        completesCycle i s = true ∨ restartsMeasurement i = true) ∧
      (t.meas.stale ≠ s.meas.stale → i = .evRefTick ∨ reinitializes i s t) ∧
      (t.meas.act ≠ s.meas.act →
        i.opcode = .evCapture ∨ i = .evRefTick ∨ reinitializes i s t) ∧
      (t.meas.accOvf ≠ s.meas.accOvf →
        (∃ period pulse, i = .evCapture period pulse true) ∨ i = .evRefTick ∨
          reinitializes i s t) ∧
      (t.meas.gateCount ≠ s.meas.gateCount ∨ t.meas.gateOvf ≠ s.meas.gateOvf →
        i = .evEdge ∨ i = .evGateClose ∨ reinitializes i s t) ∧
      (t.meas.accPeriod ≠ s.meas.accPeriod ∨ t.meas.accDuty ≠ s.meas.accDuty ∨
          t.meas.accEdges ≠ s.meas.accEdges →
        i.opcode = .evCapture ∨ i = .evRefTick ∨ reinitializes i s t) ∧
      (t.meas.winTicks ≠ s.meas.winTicks ∨ t.meas.zeroTicks ≠ s.meas.zeroTicks →
        i = .evRefTick ∨ reinitializes i s t) ∧
      (t.illegal ≠ s.illegal → ∃ idx, i = .rd idx ∧ mappedIndex idx = false) ∧
      (t.readPort ≠ s.readPort → ∃ idx, i = .rd idx))) ∧
  ∀ s t : State, step s = .next t → t.illegal ≠ s.illegal →
    ∃ (w : Word) (rest : List Word), s.trace = w :: rest ∧
      (decode w = .illegalHostWord ∨ decode w = .stimulus .reset)

/-- R30: `ILLEGAL` is sticky, set by an illegal host word and cleared by `RESET` alone; it reads as bit
0 with 0 above it; and it changes nothing FSME does: with either value every stimulus has the same
outcome but for the flag itself and for what `RD 0x06` shows. -/
def Obligations.IllegalFlagChangesNothing : Prop :=
  (∀ (s : State) (w : Word) (rest : List Word), s.trace = w :: rest →
    decode w = .illegalHostWord → ∃ t, step s = .next t ∧ t.illegal = true) ∧
  (∀ s t : State, step s = .next t → s.illegal = true →
    (∀ w rest, s.trace = w :: rest → decode w ≠ .stimulus .reset) → t.illegal = true) ∧
  (∀ s t : State, exec .reset s = .next t → t.illegal = false) ∧
  (∀ s : State, s.regRead 0x06#8 = if s.illegal then 1 else 0) ∧
  ∀ (i : Instr) (s t : State) (b : Bool), exec i s = .next t →
    ∃ t', exec i { s with illegal := b } = .next t' ∧
      { t' with illegal := t.illegal, readPort := t.readPort } = t ∧
      (i ≠ .rd 0x06#8 → t'.readPort = t.readPort)

/-- R254: every order of the setting commands of the start-up, with `SET_GEN` among them or not, followed
by `SET_MODE`, ends in the same state. -/
def Obligations.StartUpOrderIsIrrelevant : Prop :=
  ∀ (c : StoredSettings) (order : List Instr) (s : State), s.SettingsInRange →
    order.Perm c.commands →
    ∃ t, runInstrs c.startUp s = .next t ∧ runInstrs (order ++ [.setMode c.mode]) s = .next t
end

