-- ==== Sys2Proof/Laws/Arith.lean ====
section
/-! SUPPORT. What the arithmetic of FSME and its operand clamps yield. -/

namespace Sys2Proof.Machine

theorem fit_eq_some_iff {w n : Nat} {v : BitVec w} : fit w n = some v ↔ n < 2 ^ w ∧ v.toNat = n := by
  unfold fit
  split
  · rename_i h
    constructor
    · intro e
      cases e
      exact ⟨h, by simp [Nat.mod_eq_of_lt h]⟩
    · rintro ⟨-, e⟩
      congr 1
      exact BitVec.eq_of_toNat_eq (by simp [Nat.mod_eq_of_lt h, e])
  · rename_i h
    simp [h]

theorem fit_eq_none_iff {w n : Nat} : fit w n = none ↔ 2 ^ w ≤ n := by
  unfold fit
  split <;> simp_all

theorem fit_of_lt {w n : Nat} (h : n < 2 ^ w) : fit w n = some (BitVec.ofNat w n) := by
  simp [fit, h]

theorem clampNat_bounds {v lo hi : Nat} (h : lo ≤ hi) :
    lo ≤ clampNat v lo hi ∧ clampNat v lo hi ≤ hi := by
  unfold clampNat
  omega

theorem clampInt_bounds {v lo hi : Int} (h : lo ≤ hi) :
    lo ≤ clampInt v lo hi ∧ clampInt v lo hi ≤ hi := by
  unfold clampInt
  omega

theorem clampFreq_toNat (v : Arg) :
    (clampFreq v).toNat = max 100 (min v.toNat 105000000000) := by
  have h := clampNat_bounds (v := operandU v) (lo := freqMin) (hi := freqMax) (by decide)
  have hm : freqMax < 2 ^ 37 := by decide
  rw [clampFreq, BitVec.toNat_ofNat, Nat.mod_eq_of_lt (by omega)]
  rfl

theorem clampDuty_toNat (v : Arg) : (clampDuty v).toNat = min v.toNat 10000 := by
  have h := clampNat_bounds (v := operandU v) (lo := 0) (hi := dutyMax) (by decide)
  have hm : dutyMax < 2 ^ 14 := by decide
  rw [clampDuty, BitVec.toNat_ofNat, Nat.mod_eq_of_lt (by omega)]
  simp [clampNat, operandU, dutyMax]

theorem clampTrim_toInt (t : Int) :
    (clampTrim t).toInt = max (-99999999) (min t 99999999) := by
  have h := clampInt_bounds (v := t) (lo := trimMin) (hi := trimMax) (by decide)
  have hlo : trimMin = -99999999 := rfl
  have hhi : trimMax = 99999999 := rfl
  rw [clampTrim, BitVec.toInt_ofInt]
  rw [Int.bmod_eq_of_le (by simp; omega) (by simp; omega)]
  rfl

/-- `CRYSTAL_REF` is the exact sum for every trim the register can hold (R110). -/
theorem crystalRef_eq (t : BitVec 28) : (crystalRef t : Int) = 12000000000 + t.toInt := by
  have h1 := BitVec.le_toInt t
  have hn : (nominalCrystal : Int) = 12000000000 := rfl
  simp only [crystalRef, hn]
  rw [Int.toNat_of_nonneg]
  omega

theorem crystalRef_bounds (t : BitVec 28) :
    11865782272 ≤ crystalRef t ∧ crystalRef t ≤ 12134217727 := by
  have h := crystalRef_eq t
  have h1 := BitVec.le_toInt t
  have h2 := BitVec.toInt_lt (x := t)
  omega

theorem gateMult_pos (g : GateTime) : 0 < gateMult g := by cases g <;> decide

theorem roundDiv_spec (n : Nat) {d : Nat} (h : 0 < d) :
    2 * d * roundDiv n d ≤ 2 * n + d ∧ 2 * n + d < 2 * d * (roundDiv n d + 1) := by
  unfold roundDiv
  refine ⟨Nat.mul_div_le _ _, ?_⟩
  rw [Nat.mul_add, Nat.mul_one]
  exact Nat.lt_mul_div_succ _ (by omega)

end Sys2Proof.Machine
end

