-- ==== Sys2Proof/Laws/Decode.lean ====
section
/-! SUPPORT. The fields of a word built from its fields, and the codes of the enumerations. -/

namespace Sys2Proof

@[simp] theorem opcField_mkWord (o : Opc) (a : Arg) : opcField (mkWord o a) = o := by
  unfold opcField mkWord
  ext i hi
  simp only [BitVec.getElem_extractLsb', BitVec.getLsbD_append]
  rw [if_neg (by omega), Nat.add_sub_cancel_left]
  exact BitVec.getLsbD_eq_getElem hi

@[simp] theorem argField_mkWord (o : Opc) (a : Arg) : argField (mkWord o a) = a := by
  unfold argField mkWord
  ext i hi
  simp only [BitVec.getElem_extractLsb', BitVec.getLsbD_append, Nat.zero_add]
  rw [if_pos hi]
  exact BitVec.getLsbD_eq_getElem hi

/-- A word is its two fields (R80). -/
theorem mkWord_fields (w : Word) : mkWord (opcField w) (argField w) = w := by
  unfold mkWord opcField argField
  ext i hi
  simp only [BitVec.getElem_append, BitVec.getElem_extractLsb', Nat.zero_add]
  split
  · exact BitVec.getLsbD_eq_getElem hi
  · rw [show 56 + (i - 56) = i by omega]
    exact BitVec.getLsbD_eq_getElem hi

/-- The source tag is the top bit of the opcode (R81). -/
theorem srcTag_eq_msb (w : Word) : srcTag w = (opcField w).getLsbD 7 := by
  simp [srcTag, opcField]

@[simp] theorem srcTag_mkWord (o : Opc) (a : Arg) : srcTag (mkWord o a) = o.getLsbD 7 := by
  rw [srcTag_eq_msb, opcField_mkWord]

@[simp] theorem Opcode.ofCode?_code (op : Opcode) : Opcode.ofCode? op.code = some op := by
  cases op <;> decide

theorem Opcode.code_of_ofCode? {c : Opc} {op : Opcode} (h : Opcode.ofCode? c = some op) :
    op.code = c := by
  have all : ∀ c : Opc, ∀ op ∈ Opcode.ofCode? c, op.code = c := by decide
  exact all c op h

@[simp] theorem opcField_encode (i : Instr) : opcField (encode i) = i.opcode.code :=
  opcField_mkWord _ _

@[simp] theorem argField_encode (i : Instr) : argField (encode i) = i.arg := argField_mkWord _ _

/-- What `decode` answers, by the two lookups of R96. -/
theorem decode_eq_stimulus_iff {w : Word} {i : Instr} :
    decode w = .stimulus i ↔
      ∃ op, Opcode.ofCode? (opcField w) = some op ∧ assemble op (argField w) = some i := by
  unfold decode rejected
  constructor
  · intro h
    split at h
    · split at h <;> cases h
    · rename_i op ho
      split at h
      · split at h <;> cases h
      · rename_i ha
        cases h
        exact ⟨op, ho, ha⟩
  · rintro ⟨op, ho, ha⟩
    simp [ho, ha]

/-- A rejected word is illegal exactly when its source tag is 0 (R93, R94). -/
theorem decode_eq_illegal_src {w : Word} (h : decode w = .illegalHostWord) : srcTag w = false := by
  unfold decode rejected at h
  split at h
  · split at h
    · cases h
    · simp_all
  · split at h
    · split at h
      · cases h
      · simp_all
    · cases h

theorem decode_eq_malformed_src {w : Word} (h : decode w = .malformedEventWord) :
    srcTag w = true := by
  unfold decode rejected at h
  split at h
  · split at h
    · assumption
    · cases h
  · split at h
    · split at h
      · assumption
      · cases h
    · cases h

end Sys2Proof
end

