-- ==== Sys2Proof/Laws/State.lean ====
section
/-! SUPPORT. One lemma per field per update of the state, so that no proof unfolds a record update. -/

namespace Sys2Proof.Machine

variable (s : State) (p : Plan) (m : Meas) (c : Ctrl) (b : Bool)

@[simp] theorem State.withPlan_params : (s.withPlan p).params = s.params := rfl
@[simp] theorem State.withPlan_ctrl : (s.withPlan p).ctrl = s.ctrl := rfl
@[simp] theorem State.withPlan_freqSet : (s.withPlan p).freqSet = s.freqSet := rfl
@[simp] theorem State.withPlan_dutySet : (s.withPlan p).dutySet = s.dutySet := rfl
@[simp] theorem State.withPlan_trim : (s.withPlan p).trim = s.trim := rfl
@[simp] theorem State.withPlan_illegal : (s.withPlan p).illegal = s.illegal := rfl
@[simp] theorem State.withPlan_plan : (s.withPlan p).plan = p := rfl
@[simp] theorem State.withPlan_meas : (s.withPlan p).meas = s.meas := rfl
@[simp] theorem State.withPlan_readPort : (s.withPlan p).readPort = s.readPort := rfl
@[simp] theorem State.withPlan_freeCount : (s.withPlan p).freeCount = s.freeCount := rfl
@[simp] theorem State.withPlan_trace : (s.withPlan p).trace = s.trace := rfl
@[simp] theorem State.withPlan_crystalRef : (s.withPlan p).crystalRef = s.crystalRef := rfl
@[simp] theorem State.withPlan_gateTicks : (s.withPlan p).gateTicks = s.gateTicks := rfl
@[simp] theorem State.withPlan_threshPair : (s.withPlan p).threshPair = s.threshPair := rfl

@[simp] theorem State.withMeas_params : (s.withMeas m).params = s.params := rfl
@[simp] theorem State.withMeas_ctrl : (s.withMeas m).ctrl = s.ctrl := rfl
@[simp] theorem State.withMeas_freqSet : (s.withMeas m).freqSet = s.freqSet := rfl
@[simp] theorem State.withMeas_dutySet : (s.withMeas m).dutySet = s.dutySet := rfl
@[simp] theorem State.withMeas_trim : (s.withMeas m).trim = s.trim := rfl
@[simp] theorem State.withMeas_illegal : (s.withMeas m).illegal = s.illegal := rfl
@[simp] theorem State.withMeas_plan : (s.withMeas m).plan = s.plan := rfl
@[simp] theorem State.withMeas_meas : (s.withMeas m).meas = m := rfl
@[simp] theorem State.withMeas_readPort : (s.withMeas m).readPort = s.readPort := rfl
@[simp] theorem State.withMeas_freeCount : (s.withMeas m).freeCount = s.freeCount := rfl
@[simp] theorem State.withMeas_trace : (s.withMeas m).trace = s.trace := rfl
@[simp] theorem State.withMeas_crystalRef : (s.withMeas m).crystalRef = s.crystalRef := rfl
@[simp] theorem State.withMeas_gateTicks : (s.withMeas m).gateTicks = s.gateTicks := rfl
@[simp] theorem State.withMeas_threshPair : (s.withMeas m).threshPair = s.threshPair := rfl

@[simp] theorem State.withCtrl_params : (s.withCtrl c).params = s.params := rfl
@[simp] theorem State.withCtrl_ctrl : (s.withCtrl c).ctrl = c := rfl
@[simp] theorem State.withCtrl_freqSet : (s.withCtrl c).freqSet = s.freqSet := rfl
@[simp] theorem State.withCtrl_dutySet : (s.withCtrl c).dutySet = s.dutySet := rfl
@[simp] theorem State.withCtrl_trim : (s.withCtrl c).trim = s.trim := rfl
@[simp] theorem State.withCtrl_illegal : (s.withCtrl c).illegal = s.illegal := rfl
@[simp] theorem State.withCtrl_plan : (s.withCtrl c).plan = s.plan := rfl
@[simp] theorem State.withCtrl_meas : (s.withCtrl c).meas = s.meas := rfl
@[simp] theorem State.withCtrl_readPort : (s.withCtrl c).readPort = s.readPort := rfl
@[simp] theorem State.withCtrl_freeCount : (s.withCtrl c).freeCount = s.freeCount := rfl
@[simp] theorem State.withCtrl_trace : (s.withCtrl c).trace = s.trace := rfl
@[simp] theorem State.withCtrl_crystalRef : (s.withCtrl c).crystalRef = s.crystalRef := rfl

@[simp] theorem State.illegalWord_params : (s.illegalWord b).params = s.params := rfl
@[simp] theorem State.illegalWord_ctrl : (s.illegalWord b).ctrl = s.ctrl := rfl
@[simp] theorem State.illegalWord_freqSet : (s.illegalWord b).freqSet = s.freqSet := rfl
@[simp] theorem State.illegalWord_dutySet : (s.illegalWord b).dutySet = s.dutySet := rfl
@[simp] theorem State.illegalWord_trim : (s.illegalWord b).trim = s.trim := rfl
@[simp] theorem State.illegalWord_illegal : (s.illegalWord b).illegal = true := rfl
@[simp] theorem State.illegalWord_plan : (s.illegalWord b).plan = s.plan := rfl
@[simp] theorem State.illegalWord_meas : (s.illegalWord b).meas = s.meas := rfl
@[simp] theorem State.illegalWord_readPort :
    (s.illegalWord b).readPort = if b then 0 else s.readPort := rfl
@[simp] theorem State.illegalWord_freeCount : (s.illegalWord b).freeCount = s.freeCount := rfl
@[simp] theorem State.illegalWord_trace : (s.illegalWord b).trace = s.trace := rfl

/-- `meas_start` writes every measurement register its reset value (R186, R250). -/
@[simp] theorem Meas.start_eq_reset : m.start = Meas.reset := rfl

theorem State.measStart_eq : s.measStart = s.withMeas Meas.reset := rfl

@[simp] theorem offPlan_eq_reset : offPlan = Plan.reset := rfl

@[simp] theorem Meas.accReinit_freq : m.accReinit.freq = m.freq := rfl
@[simp] theorem Meas.accReinit_duty : m.accReinit.duty = 0 := rfl
@[simp] theorem Meas.accReinit_mmode : m.accReinit.mmode = m.mmode := rfl
@[simp] theorem Meas.accReinit_block : m.accReinit.block = m.block := rfl
@[simp] theorem Meas.accReinit_stale : m.accReinit.stale = false := rfl
@[simp] theorem Meas.accReinit_dutyValid : m.accReinit.dutyValid = false := rfl
@[simp] theorem Meas.accReinit_act : m.accReinit.act = false := rfl
@[simp] theorem Meas.accReinit_accOvf : m.accReinit.accOvf = false := rfl
@[simp] theorem Meas.accReinit_gateCount : m.accReinit.gateCount = 0 := rfl
@[simp] theorem Meas.accReinit_gateOvf : m.accReinit.gateOvf = 0 := rfl
@[simp] theorem Meas.accReinit_accPeriod : m.accReinit.accPeriod = 0 := rfl
@[simp] theorem Meas.accReinit_accDuty : m.accReinit.accDuty = 0 := rfl
@[simp] theorem Meas.accReinit_accEdges : m.accReinit.accEdges = 0 := rfl
@[simp] theorem Meas.accReinit_winTicks : m.accReinit.winTicks = 0 := rfl
@[simp] theorem Meas.accReinit_zeroTicks : m.accReinit.zeroTicks = 0 := rfl

variable (mode : MeasMode)

@[simp] theorem Meas.switchTo_freq : (m.switchTo mode).freq = m.freq := rfl
@[simp] theorem Meas.switchTo_duty : (m.switchTo mode).duty = 0 := rfl
@[simp] theorem Meas.switchTo_mmode : (m.switchTo mode).mmode = mode := rfl
@[simp] theorem Meas.switchTo_block : (m.switchTo mode).block = 3 := rfl
@[simp] theorem Meas.switchTo_stale : (m.switchTo mode).stale = false := rfl
@[simp] theorem Meas.switchTo_dutyValid : (m.switchTo mode).dutyValid = false := rfl
@[simp] theorem Meas.switchTo_act : (m.switchTo mode).act = false := rfl
@[simp] theorem Meas.switchTo_accOvf : (m.switchTo mode).accOvf = false := rfl
@[simp] theorem Meas.switchTo_gateCount : (m.switchTo mode).gateCount = 0 := rfl
@[simp] theorem Meas.switchTo_gateOvf : (m.switchTo mode).gateOvf = 0 := rfl
@[simp] theorem Meas.switchTo_accPeriod : (m.switchTo mode).accPeriod = 0 := rfl
@[simp] theorem Meas.switchTo_accDuty : (m.switchTo mode).accDuty = 0 := rfl
@[simp] theorem Meas.switchTo_accEdges : (m.switchTo mode).accEdges = 0 := rfl
@[simp] theorem Meas.switchTo_winTicks : (m.switchTo mode).winTicks = 0 := rfl
@[simp] theorem Meas.switchTo_zeroTicks : (m.switchTo mode).zeroTicks = 0 := rfl

end Sys2Proof.Machine
end

