-- ==== Sys2Proof/Laws/Ops.lean ====
section
/-! SUPPORT. One lemma for each shared operation: everything it can do when it answers. -/

namespace Sys2Proof.Machine

theorem ofFit_eq_next_iff {o : Option State} {t : State} : ofFit o = .next t ↔ o = some t := by
  cases o <;> simp [ofFit]

theorem ofFit_eq_refused_iff {o : Option State} {r : Refusal} :
    ofFit o = .refused r ↔ o = none ∧ r = .resultMisfit := by
  cases o <;> simp [ofFit, eq_comm]

@[simp] theorem ofFit_some (s : State) : ofFit (some s) = .next s := rfl

theorem State.resynth_eq_some_iff {s t : State} :
    s.resynth = some t ↔ ∃ p, s.plannedPlan? = some p ∧ t = s.withPlan p := by
  simp [State.resynth, eq_comm]

theorem State.generatorChange_eq_some_iff {s t : State} :
    s.generatorChange = some t ↔
      (s.ctrl.opmode = .counter ∧ t = s) ∨
      (s.ctrl.opmode = .generator ∧ ∃ p, s.plannedPlan? = some p ∧ t = s.withPlan p) := by
  unfold State.generatorChange
  split <;> rename_i h
  · simp [h, State.resynth_eq_some_iff]
  · simp [h, eq_comm]

theorem State.counterChange_cases (s : State) :
    (s.ctrl.opmode = .generator ∧ s.counterChange = s) ∨
      (s.ctrl.opmode = .counter ∧ s.counterChange = s.withMeas Meas.reset) := by
  unfold State.counterChange
  split <;> rename_i h <;> simp [h, State.measStart_eq]

theorem State.trimChange_eq_some_iff {s t : State} :
    s.trimChange = some t ↔
      (s.ctrl.opmode = .counter ∧ t = s.withMeas Meas.reset) ∨
      (s.ctrl.opmode = .generator ∧ ∃ p, s.plannedPlan? = some p ∧ t = s.withPlan p) := by
  unfold State.trimChange
  rcases s.counterChange_cases with ⟨h, e⟩ | ⟨h, e⟩ <;>
    simp [e, State.generatorChange_eq_some_iff, h]

/-- The plan of a state in Counter mode or with the generator off is the OFF plan (R121). -/
theorem State.plannedPlan?_off {s : State} (h : s.ctrl.opmode = .counter ∨ s.ctrl.genEn = false) :
    s.plannedPlan? = some offPlan := by
  simp only [State.plannedPlan?, if_pos h]

/-- The plan of a state in Generator mode with the generator on is the synthesizer's (R121). -/
theorem State.plannedPlan?_on {s : State} (h : s.ctrl.opmode = .generator) (g : s.ctrl.genEn = true) :
    s.plannedPlan? =
      (synthesize s.params.P s.freqSet.toNat s.dutySet.toNat s.crystalRef).fit? := by
  simp [State.plannedPlan?, h, g]

/-- The plan depends on the parameters, the settings and the two generator bits alone. -/
theorem State.plannedPlan?_congr {s t : State} (hp : t.params = s.params) (hf : t.freqSet = s.freqSet)
    (hd : t.dutySet = s.dutySet) (ht : t.trim = s.trim) (hm : t.ctrl.opmode = s.ctrl.opmode)
    (hg : t.ctrl.genEn = s.ctrl.genEn) : t.plannedPlan? = s.plannedPlan? := by
  simp only [State.plannedPlan?, State.crystalRef, hp, hf, hd, ht, hm, hg]

theorem State.onEvent_eq_next_iff {s t : State} {mode : MeasMode} {act : Meas → Option Meas} :
    s.onEvent mode act = .next t ↔
      (¬ s.live mode ∧ t = s) ∨
      (s.live mode ∧ ∃ m, act s.meas = some m ∧ t = s.withMeas m) := by
  unfold State.onEvent
  split <;> rename_i h
  · constructor
    · intro e
      obtain ⟨m, hm, rfl⟩ := Option.map_eq_some_iff.mp (ofFit_eq_next_iff.mp e)
      exact .inr ⟨h, m, hm, rfl⟩
    · rintro (⟨n, -⟩ | ⟨-, m, hm, rfl⟩)
      · exact absurd h n
      · rw [hm]
        rfl
  · constructor
    · intro e
      cases e
      exact .inl ⟨h, rfl⟩
    · rintro (⟨-, rfl⟩ | ⟨l, -⟩)
      · rfl
      · exact absurd l h

/-- An event acts on the measurement registers and on nothing else (R150). -/
theorem State.onEvent_frame {s t : State} {mode : MeasMode} {act : Meas → Option Meas}
    (h : s.onEvent mode act = .next t) : t = s.withMeas t.meas := by
  rcases State.onEvent_eq_next_iff.mp h with ⟨-, rfl⟩ | ⟨-, m, -, rfl⟩ <;> rfl

theorem Meas.evaluate_cases (pair : ThreshPair) (m : Meas) :
    (m.mmode = .gated ∧ m.freq.toNat < pair.lo ∧ m.evaluate pair = m.switchTo .direct) ∨
    (m.mmode = .direct ∧ pair.hi < m.freq.toNat ∧ m.evaluate pair = m.switchTo .gated) ∨
    (m.evaluate pair = m ∧ (m.mmode = .gated → pair.lo ≤ m.freq.toNat) ∧
      (m.mmode = .direct → m.freq.toNat ≤ pair.hi)) := by
  unfold Meas.evaluate
  split <;> rename_i h <;> split <;> rename_i g <;> simp_all

/-- A measurement cycle counts the cool-down down, or switches, or changes nothing (R181). -/
theorem Meas.modeCycle_cases (pair : ThreshPair) (m : Meas) :
    (m.block ≠ 0 ∧ m.modeCycle pair = { m with block := m.block - 1 }) ∨
    (m.block = 0 ∧ m.mmode = .gated ∧ m.freq.toNat < pair.lo ∧
      m.modeCycle pair = m.switchTo .direct) ∨
    (m.block = 0 ∧ m.mmode = .direct ∧ pair.hi < m.freq.toNat ∧
      m.modeCycle pair = m.switchTo .gated) ∨
    (m.block = 0 ∧ m.modeCycle pair = m) := by
  unfold Meas.modeCycle
  split <;> rename_i h
  · rcases m.evaluate_cases pair with ⟨a, b, e⟩ | ⟨a, b, e⟩ | ⟨e, -, -⟩
    · exact .inr (.inl ⟨h, a, b, e⟩)
    · exact .inr (.inr (.inl ⟨h, a, b, e⟩))
    · exact .inr (.inr (.inr ⟨h, e⟩))
  · exact .inl ⟨h, rfl⟩

theorem Meas.countEdge_eq_some_iff {m m' : Meas} :
    m.countEdge = some m' ↔
      (m.gateCount.toNat = 16777215 ∧ m.gateOvf.toNat + 1 < 65536 ∧
        m' = { m with gateCount := 0, gateOvf := BitVec.ofNat 16 (m.gateOvf.toNat + 1) }) ∨
      (m.gateCount.toNat ≠ 16777215 ∧ m' = { m with gateCount := m.gateCount + 1 }) := by
  have hm : gateModulus - 1 = 16777215 := rfl
  unfold Meas.countEdge
  rw [hm]
  split <;> rename_i h
  · by_cases f : m.gateOvf.toNat + 1 < 65536
    · rw [fit_of_lt (w := 16) f]
      simp only [Option.map_some, Option.some.injEq, h, f, true_and, ne_eq, not_true, false_and,
        or_false, eq_comm (a := m')]
    · rw [(fit_eq_none_iff (w := 16)).mpr (Nat.le_of_not_lt f)]
      simp only [Option.map_none, reduceCtorEq, h, f, true_and, false_and, ne_eq, not_true,
        or_false]
  · simp only [Option.some.injEq, h, false_and, ne_eq, not_false_eq_true, true_and, false_or]
    exact eq_comm

theorem Meas.gateClose_eq_some_iff {mult : Nat} {pair : ThreshPair} {m m' : Meas} :
    m.gateClose mult pair = some m' ↔
      ∃ f : BitVec 64, f.toNat = smooth m.freq.toNat (m.edgesSinceOpen * mult) ∧
        m' = Meas.modeCycle pair
          { m with gateCount := 0, gateOvf := 0, freq := f, duty := 0, dutyValid := false } := by
  unfold Meas.gateClose rawGated
  simp only [Option.map_eq_some_iff, fit_eq_some_iff]
  constructor
  · rintro ⟨f, ⟨-, e⟩, rfl⟩
    exact ⟨f, e, rfl⟩
  · rintro ⟨f, e, rfl⟩
    exact ⟨f, ⟨e ▸ f.isLt, e⟩, rfl⟩

theorem Meas.capture_eq_some_iff {period pulse : BitVec 24} {ovf : Bool} {m m' : Meas} :
    m.capture period pulse ovf = some m' ↔
      ∃ (p d : BitVec 64) (e : BitVec 32), p.toNat = m.accPeriod.toNat + period.toNat ∧
        d.toNat = m.accDuty.toNat + pulse.toNat ∧ e.toNat = m.accEdges.toNat + 1 ∧
        m' = { m with accPeriod := p, accDuty := d, accEdges := e
                      accOvf := m.accOvf || ovf, act := true } := by
  unfold Meas.capture accOvfAfterCapture
  simp only [Option.bind_eq_bind, Option.pure_def, Option.bind_eq_some_iff, fit_eq_some_iff, Option.some.injEq]
  constructor
  · rintro ⟨p, ⟨-, hp⟩, d, ⟨-, hd⟩, e, ⟨-, he⟩, rfl⟩
    exact ⟨p, d, e, hp, hd, he, rfl⟩
  · rintro ⟨p, d, e, hp, hd, he, rfl⟩
    exact ⟨p, ⟨hp ▸ p.isLt, hp⟩, d, ⟨hd ▸ d.isLt, hd⟩, e, ⟨he ▸ e.isLt, he⟩, rfl⟩

theorem Meas.recompute_eq_some_iff {c : Nat} {m m' : Meas} :
    m.recompute c = some m' ↔
      (0 < m.accEdges.toNat ∧ 0 < m.accPeriod.toNat ∧
        ∃ f d : BitVec 64, f.toNat = c * m.accEdges.toNat / m.accPeriod.toNat ∧
          d.toNat = reciprocalDuty m.accOvf m.accDuty.toNat m.accPeriod.toNat ∧
          m' = { m with freq := f, duty := d, dutyValid := !m.accOvf, stale := false }) ∨
      (¬ (0 < m.accEdges.toNat ∧ 0 < m.accPeriod.toNat) ∧ m' = m) := by
  unfold Meas.recompute reciprocalFreq dutyValidAfterWindow
  split <;> rename_i h
  · simp only [Option.bind_eq_bind, Option.pure_def, Option.bind_eq_some_iff, fit_eq_some_iff,
      Option.some.injEq, h, not_true, false_and, or_false, true_and]
    constructor
    · rintro ⟨f, ⟨-, hf⟩, d, ⟨-, hd⟩, rfl⟩
      exact ⟨f, d, hf, hd, rfl⟩
    · rintro ⟨f, d, hf, hd, rfl⟩
      exact ⟨f, ⟨hf ▸ f.isLt, hf⟩, d, ⟨hd ▸ d.isLt, hd⟩, rfl⟩
  · simp only [Option.some.injEq, h, not_false_iff, true_and, eq_comm (a := m)]
    constructor
    · exact .inr
    · rintro (⟨a, b, -⟩ | e)
      · exact absurd ⟨a, b⟩ h
      · exact e

theorem Meas.windowEnd_eq_some_iff {c : Nat} {pair : ThreshPair} {m m' : Meas} :
    m.windowEnd c pair = some m' ↔
      ∃ r, m.recompute c = some r ∧
        m' = Meas.modeCycle pair
          { r with accPeriod := 0, accDuty := 0, accEdges := 0, accOvf := false } := by
  simp [Meas.windowEnd, Meas.takeWindow, eq_comm]

theorem Meas.windowTick_eq_some_iff {W c : Nat} {pair : ThreshPair} {m m' : Meas} :
    m.windowTick W c pair = some m' ↔
      m.winTicks.toNat + 1 < 4294967296 ∧
        ((m.winTicks.toNat + 1 = W ∧ Meas.windowEnd c pair { m with winTicks := 0 } = some m') ∨
          (m.winTicks.toNat + 1 ≠ W ∧
            m' = { m with winTicks := BitVec.ofNat 32 (m.winTicks.toNat + 1) })) := by
  unfold Meas.windowTick
  by_cases f : m.winTicks.toNat + 1 < 4294967296
  · have e : (BitVec.ofNat 32 (m.winTicks.toNat + 1)).toNat = m.winTicks.toNat + 1 := by
      rw [BitVec.toNat_ofNat, Nat.mod_eq_of_lt f]
    simp only [fit_of_lt (w := 32) f, Option.bind_eq_bind, Option.bind_some, e, f, true_and]
    split <;> rename_i h <;> simp [h, eq_comm]
  · rw [(fit_eq_none_iff (w := 32)).mpr (Nat.le_of_not_lt f)]
    simp only [Option.bind_eq_bind, Option.bind_none, reduceCtorEq, f, false_and]

@[simp] theorem Meas.graceTick_mmode (m : Meas) : m.graceTick.mmode = m.mmode := rfl
@[simp] theorem Meas.graceTick_block (m : Meas) : m.graceTick.block = m.block := rfl
@[simp] theorem Meas.graceTick_freq (m : Meas) : m.graceTick.freq = m.freq := rfl
@[simp] theorem Meas.graceTick_duty (m : Meas) : m.graceTick.duty = m.duty := rfl
@[simp] theorem Meas.graceTick_dutyValid (m : Meas) : m.graceTick.dutyValid = m.dutyValid := rfl
@[simp] theorem Meas.graceTick_act (m : Meas) : m.graceTick.act = false := rfl
@[simp] theorem Meas.graceTick_accOvf (m : Meas) : m.graceTick.accOvf = m.accOvf := rfl
@[simp] theorem Meas.graceTick_gateCount (m : Meas) : m.graceTick.gateCount = m.gateCount := rfl
@[simp] theorem Meas.graceTick_gateOvf (m : Meas) : m.graceTick.gateOvf = m.gateOvf := rfl
@[simp] theorem Meas.graceTick_accPeriod (m : Meas) : m.graceTick.accPeriod = m.accPeriod := rfl
@[simp] theorem Meas.graceTick_accDuty (m : Meas) : m.graceTick.accDuty = m.accDuty := rfl
@[simp] theorem Meas.graceTick_accEdges (m : Meas) : m.graceTick.accEdges = m.accEdges := rfl
@[simp] theorem Meas.graceTick_winTicks (m : Meas) : m.graceTick.winTicks = m.winTicks := rfl

theorem zeroTicksAfter_le (act : Bool) (n : Nat) : zeroTicksAfter act n ≤ 16 := by
  have h : graceTicks = 16 := rfl
  unfold zeroTicksAfter
  split <;> omega

theorem Meas.graceTick_zeroTicks_toNat (m : Meas) :
    m.graceTick.zeroTicks.toNat = zeroTicksAfter m.act m.zeroTicks.toNat := by
  have h := zeroTicksAfter_le m.act m.zeroTicks.toNat
  show (BitVec.ofNat 5 _).toNat = _
  rw [BitVec.toNat_ofNat, Nat.mod_eq_of_lt (by omega)]

theorem Meas.graceTick_stale (m : Meas) :
    m.graceTick.stale = (m.stale || decide (zeroTicksAfter m.act m.zeroTicks.toNat = 16)) := rfl

/-- The registers after `RESET` are those of `State.reset` (R250, R251). -/
theorem execReset_eq (s : State) :
    execReset s =
      .next
        { State.reset with
          params := s.params, trace := s.trace, freeCount := s.freeCount + 1
          readPort := Config.readPortAfterReset s.freeCount } := rfl

/-- A step with a stimulus waiting accepts it. -/
theorem step_cons {s : State} {w : Word} {rest : List Word} (h : s.trace = w :: rest) :
    step s = accept w { s with trace := rest } := by
  simp [step, h]

theorem step_nil {s : State} (h : s.trace = []) : step s = .next s := by
  simp [step, h]

/-- Accepting a word runs its operation, flags it, or refuses it (R95). -/
theorem accept_cases (w : Word) (s : State) :
    (∃ i, decode w = .stimulus i ∧ accept w s = exec i s) ∨
    (decode w = .illegalHostWord ∧ accept w s = .next (s.illegalWord (isRdWord w))) ∨
    (decode w = .malformedEventWord ∧ accept w s = .refused .malformedEvent) := by
  unfold accept
  split <;> simp_all

end Sys2Proof.Machine
end

