-- ==== Sys2Proof/Laws/PerInstr.lean ====
section
/-! SUPPORT. Families of statements made per instruction. -/

namespace Sys2Proof.Laws

/-- The source tag of a stimulus's word is 0 exactly for the host's commands (R81, R90). -/
def SourceTag.Statement (i : Instr) : Prop :=
  srcTag (encode i) = false ↔ i.opcode.agent = .host

/-- The top bit of an opcode's number is 0 exactly for the host's commands (R81, R90). -/
theorem opcode_srcBit (op : Opcode) : op.code.getLsbD 7 = false ↔ op.agent = .host := by
  cases op <;> decide

theorem SourceTag.of_opcode (i : Instr) : SourceTag.Statement i := by
  unfold SourceTag.Statement encode
  rw [srcTag_mkWord]
  exact opcode_srcBit i.opcode

theorem SourceTag.nop : SourceTag.Statement .nop := SourceTag.of_opcode _
theorem SourceTag.setFreq (v : Arg) : SourceTag.Statement (.setFreq v) :=
  SourceTag.of_opcode _
theorem SourceTag.setDuty (v : Arg) : SourceTag.Statement (.setDuty v) :=
  SourceTag.of_opcode _
theorem SourceTag.setTrim (v : Arg) : SourceTag.Statement (.setTrim v) :=
  SourceTag.of_opcode _
theorem SourceTag.setGate (g : GateTime) : SourceTag.Statement (.setGate g) :=
  SourceTag.of_opcode _
theorem SourceTag.setThresh (t : DirectThreshold) : SourceTag.Statement (.setThresh t) :=
  SourceTag.of_opcode _
theorem SourceTag.setGen (on : Bool) : SourceTag.Statement (.setGen on) :=
  SourceTag.of_opcode _
theorem SourceTag.setMode (m : OpMode) : SourceTag.Statement (.setMode m) :=
  SourceTag.of_opcode _
theorem SourceTag.trimStep (cursor : BitVec 3) (dir : TrimDir) :
    SourceTag.Statement (.trimStep cursor dir) :=
  SourceTag.of_opcode _
theorem SourceTag.synth : SourceTag.Statement .synth := SourceTag.of_opcode _
theorem SourceTag.rd (idx : BitVec 8) : SourceTag.Statement (.rd idx) :=
  SourceTag.of_opcode _
theorem SourceTag.evEdge : SourceTag.Statement .evEdge := SourceTag.of_opcode _
theorem SourceTag.evGateClose : SourceTag.Statement .evGateClose := SourceTag.of_opcode _
theorem SourceTag.evCapture (period pulse : BitVec 24) (ovf : Bool) :
    SourceTag.Statement (.evCapture period pulse ovf) :=
  SourceTag.of_opcode _
theorem SourceTag.evRefTick : SourceTag.Statement .evRefTick := SourceTag.of_opcode _
theorem SourceTag.reset : SourceTag.Statement .reset := SourceTag.of_opcode _

end Sys2Proof.Laws
end

