-- ==== Sys2Proof/Laws/Synth.lean ====
section
/-! SUPPORT. What each part of the synthesizer yields. -/

namespace Sys2Proof.Machine

/-- What a candidate is, whichever way it rounds (R125, R126). -/
theorem candidate_fields (T c rd : Nat) :
    (candidate T c rd).rd = rd ∧ (candidate T c rd).ref = c / rd ∧
      (candidate T c rd).step = candStep c rd ∧
      (candidate T c rd).err
        = min (T % candStep c rd) (candStep c rd - T % candStep c rd) ∧
      ((candidate T c rd).up = true ↔ candStep c rd - T % candStep c rd < T % candStep c rd) := by
  unfold candidate candResidual candRef
  dsimp only
  split <;> simp_all
  omega

/-- The better of two candidates is one of them, and no worse than either (R127). -/
theorem better_cases (b cand : Candidate) :
    (cand.err < b.err ∧ better (some b) cand = cand) ∨
      (b.err ≤ cand.err ∧ better (some b) cand = b) := by
  unfold better
  dsimp only
  split <;> simp_all

theorem mem_refDividers {rd : Nat} :
    rd ∈ refDividers ↔ 8 ≤ rd ∧ rd ≤ 374 ∧ rd % 2 = 0 := by
  have e : refDividers = List.range' 8 184 2 := rfl
  rw [e, List.mem_range']
  constructor
  · rintro ⟨i, h, rfl⟩
    omega
  · intro h
    exact ⟨(rd - 8) / 2, by omega, by omega⟩

theorem RawPlan.fit?_eq_some_iff {r : RawPlan} {p : Plan} :
    r.fit? = some p ↔
      p.refDiv.toNat = r.refDiv ∧ p.pint.toNat = r.pint ∧ p.pfrac.toNat = r.pfrac ∧
        p.outDiv.toNat = r.outDiv ∧ p.hwDiv.toNat = r.stage.hwDiv ∧
        p.presc.toNat = r.stage.presc ∧ p.period.toNat = r.stage.period ∧
        p.compare.toNat = r.stage.compare ∧ p.outMode = r.stage.outMode ∧
        p.achFreq.toNat = r.achFreq ∧ p.achDuty.toNat = r.stage.achDuty := by
  unfold RawPlan.fit?
  simp only [Option.bind_eq_bind, Option.pure_def, Option.bind_eq_some_iff, fit_eq_some_iff,
    Option.some.injEq]
  constructor
  · rintro ⟨a, ⟨-, ha⟩, b, ⟨-, hb⟩, c, ⟨-, hc⟩, d, ⟨-, hd⟩, e, ⟨-, he⟩, f, ⟨-, hf⟩, g, ⟨-, hg⟩,
      h, ⟨-, hh⟩, i, ⟨-, hi⟩, j, ⟨-, hj⟩, rfl⟩
    exact ⟨ha, hb, hc, hd, he, hf, hg, hh, rfl, hi, hj⟩
  · rintro ⟨ha, hb, hc, hd, he, hf, hg, hh, ho, hi, hj⟩
    refine ⟨p.refDiv, ⟨ha ▸ p.refDiv.isLt, ha⟩, p.pint, ⟨hb ▸ p.pint.isLt, hb⟩, p.pfrac,
      ⟨hc ▸ p.pfrac.isLt, hc⟩, p.outDiv, ⟨hd ▸ p.outDiv.isLt, hd⟩, p.hwDiv,
      ⟨he ▸ p.hwDiv.isLt, he⟩, p.presc, ⟨hf ▸ p.presc.isLt, hf⟩, p.period,
      ⟨hg ▸ p.period.isLt, hg⟩, p.compare, ⟨hh ▸ p.compare.isLt, hh⟩, p.achFreq,
      ⟨hi ▸ p.achFreq.isLt, hi⟩, p.achDuty, ⟨hj ▸ p.achDuty.isLt, hj⟩, ?_⟩
    cases p
    simp_all

end Sys2Proof.Machine
end

