-- ==== Sys2Proof/Tests/Slice0.lean ====
section
/-! SUPPORT. Small tests: the well-formedness smoke, words written out from the encoding tables of
spec/30_encoding.md, one or two steps of every stimulus with results from the spec's worked examples,
and for every statement with hypotheses a witness that meets them. -/

namespace Sys2Proof.Tests

open Sys2Proof.Machine

/-! ## Helpers -/

/-- `P = 10^9`, the first example floor of spec/41_synthesizer.md, and `W = 4`, that of R158. -/
def params : Params := ⟨⟨1000000000, 4, ThreshTable.default⟩, by decide⟩

/-- After reset, with those parameters. -/
def base : State := { State.reset with params := params, readPort := 0 }

/-- Generator mode, on, with the settings and the plan of R144. -/
def generating : State :=
  { base with
    ctrl := { Ctrl.reset with genEn := true }
    freqSet := 1000000000, dutySet := 5000
    plan := { Plan.reset with refDiv := 12, pint := 1, outDiv := 1, hwDiv := 1
                              outMode := .directClk, achFreq := 1000000000, achDuty := 5000 } }

/-- Counter mode, Gated, in the middle of a gate, with the threshold of 10 kHz and the gate of 1 s. -/
def gating : State :=
  { base with
    ctrl := { Ctrl.reset with opmode := .counter, gateSel := .g1s, threshSel := .t10k }
    meas := { Meas.reset with freq := 20000000, gateCount := 9000 } }

/-- Counter mode, Direct, in the middle of a window with six captures of the period sum of R160. -/
def direct : State :=
  { base with
    ctrl := { Ctrl.reset with opmode := .counter, threshSel := .t10k }
    meas := { Meas.reset with
              freq := 9000000, mmode := .direct, block := 3, act := true
              accPeriod := 7998, accDuty := 3996, accEdges := 6, winTicks := 1 } }

/-- The same at the last tick of the window. -/
def lastTick : State := { direct with meas := { direct.meas with winTicks := 3 } }

/-- Direct mode without a capture, one tick before the grace period expires. -/
def silent : State :=
  { direct with
    meas := { Meas.reset with freq := 9000000, mmode := .direct, zeroTicks := 15, winTicks := 3 } }

/-- The next state, when there is one. -/
def after : Result → Option State
  | .next s => some s
  | .fault _ => none
  | .refused _ => none

/-- The refusal, when there is one. -/
def refusal : Result → Option Refusal
  | .next _ => none
  | .fault _ => none
  | .refused r => some r

/-! ## Well-formedness and words -/

theorem test_rd_07_illFormed : (Instr.rd 0x07#8).wellFormed = false := by decide
theorem test_rd_1B_illFormed : (Instr.rd 0x1B#8).wellFormed = false := by decide
theorem test_rd_2A_illFormed : (Instr.rd 0x2A#8).wellFormed = false := by decide
theorem test_rd_1A_wellFormed : (Instr.rd 0x1A#8).wellFormed = true := by decide

/-- Fields written out bit by bit as R80 and R83 lay them out, one word for each format. -/
theorem test_bits_U : decode (0b00000001#8 ++ 0#52 ++ 0b1010#4) = .stimulus (.setFreq 10#56) := by
  decide
theorem test_bits_S :
    decode (0b00000011#8 ++ 0b1111111111111111111111111111#28 ++ 0b1111111111111111111111111011#28) =
      .stimulus (.setTrim (BitVec.ofInt 56 (-5))) := by decide
theorem test_bits_E : decode (0b00000101#8 ++ 0#53 ++ 0b011#3) = .stimulus (.setThresh .t100k) := by
  decide
theorem test_bits_T :
    decode (0b00001000#8 ++ 0#52 ++ 0b0#1 ++ 0b110#3) = .stimulus (.trimStep 6#3 .up) := by decide
theorem test_bits_R : decode (0b00001010#8 ++ 0#48 ++ 0b00101001#8) = .stimulus (.rd 0x29#8) := by
  decide
theorem test_bits_C :
    decode (0b10000010#8 ++ 0#7 ++ 0b0#1 ++ 0b000000000000001010011010#24
        ++ 0b000000000000010100110101#24) =
      .stimulus (.evCapture 1333#24 666#24 false) := by decide
theorem test_bits_Z : decode (0b10000001#8 ++ 0#56) = .stimulus .evGateClose := by decide

theorem test_decode_nop : decode 0x0000000000000000#64 = .stimulus .nop := by decide
theorem test_decode_setFreq :
    decode 0x010000003B9ACA00#64 = .stimulus (.setFreq 1000000000#56) := by decide
theorem test_decode_setDuty : decode 0x02000000000009C4#64 = .stimulus (.setDuty 2500#56) := by decide
theorem test_decode_setTrim :
    decode 0x03FFFFFFFA0A1F00#64 = .stimulus (.setTrim (BitVec.ofInt 56 (-100000000))) := by decide
theorem test_decode_setGate : decode 0x0400000000000001#64 = .stimulus (.setGate .g1s) := by decide
theorem test_decode_setThresh :
    decode 0x0500000000000002#64 = .stimulus (.setThresh .t10k) := by decide
theorem test_decode_setGen : decode 0x0600000000000001#64 = .stimulus (.setGen true) := by decide
theorem test_decode_setMode : decode 0x0700000000000001#64 = .stimulus (.setMode .counter) := by decide
theorem test_decode_trimStep :
    decode 0x080000000000000B#64 = .stimulus (.trimStep 3#3 .down) := by decide
theorem test_decode_synth : decode 0x0900000000000000#64 = .stimulus .synth := by decide
theorem test_decode_rd : decode 0x0A00000000000019#64 = .stimulus (.rd 0x19#8) := by decide
theorem test_decode_evEdge : decode 0x8000000000000000#64 = .stimulus .evEdge := by decide
theorem test_decode_evGateClose : decode 0x8100000000000000#64 = .stimulus .evGateClose := by decide
theorem test_decode_evCapture :
    decode 0x820100003C0000F0#64 = .stimulus (.evCapture 240#24 60#24 true) := by decide
theorem test_decode_evRefTick : decode 0x8300000000000000#64 = .stimulus .evRefTick := by decide
theorem test_decode_reset : decode 0xFF00000000000000#64 = .stimulus .reset := by decide

theorem test_decode_illegal_opcode : decode 0x0B00000000000000#64 = .illegalHostWord := by decide
theorem test_decode_illegal_arg : decode 0x0000000000000001#64 = .illegalHostWord := by decide
theorem test_decode_malformed : decode 0x8000000000000001#64 = .malformedEventWord := by decide

theorem test_tableWord :
    decodeTableWord 64 0x0600000000000001 = some (.setGen true) := by decide
theorem test_tableWord_short : decodeTableWord 56 0x0600000000000000 = some .nop := by decide

theorem test_fetchWord :
    (step (base.withFetchWord 64 0x0600000000000001) = exec (.setGen true) base) := by rfl

/-! ## Text (R97, R98) -/

theorem test_text_trim :
    parseLine "SET_TRIM -5 ; restore".toList = some [.setTrim (BitVec.ofInt 56 (-5))] := by decide
theorem test_text_names :
    parseText "SET_THRESH T10K\nTRIM_STEP 3, DOWN".toList =
      some [.setThresh .t10k, .trimStep 3#3 .down] := by decide
theorem test_text_pseudo :
    parseLine "GATE 2".toList = some [.evEdge, .evEdge, .evGateClose] := by decide
/-- Log 10: `-` before a hexadecimal number, `_` after the last digit, no pattern for a magnitude. -/
theorem test_text_presumed :
    parseLine "SET_TRIM -0x1_0_".toList = some [.setTrim (BitVec.ofInt 56 (-16))] ∧
      parseLine "SET_TRIM 0xFFFFFFFFFFFFFB".toList = none := by decide
theorem test_text_illegal : parseLine "RD 0x07".toList = none := by decide

/-! ## The host's commands -/

theorem test_nop : after (exec .nop direct) = some direct := by decide

/-- R201: 0 is stored as 100. -/
theorem test_setFreq_low : (after (exec (.setFreq 0) base)).map (·.freqSet) = some 100 := by decide
/-- R201, R144: the plan follows. -/
theorem test_setFreq_plan :
    (after (exec (.setFreq 1000000000#56) { generating with plan := Plan.reset })).map (·.plan) =
      some generating.plan := by decide +kernel

/-- R202: 10001 is stored as 10000. -/
theorem test_setDuty_high :
    (after (exec (.setDuty 10001#56) gating)).map (·.dutySet) = some 10000 := by decide
/-- R133: a duty of 3332 quantizes to 0 on the direct path, and R137 drives the pin low. -/
theorem test_setDuty_plan :
    (after (exec (.setDuty 3332#56) generating)).map (fun s => (s.plan.achDuty, s.plan.outMode)) =
      some (0, .staticLow) := by decide +kernel

/-- R203: the largest positive operand is stored as 99_999_999. -/
theorem test_setTrim_high :
    (after (exec (.setTrim 0x7FFFFFFFFFFFFF#56) gating)).map (fun s => (s.trim, s.meas)) =
      some (99999999, Meas.reset) := by decide
/-- R203: 1_000_000 gives `CRYSTAL_REF = 12_001_000_000` and `GATE_TICKS = 1_200_100`. -/
theorem test_setTrim_ref :
    (after (exec (.setTrim 1000000#56) base)).map (fun s => (s.crystalRef, s.gateTicks)) =
      some (12001000000, 1200100) := by decide

/-- R204: the edges counted under the old gate are discarded. -/
theorem test_setGate_counter :
    (after (exec (.setGate .g10s) gating)).map (fun s => (s.ctrl.gateSel, s.meas.gateCount)) =
      some (.g10s, 0) := by decide
theorem test_setGate_generator :
    (after (exec (.setGate .g1s) base)).map (·.gateTicks) = some 12000000 := by decide

/-- R205: `SET_THRESH 0` in Direct mode returns to Gated at once. -/
theorem test_setThresh_counter :
    (after (exec (.setThresh .alwaysGated) direct)).map (·.meas.mmode) = some .gated := by decide
theorem test_setThresh_generator :
    (after (exec (.setThresh .t1M) generating)).map (·.plan) = some generating.plan := by decide

/-- R206: off, every plan register is 0; on again, the same plan is back. -/
theorem test_setGen_off :
    (after (exec (.setGen false) generating)).map (·.plan) = some Plan.reset := by decide
theorem test_setGen_on :
    (after (exec (.setGen true) { generating with ctrl := Ctrl.reset, plan := Plan.reset })) =
      some generating := by decide +kernel

/-- R207: to Counter mode, `CTRL` reads 0x03 and the plan is gone. -/
theorem test_setMode_counter :
    (after (exec (.setMode .counter) generating)).map (fun s => (s.regRead 0x00#8, s.plan)) =
      some (3, Plan.reset) := by decide
/-- R207: `SET_MODE 1` in Counter mode restarts the measurement. -/
theorem test_setMode_same :
    (after (exec (.setMode .counter) direct)).map (·.meas) = some Meas.reset := by decide

/-- R208: from 99_999_990 up by 10, the clamp. -/
theorem test_trimStep_clamp :
    (after (exec (.trimStep 1 .up) { base with trim := 99999990 })).map (·.trim) =
      some 99999999 := by decide
/-- R208: from 0 down by 1000. -/
theorem test_trimStep_down :
    (after (exec (.trimStep 3 .down) base)).map (·.crystalRef) = some 11999999000 := by decide

/-- R140: `SYNTH` leaves a current plan as it is. -/
theorem test_synth_current : after (exec .synth generating) = some generating := by decide +kernel
theorem test_synth_counter : after (exec .synth gating) = some gating := by decide

/-- R211: `TRIM = -5` reads sign-extended. -/
theorem test_rd_trim :
    (after (exec (.rd 0x03#8) { base with trim := BitVec.ofInt 28 (-5) })).map (·.readPort) =
      some 0xFFFFFFFFFFFFFFFB#64 := by decide
/-- R63: an unmapped index shows 0 and sets `ILLEGAL`. -/
theorem test_rd_unmapped :
    after (step { base with readPort := 7, trace := [0x0A00000000000007#64] }) =
      some { base with illegal := true } := by decide

/-! ## The events -/

/-- R151: the wrap. -/
theorem test_evEdge_wrap :
    (after (exec .evEdge { gating with
      meas := { gating.meas with gateCount := 16777215 } })).map
        (fun s => (s.meas.gateCount, s.meas.gateOvf)) = some (0, 1) := by decide
/-- U1: the tally that does not fit. -/
theorem test_evEdge_misfit :
    refusal (exec .evEdge { gating with
      meas := { gating.meas with gateCount := 16777215, gateOvf := 65535 } }) =
        some .resultMisfit := by decide

/-- R188 item 5: 9000 edges in 1 s snap to 9_000_000, below the band: to Direct, cool-down 3. -/
theorem test_evGateClose_switch :
    (after (exec .evGateClose gating)).map (fun s => (s.meas.freq, s.meas.mmode, s.meas.block)) =
      some (9000000, .direct, 3) := by decide
/-- R154: the corner of the strict comparison, and truncation toward zero. -/
theorem test_smooth :
    smooth 10000000 10010000 = 10001250 ∧ smooth 9991250 9990000 = 9991094 := by decide

/-- R157: one more capture of the example. -/
theorem test_evCapture :
    (after (exec (.evCapture 1333 666 true) direct)).map
      (fun s => (s.meas.accPeriod, s.meas.accDuty, s.meas.accEdges, s.meas.accOvf, s.meas.act)) =
        some (9331, 4662, 7, true, true) := by decide
theorem test_evCapture_ignored : after (exec (.evCapture 1 1 true) gating) = some gating := by decide

/-- R160, R161: the sample of the window, and the taken accumulators. -/
theorem test_evRefTick_windowEnd :
    (after (exec .evRefTick lastTick)).map
      (fun s => (s.meas.freq, s.meas.duty, s.meas.dutyValid, s.meas.accPeriod, s.meas.block)) =
        some (9002250, 4996, true, 0, 2) := by decide
/-- R158: the sixteenth silent tick sets `STALE`, and the empty window keeps the sample. -/
theorem test_evRefTick_stale :
    (after (exec .evRefTick silent)).map
      (fun s => (s.meas.zeroTicks, s.meas.stale, s.meas.winTicks, s.meas.freq)) =
        some (16, true, 0, 9000000) := by decide

/-- R250. -/
theorem test_reset :
    (after (exec .reset { direct with illegal := true })).map
      (fun s => (s.regRead 0x01#8, s.regRead 0x05#8, s.illegal, s.meas)) =
        some (100, 1200000, false, Meas.reset) := by decide

/-- R242: the lines at the plan of R144; the PLL runs at 1 MHz. -/
theorem test_clockLines :
    generating.clockLines.pin = .dividedClock 1 ∧ generating.pllSixteenths = 16 * 1000000000 := by
  decide

/-- R236: reset drops everything else in its cycle. -/
theorem test_cycle_reset :
    (Cycle.mk true true none true true (some 1)).words = [0xFF00000000000000#64] := by decide

/-! ## Witnesses: a state and operands that meet the hypotheses of each statement -/

/-- Generator mode with the PWM path: the second case of R144, `P = 48 * 10^9`. -/
def pulsing : State :=
  { generating with
    params := ⟨⟨48000000000, 4, ThreshTable.default⟩, by decide⟩
    plan := { Plan.reset with refDiv := 12, pint := 64, outDiv := 64, hwDiv := 1, presc := 1
                              period := 64, compare := 32, outMode := .pwm
                              achFreq := 1000000000, achDuty := 5000 } }

/-- Counter mode, Gated, AlwaysGated. -/
def pinned : State :=
  { gating with ctrl := { gating.ctrl with threshSel := .alwaysGated } }

theorem exists_next {r : Result} (h : (after r).isSome = true) : ∃ t, r = .next t := by
  cases r with
  | next t => exact ⟨t, rfl⟩
  | fault e => cases h
  | refused e => cases h

theorem settings_of {s : State} (h : s.freqSet = 100 ∨ s.freqSet = 1000000000)
    (hd : s.dutySet = 0 ∨ s.dutySet = 5000) (ht : s.trim = 0) : s.SettingsInRange := by
  constructor
  · rcases h with h | h <;> rw [h] <;> decide
  · rcases h with h | h <;> rw [h] <;> decide
  · rcases hd with h | h <;> rw [h] <;> decide
  · rw [ht]; decide
  · rw [ht]; decide

theorem base_settings : base.SettingsInRange := settings_of (.inl rfl) (.inl rfl) rfl
theorem generating_settings : generating.SettingsInRange := settings_of (.inr rfl) (.inr rfl) rfl
theorem gating_settings : gating.SettingsInRange := settings_of (.inl rfl) (.inl rfl) rfl
theorem pulsing_settings : pulsing.SettingsInRange := settings_of (.inr rfl) (.inr rfl) rfl

theorem generating_current : generating.PlanCurrent :=
  ⟨fun _ => by decide +kernel, fun h => absurd h (by decide)⟩
theorem pulsing_current : pulsing.PlanCurrent :=
  ⟨fun _ => by decide +kernel, fun h => absurd h (by decide)⟩
theorem gating_current : gating.PlanCurrent := ⟨fun h => absurd h (by decide), fun _ => rfl⟩
theorem base_current : base.PlanCurrent := ⟨fun h => absurd h (by decide), fun _ => rfl⟩

theorem generating_inv : generating.Inv where
  settings := generating_settings
  plan := generating_current
  idle := fun _ => rfl
  zeroTicks := by decide
  winTicks := by decide
  gated := fun _ => ⟨rfl, rfl, rfl, rfl, rfl, rfl, rfl, rfl, rfl, rfl⟩
  direct := fun h => absurd h (by decide)
  alwaysGated := fun _ => rfl
  duty := fun _ => rfl

theorem gating_inv : gating.Inv where
  settings := gating_settings
  plan := gating_current
  idle := fun h => absurd h (by decide)
  zeroTicks := by decide
  winTicks := by decide
  gated := fun _ => ⟨rfl, rfl, rfl, rfl, rfl, rfl, rfl, rfl, rfl, rfl⟩
  direct := fun h => absurd h (by decide)
  alwaysGated := fun h => absurd h (by decide)
  duty := fun _ => rfl

/-- The same with a gate close as the next stimulus. -/
def closing : State := { gating with trace := [0x8100000000000000#64] }

theorem closing_inv : closing.Inv where
  settings := settings_of (.inl rfl) (.inl rfl) rfl
  plan := ⟨fun h => absurd h (by decide), fun _ => rfl⟩
  idle := fun h => absurd h (by decide)
  zeroTicks := by decide
  winTicks := by decide
  gated := fun _ => ⟨rfl, rfl, rfl, rfl, rfl, rfl, rfl, rfl, rfl, rfl⟩
  direct := fun h => absurd h (by decide)
  alwaysGated := fun h => absurd h (by decide)
  duty := fun _ => rfl

theorem lastTick_inv : lastTick.Inv where
  settings := settings_of (.inl rfl) (.inl rfl) rfl
  plan := ⟨fun h => absurd h (by decide), fun _ => rfl⟩
  idle := fun h => absurd h (by decide)
  zeroTicks := by decide
  winTicks := by decide
  gated := fun h => absurd h (by decide)
  direct := fun _ => ⟨rfl, rfl⟩
  alwaysGated := fun h => absurd h (by decide)
  duty := fun _ => rfl

theorem lastTick_captureFits : lastTick.meas.CaptureFits := ⟨by decide, by decide, by decide⟩
theorem lastTick_windowFits : lastTick.meas.WindowFits := ⟨by decide, fun _ => by decide⟩

theorem witness_DecodeOfEncodeIsIdentity : (Instr.rd 0x29#8).wellFormed = true := by decide

theorem witness_EncodeOfDecodeIsIdentity :
    decode 0x0A00000000000029#64 = .stimulus (.rd 0x29#8) := by decide

theorem witness_MatchMaskRowsSelectOperations :
    Opcode.rd.selects 0x0A00000000000029#64 = true ∧
      Opcode.setThresh.selects 0x0500000000000004#64 = true := by decide

theorem witness_IllegalHostWordSetsOneFlag :
    (({ base with trace := [0x0A00000000000007#64] } : State).trace = 0x0A00000000000007#64 :: [] ∧
      (0x0A00000000000007#64).getLsbD 63 = false ∧
      ∀ op : Opcode, op.selects 0x0A00000000000007#64 = false) ∧
    (0x7F#8).toNat < 0x80 ∧ (0x00#8).toNat < 0x80 :=
  ⟨⟨rfl, by decide, fun op => by cases op <;> decide⟩, by decide, by decide⟩

theorem witness_MalformedEventWordIsRefused :
    (({ base with trace := [0x8202000000000000#64] } : State).trace = 0x8202000000000000#64 :: [] ∧
      (0x8202000000000000#64).getLsbD 63 = true ∧
      ∀ op : Opcode, op.selects 0x8202000000000000#64 = false) ∧
    0x80 ≤ (0x80#8).toNat ∧ 0x80 ≤ (0xFF#8).toNat :=
  ⟨⟨rfl, by decide, fun op => by cases op <;> decide⟩, by decide, by decide⟩

theorem witness_HostCannotForgeEvents : decode (hostWord 0) = .stimulus .nop := by decide

theorem witness_StepRunsDecodedStimulus :
    ({ base with trace := [0x0600000000000001#64] } : State).trace = 0x0600000000000001#64 :: [] ∧
      decode 0x0600000000000001#64 = .stimulus (.setGen true) ∧ base.trace = [] :=
  ⟨rfl, by decide, rfl⟩

theorem witness_CoincidentStrobesInFixedOrder :
    (Cycle.mk true true none true true none).reset = true ∧
      (Cycle.mk false true (some ⟨1, 1, true⟩) true true (some 0)).reset = false := by decide

/-- Both ends of each mapped range and the unmapped indices beside them. -/
theorem witness_ReadShowsRegisterAndChangesNone :
    (mappedIndex 0x00#8 = true ∧ mappedIndex 0x06#8 = true ∧ mappedIndex 0x10#8 = true ∧
      mappedIndex 0x1A#8 = true ∧ mappedIndex 0x20#8 = true ∧ mappedIndex 0x29#8 = true) ∧
    mappedIndex 0x07#8 = false ∧ mappedIndex 0x0F#8 = false ∧ mappedIndex 0x1B#8 = false ∧
      mappedIndex 0x1F#8 = false ∧ mappedIndex 0x2A#8 = false ∧ mappedIndex 0xFF#8 = false := by
  decide

theorem witness_NopChangesNothing : (1#56) ≠ 0 ∧ (0xFFFFFFFFFFFFFF#56) ≠ 0 := by decide

theorem witness_CrystalRefAndGateTicks :
    base.SettingsInRange ∧ base.ctrl.gateSel = .g0_1s ∧
      gating.SettingsInRange ∧ gating.ctrl.gateSel = .g1s ∧
      ({ base with ctrl := { base.ctrl with gateSel := .g5s } } : State).SettingsInRange ∧
      ({ base with ctrl := { base.ctrl with gateSel := .g10s } } : State).SettingsInRange :=
  ⟨base_settings, rfl, gating_settings, rfl, settings_of (.inl rfl) (.inl rfl) rfl,
    settings_of (.inl rfl) (.inl rfl) rfl⟩

/-- R122: `f = 100` at the largest floor needs doublings; `f = P = 1` needs none. -/
theorem witness_OutputDividerIsSmallestPowerOfTwo :
    (1 ≤ 1000000000000 ∧ (1000000000000 : Nat) ≤ 1000000000000 ∧ 1 ≤ 100 ∧
      1 < outDivider 1000000000000 100 ∧ (100 : Nat) ≤ 100) ∧ outDivider 1 1 = 1 := by decide

theorem witness_CandidateReferenceAndStepBounds :
    (11900000001 : Nat) ≤ 11900000001 ∧ (12099999999 : Nat) ≤ 12099999999 ∧
      8 ∈ refDividers ∧ 374 ∈ refDividers := by decide

theorem witness_SearchFindsFirstLeastError :
    8 < (winner 1000000000 12000000000).rd ∧ (8 : Nat) ≤ 374 ∧ 374 % 2 = 0 := by decide

theorem witness_SearchAlwaysYieldsWinner :
    (11900000001 : Nat) ≤ 12000000000 ∧ (12000000000 : Nat) ≤ 12099999999 := by decide

theorem witness_IntegerRatioCanBeZero :
    (1 : Nat) ≤ 1 ∧ (1 : Nat) ≤ 1031250000 ∧ (1031250000 : Nat) ≤ 1031250000 := by decide

/-- The least frequency at the largest floor, and the largest frequency at the least floor. -/
theorem witness_AchievedFrequencyWithinOneStep :
    ((1 : Nat) ≤ 1000000000000 ∧ (100 : Nat) ≤ 100 ∧ (11900000001 : Nat) ≤ 11900000001) ∧
      (1 : Nat) ≤ 1 ∧ (105000000000 : Nat) ≤ 105000000000 ∧
        (12099999999 : Nat) ≤ 12099999999 := by decide

/-- The two thresholds from both sides. -/
theorem witness_DirectPathDutyClasses :
    (1 : Nat) ≤ 2 ∧ (2 : Nat) ≤ 2 ∧ (3332 : Nat) < 3333 ∧ (6666 : Nat) < 6667 ∧
      ((3333 : Nat) ≤ 3333 ∧ (3333 : Nat) ≤ 6666) ∧ (3333 : Nat) ≤ 6666 ∧ (6666 : Nat) ≤ 6666 := by
  decide

theorem witness_PwmPrescalerAndPeriod : (2 : Nat) ≤ 24 ∧ (24 : Nat) ≤ 34 := by decide
theorem witness_PwmCompareIsNearest : (2 : Nat) ≤ 2 ∧ (2 : Nat) ≤ 34 ∧ (1250 : Nat) ≤ 10000 := by
  decide
theorem witness_PwmDutyWithinOneTick : (2 : Nat) ≤ 34 ∧ (34 : Nat) ≤ 34 ∧ (1 : Nat) ≤ 10000 := by
  decide
theorem witness_StaticDriveAtDegenerateDuty :
    (2 : Nat) ≤ 2 ∧ ((2 : Nat) ≤ 12 ∧ (12 : Nat) ≤ 34 ∧ (1 : Nat) ≤ 10000) ∧ (34 : Nat) ≤ 34 := by
  decide

theorem witness_OutputStageDividesByOutputDivider :
    (generating.SettingsInRange ∧ generating.PlanCurrent ∧
      (generating.ctrl.opmode = .generator ∧ generating.ctrl.genEn = true) ∧
      generating.plan.outDiv.toNat ≤ 2) ∧
    (pulsing.SettingsInRange ∧ pulsing.PlanCurrent ∧
      (pulsing.ctrl.opmode = .generator ∧ pulsing.ctrl.genEn = true) ∧
      2 < pulsing.plan.outDiv.toNat) ∧
    base.SettingsInRange ∧ base.PlanCurrent ∧ base.ctrl.genEn = false :=
  ⟨⟨generating_settings, generating_current, ⟨rfl, rfl⟩, by decide⟩,
    ⟨pulsing_settings, pulsing_current, ⟨rfl, rfl⟩, by decide⟩, base_settings, base_current, rfl⟩

theorem witness_SynthesisFitsRegisters :
    ((1 : Nat) ≤ 52500000000 ∧ (52500000000 : Nat) ≤ 1000000000000 ∧
      (100 : Nat) ≤ 105000000000 ∧ (105000000000 : Nat) ≤ 105000000000 ∧ (10000 : Nat) ≤ 10000 ∧
      (11900000001 : Nat) ≤ 11900000001) ∧ (52500000000 : Nat) ≤ 52500000000 := by decide

theorem witness_SetFreqStoresClampedFrequency :
    generating.SettingsInRange ∧ generating.ctrl.opmode = .generator ∧
      gating.SettingsInRange ∧ gating.ctrl.opmode = .counter :=
  ⟨generating_settings, rfl, gating_settings, rfl⟩
theorem witness_SetDutyStoresClampedDuty :
    generating.SettingsInRange ∧ generating.ctrl.opmode = .generator ∧
      gating.SettingsInRange ∧ gating.ctrl.opmode = .counter :=
  ⟨generating_settings, rfl, gating_settings, rfl⟩
theorem witness_SetTrimStoresClampedTrim :
    generating.SettingsInRange ∧ generating.ctrl.opmode = .generator ∧
      gating.SettingsInRange ∧ gating.ctrl.opmode = .counter :=
  ⟨generating_settings, rfl, gating_settings, rfl⟩
theorem witness_TrimStepClampsAfterExactSum :
    (generating.SettingsInRange ∧ generating.ctrl.opmode = .generator ∧
      gating.SettingsInRange ∧ gating.ctrl.opmode = .counter) ∧ 15 < (16#56).toNat :=
  ⟨⟨generating_settings, rfl, gating_settings, rfl⟩, by decide⟩
theorem witness_SetGateAndThreshRestartMeasurement :
    generating.ctrl.opmode = .generator ∧ gating.ctrl.opmode = .counter ∧
      3 < (4#56).toNat ∧ 4 < (5#56).toNat := ⟨rfl, rfl, by decide, by decide⟩
theorem witness_SetGenTurnsOutputOnAndOff :
    (generating.SettingsInRange ∧ generating.ctrl.opmode = .generator ∧
      gating.SettingsInRange ∧ gating.ctrl.opmode = .counter) ∧ 1 < (2#56).toNat :=
  ⟨⟨generating_settings, rfl, gating_settings, rfl⟩, by decide⟩
theorem witness_SetModeTearsDownAndSetsUp :
    generating.SettingsInRange ∧ gating.SettingsInRange ∧ 1 < (2#56).toNat :=
  ⟨generating_settings, gating_settings, by decide⟩
theorem witness_ModeRoundTripRestoresState :
    generating.Inv ∧ generating.ctrl.opmode = .generator := ⟨generating_inv, rfl⟩
theorem witness_SynthRecomputesPlan :
    (generating.SettingsInRange ∧ generating.ctrl.opmode = .generator ∧ generating.PlanCurrent) ∧
      (gating.SettingsInRange ∧ gating.ctrl.opmode = .counter) ∧ (1#56) ≠ 0 :=
  ⟨⟨generating_settings, rfl, generating_current⟩, ⟨gating_settings, rfl⟩, by decide⟩

/-- The last count before the wrap, the wrap with the last tally that fits, and the one that does not. -/
theorem witness_EdgeIsCountedOnce :
    gating.ctrl.opmode = .counter ∧ gating.meas.mmode = .gated ∧
      (16777214#24).toNat + 1 < 2 ^ 24 ∧ (16777215#24).toNat + 1 = 2 ^ 24 ∧
      (65534#16).toNat + 1 < 2 ^ 16 ∧ (65535#16).toNat + 1 = 2 ^ 16 ∧
      ¬ (direct.ctrl.opmode = .counter ∧ direct.meas.mmode = .gated) := by decide

theorem witness_NoEdgeLostInAGate :
    gating.ctrl.opmode = .counter ∧ gating.meas.mmode = .gated ∧
      gating.meas.gateCount.toNat + gating.meas.gateOvf.toNat * 2 ^ 24 + 1099511618775 < 2 ^ 40 := by
  decide

/-- A difference just above the threshold, and one at it. -/
theorem witness_AsymmetricSmoothing :
    10000 < (((20001 : Nat) : Int) - ((10000 : Nat) : Int)).natAbs ∧
      (((20000 : Nat) : Int) - ((10000 : Nat) : Int)).natAbs ≤ 10000 := by decide

theorem witness_GateCloseUpdatesSample :
    (gating.ctrl.opmode = .counter ∧ gating.meas.mmode = .gated) ∧
      ¬ (generating.ctrl.opmode = .counter ∧ generating.meas.mmode = .gated) := by decide

theorem witness_CaptureAccumulates :
    (lastTick.ctrl.opmode = .counter ∧ lastTick.meas.mmode = .direct ∧
      lastTick.meas.CaptureFits) ∧
    ¬ (gating.ctrl.opmode = .counter ∧ gating.meas.mmode = .direct) :=
  ⟨⟨rfl, rfl, lastTick_captureFits⟩, by decide⟩

theorem witness_ReferenceTickBookkeeping :
    (direct.ctrl.opmode = .counter ∧ direct.meas.mmode = .direct ∧
      direct.meas.winTicks.toNat + 1 < direct.params.W) ∧
    (lastTick.meas.winTicks.toNat + 1 = lastTick.params.W) ∧
    ¬ (gating.ctrl.opmode = .counter ∧ gating.meas.mmode = .direct) := by decide

/-- A window with captures, the same with a capture overflow, and one without captures. -/
theorem witness_WindowEndRecomputesSample :
    (lastTick.ctrl.opmode = .counter ∧ lastTick.meas.mmode = .direct ∧
      lastTick.meas.winTicks.toNat + 1 = lastTick.params.W ∧ lastTick.meas.WindowFits ∧
      0 < lastTick.meas.accEdges.toNat ∧ 0 < lastTick.meas.accPeriod.toNat ∧
      lastTick.meas.accOvf = false) ∧
    ({ lastTick.meas with accOvf := true } : Meas).WindowFits ∧
    silent.ctrl.opmode = .counter ∧ silent.meas.mmode = .direct ∧
      silent.meas.winTicks.toNat + 1 = silent.params.W ∧ silent.meas.WindowFits ∧
      ¬ (0 < silent.meas.accEdges.toNat ∧ 0 < silent.meas.accPeriod.toNat) :=
  ⟨⟨rfl, rfl, rfl, lastTick_windowFits, by decide, by decide, rfl⟩,
    ⟨by decide, fun h => nomatch h⟩, rfl, rfl, rfl, ⟨by decide, fun _ => by decide⟩, by decide⟩

theorem witness_EventsOutsideTheirModeAreIgnored :
    ¬ (direct.ctrl.opmode = .counter ∧ direct.meas.mmode = .gated) ∧
      ¬ (gating.ctrl.opmode = .counter ∧ gating.meas.mmode = .direct) ∧
      ¬ (generating.ctrl.opmode = .counter ∧ generating.meas.mmode = .gated) := by decide

theorem witness_SilenceFreezesSample :
    silent.ctrl.opmode = .counter ∧ silent.meas.mmode = .direct ∧ silent.meas.act = false ∧
      silent.meas.accEdges = 0 ∧ silent.meas.winTicks.toNat < silent.params.W ∧
      silent.meas.zeroTicks.toNat ≤ 16 := by decide

/-- The five cases, the last two at the edges of the band. -/
theorem witness_ModeCycleTransitions :
    0 < direct.meas.block.toNat ∧
      (gating.meas.block = 0 ∧ gating.meas.mmode = .gated ∧
        ({ gating.meas with freq := 9899999 } : Meas).freq.toNat < (params.pair .t10k).lo ∧
        (params.pair .t10k).lo ≤ ({ gating.meas with freq := 9900000 } : Meas).freq.toNat) ∧
      silent.meas.block = 0 ∧ silent.meas.mmode = .direct ∧
        (params.pair .t10k).hi < ({ silent.meas with freq := 10100001 } : Meas).freq.toNat ∧
        ({ silent.meas with freq := 10100000 } : Meas).freq.toNat ≤ (params.pair .t10k).hi := by
  decide

/-- A gate close that switches, and three whole windows from a cool-down of 3. -/
theorem witness_NeverTwoSwitchesWithinThreeCycles :
    (isEvent .evGateClose = true ∧ ∃ t, exec .evGateClose gating = .next t ∧
      t.meas.mmode ≠ gating.meas.mmode) ∧
    (∀ i ∈ List.replicate 12 Instr.evRefTick, restartsMeasurement i = false) ∧
      direct.meas.block = 3 ∧
      (∃ t, runInstrs (List.replicate 12 .evRefTick) direct = .next t) ∧
      cyclesIn (List.replicate 12 .evRefTick) direct ≤ 3 :=
  ⟨⟨by decide, _, rfl, by decide⟩, by decide, by decide, exists_next (by decide), by decide⟩

theorem witness_AlwaysGatedNeverLeavesGated :
    pinned.ctrl.threshSel = .alwaysGated ∧ pinned.meas.mmode = .gated ∧
      (∀ i ∈ [Instr.evGateClose, .setThresh .alwaysGated], ∀ u,
        i = .setThresh u → u = .alwaysGated) ∧
      ∃ t, runInstrs [.evGateClose, .setThresh .alwaysGated] pinned = .next t := by
  refine ⟨rfl, rfl, ?_, exists_next (by decide)⟩
  intro i hi u e
  subst e
  rcases List.mem_cons.mp hi with h | h
  · cases h
  · rcases List.mem_cons.mp h with h | h
    · cases h
      rfl
    · cases h

theorem witness_HysteresisBandIsProper :
    DirectThreshold.t10k.nominal? = some 10000000 ∧
      ((params.pair .t10k).lo ≤ ({ gating.meas with freq := 9900000 } : Meas).freq.toNat ∧
        ({ gating.meas with freq := 9900000 } : Meas).freq.toNat ≤ (params.pair .t10k).hi) ∧
      (params.pair .t10k).lo ≤ ({ gating.meas with freq := 10100000 } : Meas).freq.toNat ∧
        ({ gating.meas with freq := 10100000 } : Meas).freq.toNat ≤ (params.pair .t10k).hi := by
  decide

theorem witness_ResetWritesEveryRegister :
    ∃ t, exec .reset { base with illegal := true } = .next t ∧
      ({ base with illegal := true } : State).illegal = true ∧ t.illegal = false :=
  ⟨_, rfl, rfl, rfl⟩

theorem witness_StepKeepsInvariants :
    (generating.Inv ∧ ∃ t, step generating = .next t) ∧ closing.Inv ∧
      ∃ t, step closing = .next t :=
  ⟨⟨generating_inv, _, rfl⟩, closing_inv, exists_next (by decide)⟩

theorem witness_EveryStimulusCompletesUnderObligations :
    (gating.Inv ∧ gating.meas.mmode = .gated ∧ gating.meas.EdgeFits) ∧
      lastTick.Inv ∧ lastTick.meas.mmode = .direct ∧ lastTick.meas.CaptureFits ∧
      lastTick.meas.winTicks.toNat + 1 = lastTick.params.W ∧ lastTick.meas.WindowFits :=
  ⟨⟨gating_inv, rfl, by unfold Meas.EdgeFits; decide⟩, lastTick_inv, rfl, lastTick_captureFits, rfl,
    lastTick_windowFits⟩

/-- A gate close that switches the mode, an edge, a capture, a tick, an ill-formed `rd`, and a step on an
illegal word. -/
theorem witness_RegistersWrittenOnlyByTheirWriters :
    (∃ t, exec .evGateClose gating = .next t ∧ Instr.evGateClose ≠ .reset ∧
      t.meas.freq ≠ gating.meas.freq ∧ t.meas.mmode ≠ gating.meas.mmode ∧
      t.meas.gateCount ≠ gating.meas.gateCount) ∧
    (∃ t, exec (.evCapture 1 1 true) direct = .next t ∧ t.meas.accEdges ≠ direct.meas.accEdges ∧
      t.meas.accOvf ≠ direct.meas.accOvf) ∧
    (∃ t, exec .evRefTick direct = .next t ∧ t.meas.winTicks ≠ direct.meas.winTicks ∧
      t.meas.act ≠ direct.meas.act) ∧
    (∃ t, exec (.rd 0x07#8) base = .next t ∧ t.illegal ≠ base.illegal) ∧
    ∃ t, step { base with trace := [0x0B00000000000000#64] } = .next t ∧
      t.illegal ≠ base.illegal :=
  ⟨⟨_, rfl, by decide, by decide, by decide, by decide⟩, ⟨_, rfl, by decide, by decide⟩,
    ⟨_, rfl, by decide, by decide⟩, ⟨_, rfl, by decide⟩, _, rfl, by decide⟩

theorem witness_IllegalFlagChangesNothing :
    (({ base with trace := [0x0B00000000000000#64] } : State).trace = 0x0B00000000000000#64 :: [] ∧
      decode 0x0B00000000000000#64 = .illegalHostWord) ∧
    (∃ t, step { base with illegal := true, trace := [0#64] } = .next t ∧
      ∀ w rest, ({ base with illegal := true, trace := [0#64] } : State).trace = w :: rest →
        decode w ≠ .stimulus .reset) ∧
    (∃ t, exec .reset base = .next t) ∧ ∃ t, exec (.rd 0x06#8) base = .next t :=
  ⟨⟨rfl, by decide⟩, ⟨_, rfl, fun _ _ h => by cases h; decide⟩, ⟨_, rfl⟩, exists_next (by decide)⟩

/-- Stored settings in the listed order and in the reverse one, with `SET_GEN` and without. -/
theorem witness_StartUpOrderIsIrrelevant :
    base.SettingsInRange ∧
      (StoredSettings.mk 0 1000000000 5000 .g1s .t10k (some true) .counter).commands.reverse.Perm
        (StoredSettings.mk 0 1000000000 5000 .g1s .t10k (some true) .counter).commands ∧
      (StoredSettings.mk 0 1000000000 5000 .g1s .t10k none .generator).commands.reverse.Perm
        (StoredSettings.mk 0 1000000000 5000 .g1s .t10k none .generator).commands :=
  ⟨base_settings, List.reverse_perm _, List.reverse_perm _⟩

end Sys2Proof.Tests
end

