-- ==== Sys2Proof/Proofs/Registers.lean ====
section
/-! The register map and the number each register reads as (spec/10_state.md R22, R24, R41). -/

namespace Sys2Proof.Machine

/-! ## The register map -/

@[simp] theorem Reg.ofIndex?_index (r : Reg) : Reg.ofIndex? r.index = some r := by
  cases r <;> decide

theorem Reg.index_of_ofIndex? {idx : BitVec 8} {r : Reg} (h : Reg.ofIndex? idx = some r) :
    r.index = idx := by
  unfold Reg.ofIndex? at h
  have found := List.find?_some h
  exact beq_iff_eq.mp found

@[simp] theorem State.regRead_index (s : State) (r : Reg) : s.regRead r.index = s.regValue r := by
  simp [State.regRead]

/-- A register of at most 64 bits that is shown by widening reads as its own number (R22). -/
theorem State.regRead_toNat_of_setWidth {s : State} {r : Reg} {w : Nat} {x : BitVec w}
    (hv : s.regValue r = x.setWidth 64) (hw : w ≤ 64) : (s.regRead r.index).toNat = x.toNat := by
  rw [State.regRead_index, hv, BitVec.toNat_setWidth_of_le hw]

/-- `TRIM` reads sign-extended (R22). -/
theorem State.regRead_trim (s : State) : (s.regRead 0x03#8).toInt = s.trim.toInt :=
  BitVec.toInt_signExtend_of_le (x := s.trim) (by decide)

theorem State.regRead_crystalRef (s : State) : (s.regRead 0x04#8).toNat = s.crystalRef := by
  have bound := (crystalRef_bounds s.trim).2
  show (BitVec.ofNat 64 (Machine.crystalRef s.trim)).toNat = Machine.crystalRef s.trim
  rw [BitVec.toNat_ofNat, Nat.mod_eq_of_lt (by omega)]

theorem State.regRead_gateTicks (s : State) : (s.regRead 0x05#8).toNat = s.gateTicks := by
  have bound := (crystalRef_bounds s.trim).2
  have quotient : s.gateTicks ≤ Machine.crystalRef s.trim := Nat.div_le_self _ _
  show (BitVec.ofNat 64 s.gateTicks).toNat = s.gateTicks
  rw [BitVec.toNat_ofNat, Nat.mod_eq_of_lt (by omega)]

/-- `STATUS` is the flag at bit 0 and 0 above it (R30). -/
theorem State.regRead_status (s : State) : s.regRead 0x06#8 = if s.illegal then 1 else 0 := by
  show (BitVec.ofBool s.illegal).setWidth 64 = _
  cases s.illegal <;> rfl

/-! ## `CTRL` and `MEAS_STATUS` by their fields -/

/-- Fields set side by side add up, the upper one scaled by the lower one's width. -/
theorem toNat_append_eq_add {m n : Nat} (x : BitVec m) (y : BitVec n) :
    (x ++ y).toNat = x.toNat * 2 ^ n + y.toNat := by
  rw [BitVec.toNat_append, ← Nat.shiftLeft_add_eq_or_of_lt y.isLt, Nat.shiftLeft_eq]

/-- `CTRL` as the sum of its fields at their places (R24). -/
theorem Ctrl.image_toNat (c : Ctrl) :
    c.image.toNat = c.opmode.code.toNat + 2 * c.genEn.toNat + 4 * c.gateSel.code.toNat
      + 16 * c.threshSel.code.toNat := by
  simp only [Ctrl.image, toNat_append_eq_add, BitVec.toNat_ofBool]
  omega

/-- `MEAS_STATUS` as the sum of its fields at their places (R41). -/
theorem Meas.statusImage_toNat (m : Meas) :
    m.statusImage.toNat = m.mmode.code.toNat + 2 * m.block.toNat + 8 * m.stale.toNat
      + 16 * m.dutyValid.toNat + 32 * m.act.toNat + 64 * m.accOvf.toNat := by
  simp only [Meas.statusImage, toNat_append_eq_add, BitVec.toNat_ofBool]
  omega

theorem State.regRead_ctrl (s : State) :
    (s.regRead 0x00#8).toNat = s.ctrl.opmode.code.toNat + 2 * s.ctrl.genEn.toNat
      + 4 * s.ctrl.gateSel.code.toNat + 16 * s.ctrl.threshSel.code.toNat :=
  (State.regRead_toNat_of_setWidth (r := .ctrl) rfl (by decide)).trans s.ctrl.image_toNat

theorem State.regRead_measStatus (s : State) :
    (s.regRead 0x22#8).toNat = s.meas.mmode.code.toNat + 2 * s.meas.block.toNat
      + 8 * s.meas.stale.toNat + 16 * s.meas.dutyValid.toNat + 32 * s.meas.act.toNat
      + 64 * s.meas.accOvf.toNat :=
  (State.regRead_toNat_of_setWidth (r := .measStatus) rfl (by decide)).trans
    s.meas.statusImage_toNat

/-- Each field of `CTRL` can be taken out of its number again: no field runs into the next (R24). -/
theorem State.regRead_ctrl_fields (s : State) :
    (s.regRead 0x00#8).toNat % 2 = s.ctrl.opmode.code.toNat ∧
      (s.regRead 0x00#8).toNat / 2 % 2 = s.ctrl.genEn.toNat ∧
      (s.regRead 0x00#8).toNat / 4 % 4 = s.ctrl.gateSel.code.toNat ∧
      (s.regRead 0x00#8).toNat / 16 = s.ctrl.threshSel.code.toNat := by
  have hmode := s.ctrl.opmode.code.isLt
  have hgen := s.ctrl.genEn.toNat_lt
  have hgate := s.ctrl.gateSel.code.isLt
  rw [State.regRead_ctrl]
  omega

/-- `MMODE` is bit 0 of `MEAS_STATUS` (R41). -/
theorem State.regRead_mmode (s : State) :
    (s.regRead 0x22#8).toNat % 2 = s.meas.mmode.code.toNat := by
  have hmode := s.meas.mmode.code.isLt
  rw [State.regRead_measStatus]
  omega

/-- Settles O11: each plain register reads by widening, and the packed ones by their fields. -/
theorem registerReadValues : Obligations.RegisterReadValues := by
  intro s
  obtain ⟨opmode, genEn, gateSel, threshSel⟩ := s.regRead_ctrl_fields
  have plain : ∀ (r : Reg) {w : Nat} {x : BitVec w}, s.regValue r = x.setWidth 64 → w ≤ 64 →
      (s.regRead r.index).toNat = x.toNat := fun _ => State.regRead_toNat_of_setWidth
  refine ⟨s.regRead_ctrl, plain .freqSet rfl (by decide), plain .dutySet rfl (by decide),
    s.regRead_trim, s.regRead_crystalRef, s.regRead_gateTicks, ?status,
    plain .planRefDiv rfl (by decide), plain .planInt rfl (by decide),
    plain .planFrac rfl (by decide), rfl, plain .planHwDiv rfl (by decide),
    plain .planPresc rfl (by decide), plain .planPeriod rfl (by decide),
    plain .planCompare rfl (by decide), plain .planOutMode rfl (by decide),
    plain .achFreq rfl (by decide), plain .achDuty rfl (by decide), rfl, rfl,
    s.regRead_measStatus, plain .gateCount rfl (by decide), plain .gateOvf rfl (by decide),
    rfl, rfl, plain .accEdges rfl (by decide), plain .winTicks rfl (by decide),
    plain .zeroTicks rfl (by decide), opmode.trans ?opmode, genEn.trans ?genEn,
    gateSel.trans ?gateSel, threshSel.trans ?threshSel,
    (plain .planOutMode rfl (by decide)).trans ?outMode, s.regRead_mmode.trans ?mmode⟩
  case status =>
    rw [State.regRead_status]
    cases s.illegal <;> rfl
  case opmode => cases s.ctrl.opmode <;> rfl
  case genEn => cases s.ctrl.genEn <;> rfl
  case gateSel => cases s.ctrl.gateSel <;> rfl
  case threshSel => cases s.ctrl.threshSel <;> rfl
  case outMode => cases s.plan.outMode <;> rfl
  case mmode => cases s.meas.mmode <;> rfl

end Sys2Proof.Machine
end

