-- ==== Sys2Proof/Proofs/OutputStage.lean ====
section
/-! The division of the output stage: the output divider is a power of two, and neither path loses a
part of it (spec/41_synthesizer.md R122, R133, R134; spec/10_state.md R35). -/

namespace Sys2Proof.Machine

/-- The loop of R122 only ever doubles. -/
theorem outDivLoop_eq_two_pow (P f fuel k : Nat) : ∃ j, outDivLoop P f fuel (2 ^ k) = 2 ^ j := by
  induction fuel generalizing k with
  | zero => exact ⟨k, rfl⟩
  | succ fuel ih =>
    rw [outDivLoop]
    split
    · exact ih (k + 1)
    · exact ⟨k, rfl⟩

/-- The output divider is a power of two (R122). -/
theorem outDivider_eq_two_pow (P f : Nat) : ∃ k, outDivider P f = 2 ^ k :=
  outDivLoop_eq_two_pow P f loopFuel 0

/-- Halving a power of two that exceeds the counter is exact, so the prescaler and the period keep
their product (R134). -/
theorem prescale_mul (fuel k presc : Nat) :
    (prescale fuel (2 ^ k) presc).1 * (prescale fuel (2 ^ k) presc).2 = presc * 2 ^ k := by
  induction fuel generalizing k presc with
  | zero => rfl
  | succ fuel ih =>
    rw [prescale]
    split
    · next large =>
      cases k with
      | zero => exact absurd large (by decide)
      | succ k =>
        rw [Nat.pow_succ, Nat.mul_div_cancel _ (by decide), ih]
        ring
    · rfl

theorem outStage_direct {od : Nat} (h : od ≤ 2) (d : Nat) : outStage od d = directStage od d :=
  if_pos h

theorem outStage_pwm {od : Nat} (h : 2 < od) (d : Nat) : outStage od d = pwmStage od d :=
  if_neg (Nat.not_le.mpr h)

/-- On the PWM path the timer divides by the whole of a power of two (R134). -/
theorem pwmStage_presc_mul_period (k d : Nat) :
    (pwmStage (2 ^ k) d).presc * (pwmStage (2 ^ k) d).period = 2 ^ k :=
  (prescale_mul loopFuel k 1).trans (Nat.one_mul _)

/-- R35 for the plan that the synthesizer computes, at any floor and settings. -/
theorem synthesize_stage_divides (P f d c : Nat) :
    ((synthesize P f d c).outDiv ≤ 2 →
      (synthesize P f d c).stage.hwDiv = (synthesize P f d c).outDiv) ∧
    (2 < (synthesize P f d c).outDiv → (synthesize P f d c).stage.hwDiv = 1 ∧
      (synthesize P f d c).stage.hwDiv * (synthesize P f d c).stage.presc
        * (synthesize P f d c).stage.period = (synthesize P f d c).outDiv) := by
  have outDiv_eq : (synthesize P f d c).outDiv = outDivider P f := rfl
  have stage_eq : (synthesize P f d c).stage = outStage (outDivider P f) d := rfl
  obtain ⟨k, power⟩ := outDivider_eq_two_pow P f
  rw [stage_eq, outDiv_eq, power]
  constructor
  · intro direct
    rw [outStage_direct direct]
    rfl
  · intro pwm
    have hwDiv : (pwmStage (2 ^ k) d).hwDiv = 1 := rfl
    rw [outStage_pwm pwm, hwDiv, Nat.one_mul]
    exact ⟨rfl, pwmStage_presc_mul_period k d⟩

/-- The OFF plan holds the pin low (R138, R242). -/
theorem Plan.pin_reset : Plan.reset.pin = .low := rfl

/-- Settles O27: a current plan is the synthesizer's, whose output stage divides by `PLAN_OUTDIV`, or
the OFF plan. -/
theorem outputStageDividesByOutputDivider : Obligations.OutputStageDividesByOutputDivider := by
  rintro s - ⟨on, off⟩
  constructor
  · intro running
    have divides :=
      synthesize_stage_divides s.params.P s.freqSet.toNat s.dutySet.toNat s.crystalRef
    rwa [← on running] at divides
  · intro stopped
    have reset : s.plan = Plan.reset := off stopped
    exact ⟨congrArg Plan.hwDiv reset, (congrArg Plan.pin reset).trans Plan.pin_reset⟩

end Sys2Proof.Machine
end

