-- ==== Sys2Proof/Proofs/IllegalFlag.lean ====
section
/-! `STATUS.ILLEGAL` (spec/10_state.md R30): who sets and clears it, and that nothing reads it but
`RD 0x06`. -/

namespace Sys2Proof.Machine

/-! ## What a step can do -/

/-- A step that completes rests, runs the operation of the next word, or flags that word (R95). -/
theorem step_eq_next_cases {s t : State} (h : step s = .next t) :
    (s.trace = [] ∧ t = s) ∨
    ∃ w rest, s.trace = w :: rest ∧
      ((∃ i, decode w = .stimulus i ∧ exec i { s with trace := rest } = .next t) ∨
        (decode w = .illegalHostWord ∧
          t = State.illegalWord (isRdWord w) { s with trace := rest })) := by
  cases e : s.trace with
  | nil =>
    rw [step_nil e] at h
    cases h
    exact .inl ⟨rfl, rfl⟩
  | cons w rest =>
    rw [step_cons e] at h
    refine .inr ⟨w, rest, rfl, ?_⟩
    rcases accept_cases w { s with trace := rest } with ⟨i, hi, a⟩ | ⟨hw, a⟩ | ⟨-, a⟩ <;>
      rw [a] at h
    · exact .inl ⟨i, hi, h⟩
    · cases h
      exact .inr ⟨hw, rfl⟩
    · cases h

theorem accept_illegalHostWord {w : Word} (h : decode w = .illegalHostWord) (s : State) :
    accept w s = .next (s.illegalWord (isRdWord w)) := by
  simp only [accept, h]

/-! ## The state with the flag given, and the meanings that do not look at it -/

/-- `s` with `STATUS.ILLEGAL` at `b`. -/
def State.withIllegal (b : Bool) (s : State) : State := { s with illegal := b }

@[simp] theorem State.withIllegal_illegal (b : Bool) (s : State) :
    (s.withIllegal b).illegal = b := rfl

/-- The meaning has the same outcome with either value of the flag, but for the flag, which it keeps. -/
def IllegalBlind (f : State → Result) : Prop :=
  ∀ (b : Bool) {s t : State}, f s = .next t → f (s.withIllegal b) = .next (t.withIllegal b)

/-- The update of the settings or of `CTRL` leaves the flag alone and does not look at it. -/
def PassesIllegal (u : State → State) : Prop :=
  ∀ (b : Bool) (s : State), u (s.withIllegal b) = (u s).withIllegal b

/-- A meaning that does not look at the flag keeps it. -/
theorem IllegalBlind.keeps {f : State → Result} (hf : IllegalBlind f) {s t : State}
    (h : f s = .next t) : t.illegal = s.illegal := by
  have same : f s = .next (t.withIllegal s.illegal) := hf s.illegal h
  rw [h] at same
  have fixed : t = t.withIllegal s.illegal := Host.Outcome.next.inj same
  rw [fixed, State.withIllegal_illegal]

/-- `resynth` and the rest of the generator side (R213). -/
theorem illegalBlind_generatorChange {u : State → State} (hu : PassesIllegal u) :
    IllegalBlind fun s => ofFit (u s).generatorChange := by
  intro b s t h
  simp only [ofFit_eq_next_iff] at h ⊢
  rw [hu, State.generatorChange_eq_some_iff]
  rcases State.generatorChange_eq_some_iff.mp h with ⟨counter, rfl⟩ | ⟨generator, p, plan, rfl⟩
  · exact .inl ⟨counter, rfl⟩
  · exact .inr ⟨generator, p, plan, rfl⟩

/-- A change of `TRIM`, on both sides (R213, R214). -/
theorem illegalBlind_trimChange {u : State → State} (hu : PassesIllegal u) :
    IllegalBlind fun s => ofFit (u s).trimChange := by
  intro b s t h
  simp only [ofFit_eq_next_iff] at h ⊢
  rw [hu, State.trimChange_eq_some_iff]
  rcases State.trimChange_eq_some_iff.mp h with ⟨counter, rfl⟩ | ⟨generator, p, plan, rfl⟩
  · exact .inl ⟨counter, rfl⟩
  · exact .inr ⟨generator, p, plan, rfl⟩

/-- `meas_start` in Counter mode (R214). -/
theorem passesIllegal_counterChange : PassesIllegal State.counterChange := by
  intro b s
  have mode : (s.withIllegal b).ctrl.opmode = s.ctrl.opmode := rfl
  unfold State.counterChange
  rw [mode]
  cases s.ctrl.opmode <;> rfl

theorem illegalBlind_counterChange {u : State → State} (hu : PassesIllegal u) :
    IllegalBlind fun s => .next (u s).counterChange := by
  intro b s t h
  cases h
  exact congrArg Host.Outcome.next ((congrArg _ (hu b s)).trans (passesIllegal_counterChange b _))

/-- A measurement event: what it does may depend on the state, but not on the flag (R150). -/
theorem illegalBlind_onEvent {mode : MeasMode} {act : State → Meas → Option Meas}
    (hact : ∀ b s, act (s.withIllegal b) = act s) :
    IllegalBlind fun s => s.onEvent mode (act s) := by
  intro b s t h
  simp only [hact, State.onEvent_eq_next_iff] at h ⊢
  rcases h with ⟨dead, rfl⟩ | ⟨live, m, hm, rfl⟩
  · exact .inl ⟨dead, rfl⟩
  · exact .inr ⟨live, m, hm, rfl⟩

/-! ## The sixteen stimuli -/

/-- No stimulus but `RD` and `RESET` looks at the flag or changes it (R30). -/
theorem exec_illegalBlind {i : Instr} (not_rd : ∀ idx, i ≠ .rd idx) (not_reset : i ≠ .reset) :
    IllegalBlind (exec i) := by
  cases i with
  | nop => exact fun b s t h => by cases h; rfl
  | setFreq v => exact illegalBlind_generatorChange fun _ _ => rfl
  | setDuty v => exact illegalBlind_generatorChange fun _ _ => rfl
  | setTrim v => exact illegalBlind_trimChange fun _ _ => rfl
  | setGate g => exact illegalBlind_counterChange fun _ _ => rfl
  | setThresh t => exact illegalBlind_counterChange fun _ _ => rfl
  | setGen on => exact illegalBlind_generatorChange fun _ _ => rfl
  | setMode m => exact illegalBlind_generatorChange fun _ _ => rfl
  | trimStep cursor dir => exact illegalBlind_trimChange fun _ _ => rfl
  | synth => exact illegalBlind_generatorChange (u := id) fun _ _ => rfl
  | rd idx => exact absurd rfl (not_rd idx)
  | evEdge => exact illegalBlind_onEvent fun _ _ => rfl
  | evGateClose => exact illegalBlind_onEvent fun _ _ => rfl
  | evCapture period pulse ovf => exact illegalBlind_onEvent fun _ _ => rfl
  | evRefTick => exact illegalBlind_onEvent fun _ _ => rfl
  | reset => exact absurd rfl not_reset

/-- `RD` of a mapped index: the register on the read port (R211). -/
theorem exec_rd_of_mapped {idx : BitVec 8} {r : Reg} (h : Reg.ofIndex? idx = some r) (s : State) :
    exec (.rd idx) s = .next { s with readPort := s.regValue r } := by
  show execRd idx s = _
  simp only [execRd, h]

/-- `RD` of an unmapped index: the illegal word's effect (R63). -/
theorem exec_rd_of_unmapped {idx : BitVec 8} (h : Reg.ofIndex? idx = none) (s : State) :
    exec (.rd idx) s = .next (s.illegalWord true) := by
  show execRd idx s = _
  simp only [execRd, h]

/-- No register but `STATUS` shows the flag (R30). -/
theorem State.regValue_withIllegal {r : Reg} (h : r ≠ .status) (b : Bool) (s : State) :
    (s.withIllegal b).regValue r = s.regValue r := by
  cases r with
  | status => exact absurd rfl h
  | _ => rfl

/-- No completed stimulus but `RESET` clears the flag (R30). -/
theorem exec_keeps_illegal {i : Instr} {s t : State} (h : exec i s = .next t) (not_reset : i ≠ .reset)
    (set : s.illegal = true) : t.illegal = true := by
  cases i with
  | rd idx =>
    cases hr : Reg.ofIndex? idx with
    | none =>
      rw [exec_rd_of_unmapped hr] at h
      cases h
      rfl
    | some r =>
      rw [exec_rd_of_mapped hr] at h
      cases h
      exact set
  | reset => exact absurd rfl not_reset
  | _ => exact (IllegalBlind.keeps (exec_illegalBlind (by simp) (by simp)) h).trans set

/-- No step clears the flag unless it accepts `RESET` (R30). -/
theorem step_keeps_illegal {s t : State} (h : step s = .next t) (set : s.illegal = true)
    (not_reset : ∀ w rest, s.trace = w :: rest → decode w ≠ .stimulus .reset) :
    t.illegal = true := by
  rcases step_eq_next_cases h with ⟨-, rfl⟩ | ⟨w, rest, trace, ⟨i, hw, hi⟩ | ⟨-, rfl⟩⟩
  · exact set
  · refine exec_keeps_illegal hi ?_ set
    rintro rfl
    exact not_reset w rest trace hw
  · rfl

/-- Every stimulus has the same outcome with either value of the flag, but for the flag itself and what
`RD 0x06` shows (R30). -/
theorem exec_withIllegal {i : Instr} {s t : State} (b : Bool) (h : exec i s = .next t) :
    ∃ t', exec i (s.withIllegal b) = .next t' ∧
      { t' with illegal := t.illegal, readPort := t.readPort } = t ∧
      (i ≠ .rd 0x06#8 → t'.readPort = t.readPort) := by
  cases i with
  | rd idx =>
    cases hr : Reg.ofIndex? idx with
    | none =>
      rw [exec_rd_of_unmapped hr] at h ⊢
      cases h
      exact ⟨_, rfl, rfl, fun _ => rfl⟩
    | some r =>
      rw [exec_rd_of_mapped hr] at h ⊢
      cases h
      refine ⟨_, rfl, rfl, fun ne => State.regValue_withIllegal ?_ b s⟩
      rintro rfl
      exact ne (congrArg Instr.rd (Reg.index_of_ofIndex? hr).symm)
  | reset => exact ⟨t, h, rfl, fun _ => rfl⟩
  | _ => exact ⟨t.withIllegal b, exec_illegalBlind (by simp) (by simp) b h, rfl, fun _ => rfl⟩

/-- Settles O57: an illegal word's effect, the step's cases, the read of `STATUS`, and the
noninterference of `exec`. -/
theorem illegalFlagChangesNothing : Obligations.IllegalFlagChangesNothing := by
  refine ⟨?_, fun s t => step_keeps_illegal, ?_, State.regRead_status,
    fun i s t b => exec_withIllegal b⟩
  · intro s w rest trace illegal
    exact ⟨_, (step_cons trace).trans (accept_illegalHostWord illegal _), rfl⟩
  · intro s t h
    cases h
    rfl

end Sys2Proof.Machine
end

