-- ==== Sys2Proof/Proofs/Encoding.lean ====
section
/-! The decoding procedure and the match and mask rows select the same words: those whose `OPC` is the
row's and whose `ARG` is in the format's legal set (spec/30_encoding.md R83, R91, R94, R96). -/

namespace Sys2Proof

/-! ## The legal arguments -/

/-- The legal set of an opcode's format, the "legal ARG" column of R83. -/
def Opcode.LegalArg : Opcode → Arg → Prop
  | .nop, a | .synth, a | .evEdge, a | .evGateClose, a | .evRefTick, a | .reset, a => a = 0
  | .setFreq, _ | .setDuty, _ | .setTrim, _ => True
  | .setGate, a => a.toNat ≤ 3
  | .setThresh, a => a.toNat ≤ 4
  | .setGen, a | .setMode, a => a.toNat ≤ 1
  | .trimStep, a => a.toNat ≤ 15
  | .rd, a => a.toNat ≤ 255 ∧ mappedIndex (a.extractLsb' 0 8) = true
  | .evCapture, a => a.toNat < 2 ^ 49

/-- A lookup by a chain of tests finds something when one of its tests succeeds. -/
theorem isSome_ite_some {α : Type} {p : Prop} [Decidable p] {x : α} {rest : Option α} :
    (if p then some x else rest).isSome = true ↔ p ∨ rest.isSome = true := by
  split <;> simp [*]

theorem GateTime.ofCode?_isSome (e : Arg) : (GateTime.ofCode? e).isSome = true ↔ e.toNat ≤ 3 := by
  simp only [GateTime.ofCode?, isSome_ite_some, Option.isSome_none, Bool.false_eq_true, or_false]
  bv_omega

theorem DirectThreshold.ofCode?_isSome (e : Arg) :
    (DirectThreshold.ofCode? e).isSome = true ↔ e.toNat ≤ 4 := by
  simp only [DirectThreshold.ofCode?, isSome_ite_some, Option.isSome_none, Bool.false_eq_true,
    or_false]
  bv_omega

theorem OpMode.ofCode?_isSome (e : Arg) : (OpMode.ofCode? e).isSome = true ↔ e.toNat ≤ 1 := by
  simp only [OpMode.ofCode?, isSome_ite_some, Option.isSome_none, Bool.false_eq_true, or_false]
  bv_omega

theorem onOff?_isSome (e : Arg) : (onOff? e).isSome = true ↔ e.toNat ≤ 1 := by
  simp only [onOff?, isSome_ite_some, Option.isSome_none, Bool.false_eq_true, or_false]
  bv_omega

@[simp] theorem noOperand_eq_some_iff {i j : Instr} {a : Arg} :
    noOperand i a = some j ↔ a = 0 ∧ i = j := by
  simp [noOperand]

theorem noOperand_isSome (i : Instr) (a : Arg) : (noOperand i a).isSome = true ↔ a = 0 := by
  simp [noOperand]

/-- An argument assembles to an operation exactly when it is in the format's legal set (R83). -/
theorem assemble_isSome (op : Opcode) (a : Arg) :
    (assemble op a).isSome = true ↔ op.LegalArg a := by
  cases op with
  | nop | synth | evEdge | evGateClose | evRefTick | reset => exact noOperand_isSome _ a
  | setFreq | setDuty | setTrim => exact iff_of_true rfl trivial
  | setGate => simp [assemble, Opcode.LegalArg, GateTime.ofCode?_isSome]
  | setThresh => simp [assemble, Opcode.LegalArg, DirectThreshold.ofCode?_isSome]
  | setGen => simp [assemble, Opcode.LegalArg, onOff?_isSome]
  | setMode => simp [assemble, Opcode.LegalArg, OpMode.ofCode?_isSome]
  | trimStep => simp [assemble, Opcode.LegalArg, BitVec.le_def]
  | rd => simp [assemble, Opcode.LegalArg, BitVec.le_def]
  | evCapture => simp [assemble, Opcode.LegalArg, BitVec.lt_def]

/-- What an opcode's argument assembles to has that opcode (R96). -/
theorem opcode_of_assemble {op : Opcode} {a : Arg} {i : Instr} (h : assemble op a = some i) :
    i.opcode = op := by
  cases op with
  | nop | synth | evEdge | evGateClose | evRefTick | reset =>
    obtain ⟨-, rfl⟩ := noOperand_eq_some_iff.mp h
    rfl
  | setFreq | setDuty | setTrim =>
    cases h
    rfl
  | setGate | setThresh | setGen | setMode =>
    obtain ⟨_, -, rfl⟩ := Option.map_eq_some_iff.mp h
    rfl
  | trimStep | rd | evCapture =>
    obtain ⟨-, ha⟩ := Option.ite_none_right_eq_some.mp h
    cases ha
    rfl

/-- The decoding procedure selects by the number of an opcode and its legal arguments (R83, R96). -/
theorem exists_decode_opcode_iff {w : Word} {op : Opcode} :
    (∃ i, decode w = .stimulus i ∧ i.opcode = op) ↔
      opcField w = op.code ∧ op.LegalArg (argField w) := by
  rw [← assemble_isSome, Option.isSome_iff_exists]
  constructor
  · rintro ⟨i, hw, rfl⟩
    obtain ⟨op, ho, ha⟩ := decode_eq_stimulus_iff.mp hw
    rw [opcode_of_assemble ha]
    exact ⟨(Opcode.code_of_ofCode? ho).symm, i, ha⟩
  · rintro ⟨ho, i, ha⟩
    have found : Opcode.ofCode? (opcField w) = some op := by rw [ho, Opcode.ofCode?_code]
    exact ⟨i, decode_eq_stimulus_iff.mpr ⟨op, found, ha⟩, opcode_of_assemble ha⟩

/-! ## The match and mask rows -/

/-- How many low bits of `ARG` the mask of a row leaves free (R91). -/
def Opcode.freeBits : Opcode → Nat
  | .nop | .synth | .evEdge | .evGateClose | .evRefTick | .reset => 0
  | .setFreq | .setDuty | .setTrim => 56
  | .setGate => 2
  | .setThresh => 3
  | .setGen | .setMode => 1
  | .trimStep => 4
  | .rd => 8
  | .evCapture => 49

/-- A row's match is its opcode's number with argument 0 (R91). -/
theorem Opcode.pattern_eq (op : Opcode) : op.pattern = mkWord op.code 0 := by
  cases op <;> decide

/-- A row's mask fixes the whole `OPC` and the bits of `ARG` above the free ones (R91). -/
theorem Opcode.mask_eq (op : Opcode) :
    op.mask = mkWord (BitVec.allOnes 8) (BitVec.allOnes 56 <<< op.freeBits) := by
  cases op <;> decide

theorem mkWord_and (o o' : Opc) (a a' : Arg) :
    mkWord o a &&& mkWord o' a' = mkWord (o &&& o') (a &&& a') :=
  BitVec.and_append

theorem mkWord_inj {o o' : Opc} {a a' : Arg} : mkWord o a = mkWord o' a' ↔ o = o' ∧ a = a' := by
  constructor
  · intro h
    exact ⟨by simpa using congrArg opcField h, by simpa using congrArg argField h⟩
  · rintro ⟨rfl, rfl⟩
    rfl

/-- The bits from `k` up are all 0 exactly in the numbers below `2 ^ k`. -/
theorem and_allOnes_shiftLeft_eq_zero_iff {n k : Nat} (a : BitVec n) :
    a &&& (BitVec.allOnes n <<< k) = 0 ↔ a.toNat < 2 ^ k := by
  constructor
  · intro h
    refine Nat.lt_pow_two_of_testBit _ fun i hi => ?_
    have bit : (a &&& (BitVec.allOnes n <<< k)).getLsbD i = false := by simp [h]
    rw [BitVec.testBit_toNat]
    by_cases hn : i < n
    · simpa [hn, Nat.not_lt.mpr hi, show i - k < n by omega] using bit
    · exact BitVec.getLsbD_of_ge _ _ (by omega)
  · intro h
    ext i hi
    by_cases hk : i < k
    · simp [hk]
    · have high : a.toNat.testBit i = false :=
        Nat.testBit_lt_two_pow (h.trans_le (Nat.pow_le_pow_right (by decide) (by omega)))
      rw [BitVec.testBit_toNat, BitVec.getLsbD_eq_getElem hi] at high
      simp [high]

/-- A row matches the words of its opcode whose argument has free bits only (R91). -/
theorem mkWord_and_mask_eq_pattern_iff {op : Opcode} {o : Opc} {a : Arg} :
    mkWord o a &&& op.mask = op.pattern ↔ o = op.code ∧ a.toNat < 2 ^ op.freeBits := by
  rw [op.mask_eq, op.pattern_eq, mkWord_and, mkWord_inj, BitVec.and_allOnes,
    and_allOnes_shiftLeft_eq_zero_iff]

/-- The low bits of a word are those of its argument (R80). -/
theorem extractLsb'_mkWord {n : Nat} (h : n ≤ 56) (o : Opc) (a : Arg) :
    (mkWord o a).extractLsb' 0 n = a.extractLsb' 0 n := by
  unfold mkWord
  exact BitVec.extractLsb'_append_eq_of_add_le (by omega)

/-- The free bits and the further constraint of a row say what the format's legal set says (R83, R91). -/
theorem Opcode.legalArg_iff (op : Opcode) (o : Opc) (a : Arg) :
    op.LegalArg a ↔ a.toNat < 2 ^ op.freeBits ∧ op.constraint (mkWord o a) = true := by
  cases op with
  | nop | synth | evEdge | evGateClose | evRefTick | reset =>
    simp [Opcode.LegalArg, Opcode.freeBits, Opcode.constraint, BitVec.toNat_eq]
  | setFreq | setDuty | setTrim => exact iff_of_true trivial ⟨a.isLt, rfl⟩
  | evCapture => exact (and_iff_left rfl).symm
  | setGate | setGen | setMode | trimStep =>
    simp only [Opcode.LegalArg, Opcode.freeBits, Opcode.constraint, and_true]
    omega
  | setThresh =>
    simp only [Opcode.LegalArg, Opcode.freeBits, Opcode.constraint, decide_eq_true_eq,
      extractLsb'_mkWord (show 3 ≤ 56 by decide), BitVec.le_def, BitVec.extractLsb'_toNat,
      Nat.shiftRight_zero, BitVec.reduceToNat]
    omega
  | rd =>
    rw [Opcode.constraint, extractLsb'_mkWord (by decide)]
    exact and_congr_left' Nat.lt_succ_iff.symm

/-- The row of `op` selects the words with the number of `op` and an argument legal for it (R91). -/
theorem Opcode.selects_mkWord_iff {op : Opcode} {o : Opc} {a : Arg} :
    op.selects (mkWord o a) = true ↔ o = op.code ∧ op.LegalArg a := by
  rw [op.legalArg_iff o, ← and_assoc, ← mkWord_and_mask_eq_pattern_iff]
  simp [Opcode.selects]

/-- A row selects the words that decode to an operation of its opcode (R91, R96). -/
theorem exists_decode_opcode_iff_selects {w : Word} {op : Opcode} :
    (∃ i, decode w = .stimulus i ∧ i.opcode = op) ↔ op.selects w = true := by
  rw [exists_decode_opcode_iff, ← Opcode.selects_mkWord_iff, mkWord_fields]

/-- No two rows select one word (R91). -/
theorem Opcode.eq_of_selects {w : Word} {op op' : Opcode} (h : op.selects w = true)
    (h' : op'.selects w = true) : op = op' := by
  obtain ⟨i, hi, rfl⟩ := exists_decode_opcode_iff_selects.mpr h
  obtain ⟨j, hj, rfl⟩ := exists_decode_opcode_iff_selects.mpr h'
  cases hi.symm.trans hj
  rfl

/-- Settles O4: both the decoder and the rows select by the number and the legal arguments of R83. -/
theorem matchMaskRowsSelectOperations : Obligations.MatchMaskRowsSelectOperations :=
  ⟨fun _ _ => exists_decode_opcode_iff_selects, fun _ _ _ => Opcode.eq_of_selects⟩

/-! ## Words that no row selects -/

/-- A word that no row selects decodes to no operation (R96). -/
theorem decode_ne_stimulus_of_no_row {w : Word} (h : ∀ op : Opcode, op.selects w = false)
    (i : Instr) : decode w ≠ .stimulus i := by
  intro hw
  have selected := exists_decode_opcode_iff_selects.mp ⟨i, hw, rfl⟩
  rw [h] at selected
  cases selected

/-- Different opcodes have different numbers (R90). -/
theorem Opcode.code_inj {op op' : Opcode} : op.code = op'.code ↔ op = op' := by
  constructor
  · intro h
    have found := congrArg Opcode.ofCode? h
    rw [Opcode.ofCode?_code, Opcode.ofCode?_code] at found
    exact Option.some.inj found
  · exact congrArg Opcode.code

/-- No row selects a word of a defined opcode exactly when its argument is outside the legal set (R93,
R94). -/
theorem no_row_selects_code_iff (op : Opcode) (a : Arg) :
    (∀ op' : Opcode, op'.selects (mkWord op.code a) = false) ↔ ¬ op.LegalArg a := by
  simp [← Bool.not_eq_true, Opcode.selects_mkWord_iff, Opcode.code_inj]

/-- No row selects a word of an undefined opcode (R93, R94). -/
theorem no_row_selects_of_undefined {o : Opc} (h : Opcode.ofCode? o = none) (a : Arg) (op : Opcode) :
    op.selects (mkWord o a) = false := by
  rw [← Bool.not_eq_true, Opcode.selects_mkWord_iff]
  rintro ⟨rfl, -⟩
  rw [Opcode.ofCode?_code] at h
  cases h

/-- The undefined numbers with `SRC = 1` (R90, R94). -/
theorem Opcode.ofCode?_eq_none_of_event {o : Opc} (src : 0x80 ≤ o.toNat) :
    Opcode.ofCode? o = none ↔ 0x84 ≤ o.toNat ∧ o.toNat ≤ 0xFE := by
  have all : ∀ c : Opc, 0x80 ≤ c.toNat →
      (Opcode.ofCode? c = none ↔ 0x84 ≤ c.toNat ∧ c.toNat ≤ 0xFE) := by decide
  exact all o src

/-- R94: the malformed words, among those with `SRC = 1`. -/
theorem no_row_selects_event_iff {o : Opc} (src : 0x80 ≤ o.toNat) (a : Arg) :
    (∀ op : Opcode, op.selects (mkWord o a) = false) ↔
      (0x84 ≤ o.toNat ∧ o.toNat ≤ 0xFE) ∨
      (o = 0x82#8 ∧ 2 ^ 49 ≤ a.toNat) ∨
      ((o = 0x80#8 ∨ o = 0x81#8 ∨ o = 0x83#8 ∨ o = 0xFF#8) ∧ a ≠ 0) := by
  cases found : Opcode.ofCode? o with
  | none =>
    exact iff_of_true (no_row_selects_of_undefined found a)
      (.inl ((Opcode.ofCode?_eq_none_of_event src).mp found))
  | some op =>
    obtain rfl := Opcode.code_of_ofCode? found
    rw [no_row_selects_code_iff]
    cases op with
    | evEdge | evGateClose | evRefTick | reset => simp [Opcode.LegalArg, Opcode.code]
    | evCapture => simp [Opcode.LegalArg, Opcode.code]
    | _ => exact absurd src (by decide)

end Sys2Proof

namespace Sys2Proof.Machine

/-- Accepting a word with `SRC = 1` that no row selects is refused, whatever the state (R94). -/
theorem accept_malformed {w : Word} (src : srcTag w = true)
    (no_row : ∀ op : Opcode, op.selects w = false) (s : State) :
    accept w s = .refused .malformedEvent := by
  rcases accept_cases w s with ⟨i, hi, -⟩ | ⟨hw, -⟩ | ⟨-, refused⟩
  · exact absurd hi (decode_ne_stimulus_of_no_row no_row i)
  · rw [decode_eq_illegal_src hw] at src
    cases src
  · exact refused

/-- Settles O6: the step accepts the word, which decodes to nothing and is not the host's; the words in
question are those whose number or argument R83 and R90 leave out. -/
theorem malformedEventWordIsRefused : Obligations.MalformedEventWordIsRefused :=
  ⟨fun _ _ _ trace src no_row => (step_cons trace).trans (accept_malformed src no_row _),
    fun _ arg src => no_row_selects_event_iff src arg⟩

/-! ## The command port -/

/-- The command port leaves `SRC` at 0 (R81). -/
theorem srcTag_hostWord (p : BitVec 63) : srcTag (hostWord p) = false := by
  simp [srcTag, hostWord]

/-- A word with `SRC = 0` decodes to a command of the host, if to an operation at all (R81, R90). -/
theorem agent_of_decode_host {w : Word} {i : Instr} (src : srcTag w = false)
    (h : decode w = .stimulus i) : i.opcode.agent = .host := by
  have code : opcField w = i.opcode.code := (exists_decode_opcode_iff.mp ⟨i, h, rfl⟩).1
  rw [srcTag_eq_msb, code] at src
  exact (Laws.opcode_srcBit i.opcode).mp src

/-- Settles O7: the port's word has `SRC = 0`, a malformed word has not, and the number of a decoded
operation carries `SRC`. -/
theorem hostCannotForgeEvents : Obligations.HostCannotForgeEvents := by
  intro p
  have src : srcTag (hostWord p) = false := srcTag_hostWord p
  refine ⟨src, fun malformed => ?_, fun i => agent_of_decode_host src⟩
  rw [decode_eq_malformed_src malformed] at src
  cases src

end Sys2Proof.Machine
end

