-- ==== Sys2Proof/Proofs/ClockReference.lean ====
section
/-! The clock reference: `CRYSTAL_REF` under the settings invariant and `GATE_TICKS` by the gate time
(spec/40_clock_reference.md R110, R112). -/

namespace Sys2Proof.Machine

/-- A trim in its declared range keeps `CRYSTAL_REF` within 100 MHz of the nominal 12 GHz, both in
mHz (R110). -/
theorem State.SettingsInRange.crystalRef_range {s : State} (h : s.SettingsInRange) :
    11900000001 ≤ s.crystalRef ∧ s.crystalRef ≤ 12099999999 := by
  have sum : (s.crystalRef : Int) = 12000000000 + s.trim.toInt := crystalRef_eq s.trim
  have lo := h.trim_lo
  have hi := h.trim_hi
  omega

/-- `GATE_TICKS` divides by the multiplier of the selected gate time (R112). -/
theorem State.gateTicks_of_gateSel {s : State} {g : GateTime} (h : s.ctrl.gateSel = g) :
    s.gateTicks = s.crystalRef / gateMult g := by
  subst h
  rfl

/-- Settles O14: the sum holds for every trim, its range by the trim's, and each gate time has its
multiplier. -/
theorem crystalRefAndGateTicks : Obligations.CrystalRefAndGateTicks := by
  intro s settings
  obtain ⟨lo, hi⟩ := settings.crystalRef_range
  exact ⟨crystalRef_eq s.trim, s.regRead_crystalRef, s.regRead_gateTicks, lo, hi,
    State.gateTicks_of_gateSel, State.gateTicks_of_gateSel, State.gateTicks_of_gateSel,
    State.gateTicks_of_gateSel⟩

end Sys2Proof.Machine
end

