-- ==== Sys2Proof/Proofs/OutputDivider.lean ====
section
/-! Step 1 of the synthesizer: the output divider is the smallest power of two that lifts the target to
the floor (spec/41_synthesizer.md R122). -/

namespace Sys2Proof.Machine

/-- `2 ^ k` is the smallest power of two that lifts `f` to the floor `P` (R122). -/
structure IsLeastLift (P f k : Nat) : Prop where
  reaches : P ≤ f * 2 ^ k
  least : ∀ j, j < k → f * 2 ^ j < P

/-- The loop of R122, entered below the floor with enough doublings left, stops at the least lift. -/
theorem outDivLoop_isLeastLift {P f fuel k : Nat} (below : ∀ j, j < k → f * 2 ^ j < P)
    (enough : P ≤ f * 2 ^ (k + fuel)) :
    ∃ n, outDivLoop P f fuel (2 ^ k) = 2 ^ n ∧ IsLeastLift P f n := by
  induction fuel generalizing k with
  | zero => exact ⟨k, rfl, enough, below⟩
  | succ fuel ih =>
    rw [outDivLoop]
    split
    · next short =>
      refine ih (k := k + 1) (fun j hj => ?_) (by rwa [Nat.add_right_comm])
      rcases Nat.lt_succ_iff_lt_or_eq.mp hj with earlier | rfl
      · exact below j earlier
      · exact short
    · next reached => exact ⟨k, rfl, Nat.not_lt.mp reached, below⟩

/-- The output divider is the least lift of every positive target to every floor the fuel reaches
(R122). -/
theorem outDivider_isLeastLift {P f : Nat} (hP : P ≤ 2 ^ 64) (hf : 1 ≤ f) :
    ∃ k, outDivider P f = 2 ^ k ∧ IsLeastLift P f k :=
  outDivLoop_isLeastLift (k := 0) (fun _ hj => absurd hj (Nat.not_lt_zero _))
    (hP.trans (Nat.le_mul_of_pos_left _ hf))

/-- A divider above 1 lifts the target to less than twice the floor (R122). -/
theorem IsLeastLift.lt_two_mul {P f k : Nat} (h : IsLeastLift P f k) (above : 1 < 2 ^ k) :
    f * 2 ^ k < 2 * P := by
  cases k with
  | zero => exact absurd above (by decide)
  | succ k =>
    have half : f * 2 ^ k < P := h.least k k.lt_succ_self
    rw [Nat.pow_succ, ← Nat.mul_assoc]
    omega

/-- From 100 mHz up, 34 doublings reach every admitted floor (R122). -/
theorem IsLeastLift.le_34 {P f k : Nat} (h : IsLeastLift P f k) (hP : P ≤ 1000000000000)
    (hf : 100 ≤ f) : k ≤ 34 := by
  by_contra more
  have short : f * 2 ^ 34 < P := h.least 34 (Nat.not_le.mp more)
  omega

/-- Settles O15: the loop stops at the least lift, and the rest follows from its being least. -/
theorem outputDividerIsSmallestPowerOfTwo : Obligations.OutputDividerIsSmallestPowerOfTwo := by
  intro P f _ hP hf
  obtain ⟨k, power, lift⟩ := outDivider_isLeastLift (hP.trans (by decide)) hf
  refine ⟨k, power, lift.reaches, lift.least, ?_, fun hf => ?_, fun _ _ => rfl⟩
  · rw [power]
    exact lift.lt_two_mul
  · rw [power]
    exact Nat.pow_le_pow_right (by decide) (lift.le_34 hP hf)

end Sys2Proof.Machine
end

