-- ==== Sys2Proof/Proofs/DividerSearch.lean ====
section
/-! Steps 2 to 4 of the synthesizer: the reference divider search, the PLL divisor and the achieved
frequency (spec/41_synthesizer.md R124 to R132). -/

namespace Sys2Proof.Machine

/-! ## The candidates -/

theorem candStep_eq (c rd : Nat) : candStep c rd = c / rd / 16 := rfl

/-- `ref` of a candidate, over the range of the crystal reference (R125). -/
theorem candRef_bounds {c rd : Nat} (lo : 11900000001 ≤ c) (hi : c ≤ 12099999999)
    (mem : rd ∈ refDividers) : 31818181 ≤ c / rd ∧ c / rd ≤ 1512499999 := by
  obtain ⟨rd_lo, rd_hi, -⟩ := mem_refDividers.mp mem
  exact ⟨(show 31818181 ≤ 11900000001 / 374 by decide).trans (Nat.div_le_div lo rd_hi (by omega)),
    (Nat.div_le_div hi rd_lo (by decide)).trans (show 12099999999 / 8 ≤ 1512499999 by decide)⟩

/-- `step` of a candidate, over the range of the crystal reference; no division is by 0 (R125). -/
theorem candStep_bounds {c rd : Nat} (lo : 11900000001 ≤ c) (hi : c ≤ 12099999999)
    (mem : rd ∈ refDividers) : 1988636 ≤ candStep c rd ∧ candStep c rd ≤ 94531249 := by
  obtain ⟨ref_lo, ref_hi⟩ := candRef_bounds lo hi mem
  rw [candStep_eq]
  omega

/-- Settles O16: the fields of a candidate and the bounds of its two quotients. -/
theorem candidateReferenceAndStepBounds : Obligations.CandidateReferenceAndStepBounds := by
  intro T c rd lo hi mem
  obtain ⟨-, ref, step, -, -⟩ := candidate_fields T c rd
  obtain ⟨ref_lo, ref_hi⟩ := candRef_bounds lo hi mem
  obtain ⟨step_lo, step_hi⟩ := candStep_bounds lo hi mem
  have twice : c / rd / 16 = c / (16 * rd) := by rw [Nat.div_div_eq_div_mul, Nat.mul_comm]
  exact ⟨ref, step, twice, ref_lo, ref_hi, step_lo, step_hi⟩

/-- A residual or its complement is at most half the step (R128). -/
theorem two_mul_candidate_err_le (T c rd : Nat) :
    2 * (candidate T c rd).err ≤ (candidate T c rd).step := by
  obtain ⟨-, -, step, err, -⟩ := candidate_fields T c rd
  omega

/-! ## The winner -/

/-- With a best already found, the search ends with a best; what holds of that one and of every
candidate holds of the last (R127, R128). -/
theorem searchFrom_some_induct {T c : Nat} {p : Candidate → Prop} {best : Candidate}
    {rds : List Nat} (hbest : p best) (hcand : ∀ rd ∈ rds, p (candidate T c rd)) :
    ∃ w, searchFrom T c (some best) rds = some w ∧ p w := by
  induction rds generalizing best with
  | nil => exact ⟨best, rfl, hbest⟩
  | cons rd rest ih =>
    obtain ⟨head, tail⟩ := List.forall_mem_cons.mp hcand
    have next : p (better (some best) (candidate T c rd)) := by
      rcases better_cases best (candidate T c rd) with ⟨-, new⟩ | ⟨-, old⟩
      · rwa [new]
      · rwa [old]
    rw [searchFrom]
    split
    · exact ⟨_, rfl, next⟩
    · exact ih next tail

theorem refDividers_eq_cons : ∃ rest, refDividers = 8 :: rest := ⟨_, rfl⟩

/-- The search from scratch yields the winner, which is one of the candidates (R128). -/
theorem searchFrom_eq_winner (T c : Nat) :
    searchFrom T c none refDividers = some (winner T c) ∧
      ∃ rd ∈ refDividers, winner T c = candidate T c rd := by
  obtain ⟨w, found, cand⟩ : ∃ w, searchFrom T c none refDividers = some w ∧
      ∃ rd ∈ refDividers, w = candidate T c rd := by
    obtain ⟨rest, dividers⟩ := refDividers_eq_cons
    have first : ∃ rd ∈ refDividers, candidate T c 8 = candidate T c rd :=
      ⟨8, mem_refDividers.mpr (by decide), rfl⟩
    rw [dividers, searchFrom, ← dividers]
    split
    · exact ⟨_, rfl, first⟩
    · exact searchFrom_some_induct first fun rd later =>
        ⟨rd, dividers ▸ List.mem_cons_of_mem _ later, rfl⟩
  have same : winner T c = w := by rw [winner, found, Option.getD_some]
  rw [same]
  exact ⟨found, cand⟩

/-- Settles O18: the search ends with one of the candidates, and each errs by half its step at most. -/
theorem searchAlwaysYieldsWinner : Obligations.SearchAlwaysYieldsWinner := by
  intro T c _ _
  obtain ⟨found, rd, -, cand⟩ := searchFrom_eq_winner T c
  refine ⟨rfl, rfl, found, ?_⟩
  rw [cand]
  exact two_mul_candidate_err_le T c rd

/-- When the first candidate is exact, the search ends with it (R127). -/
theorem winner_of_first_exact {T c : Nat} (exact_match : candResidual T c 8 = 0) :
    winner T c = candidate T c 8 := by
  obtain ⟨rest, dividers⟩ := refDividers_eq_cons
  rw [winner, dividers, searchFrom, if_pos exact_match]
  rfl

/-- What the plan takes from the winner, for any winner the search may yield (R124, R125). -/
theorem winner_fields (T c : Nat) :
    (winner T c).rd ∈ refDividers ∧ (winner T c).ref = c / (winner T c).rd ∧
      (winner T c).step = candStep c (winner T c).rd := by
  obtain ⟨-, rd, mem, cand⟩ := searchFrom_eq_winner T c
  obtain ⟨same_rd, ref, step, -, -⟩ := candidate_fields T c rd
  rw [cand, same_rd]
  exact ⟨mem, ref, step⟩

/-! ## The PLL divisor and the achieved frequency -/

/-- The PLL divisor is split without loss (R130). -/
theorem pllInt_pllFrac (pd : Nat) : 16 * pllInt pd + pllFrac pd = pd ∧ pllFrac pd < 16 :=
  ⟨Nat.div_add_mod pd 16, Nat.mod_lt pd (by decide)⟩

/-- A plan splits the PLL divisor of its winner (R129, R130). -/
theorem synthesize_split (P f d c : Nat) :
    16 * (synthesize P f d c).pint + (synthesize P f d c).pfrac
        = pllDiv (f * outDivider P f) (winner (f * outDivider P f) c) ∧
      (synthesize P f d c).pfrac < 16 :=
  pllInt_pllFrac _

/-- Settles O19: the plan's fields are those of the winner and of the split of its divisor. -/
theorem planFollowsWinner : Obligations.PlanFollowsWinner := by
  intro P f d c
  obtain ⟨split, frac_lt⟩ := synthesize_split P f d c
  exact ⟨rfl, split, frac_lt, rfl⟩

/-- A target at the floor or above is not multiplied (R122). -/
theorem outDivider_of_le {P f : Nat} (h : P ≤ f) : outDivider P f = 1 :=
  if_neg (by omega)

/-- Settles O20: at 1.03125 MHz the first candidate is exact, and the PLL divisor is 11. -/
theorem integerRatioCanBeZero : Obligations.IntegerRatioCanBeZero := by
  intro P d _ hP
  have winner_eq : winner 1031250000 12000000000 = ⟨8, 1500000000, 93750000, 0, false⟩ :=
    winner_of_first_exact (by decide)
  simp only [synthesize, outDivider_of_le hP, Nat.mul_one, winner_eq]
  decide

end Sys2Proof.Machine
end

