-- ==== Sys2Proof/Proofs/DutyStage.lean ====
section
/-! Steps 5 and 6 of the synthesizer: the achieved duty on the two output paths, and what drives the pin
(spec/41_synthesizer.md R133 to R137). -/

namespace Sys2Proof.Machine

/-! ## The direct path -/

theorem directDuty_eq (d : Nat) :
    directDuty d = if d < 3333 then 0 else if 6666 < d then 10000 else 5000 := rfl

theorem directDuty_low {d : Nat} (h : d < 3333) : directDuty d = 0 := if_pos h

theorem directDuty_high {d : Nat} (h : 6666 < d) : directDuty d = 10000 := by
  rw [directDuty_eq, if_neg (by omega), if_pos h]

theorem directDuty_mid {d : Nat} (lo : 3333 ≤ d) (hi : d ≤ 6666) : directDuty d = 5000 := by
  rw [directDuty_eq, if_neg (Nat.not_lt.mpr lo), if_neg (Nat.not_lt.mpr hi)]

/-- The direct path has three duties (R133). -/
theorem directDuty_cases (d : Nat) :
    directDuty d = 0 ∨ directDuty d = 5000 ∨ directDuty d = 10000 := by
  rcases Nat.lt_or_ge d 3333 with low | not_low
  · exact .inl (directDuty_low low)
  rcases Nat.lt_or_ge 6666 d with high | not_high
  · exact .inr (.inr (directDuty_high high))
  · exact .inr (.inl (directDuty_mid not_low not_high))

/-- Settles O22: the direct stage and its three duties. -/
theorem directPathDutyClasses : Obligations.DirectPathDutyClasses := by
  intro od d h
  rw [outStage_direct h]
  exact ⟨rfl, rfl, rfl, rfl, directDuty_low, directDuty_high, directDuty_mid⟩

/-- Each of the three duties has its own output mode (R137). -/
theorem directOutMode_iff (d : Nat) :
    (directOutMode (directDuty d) = .staticLow ↔ directDuty d = 0) ∧
      (directOutMode (directDuty d) = .staticHigh ↔ directDuty d = 10000) ∧
      (directOutMode (directDuty d) = .directClk ↔ directDuty d = 5000) := by
  rcases directDuty_cases d with duty | duty | duty <;> rw [duty] <;> decide

/-! ## The PWM path: the prescaler and the period -/

/-- From a power of two, the loop of R134 halves exactly down to `2 ^ 23`. -/
theorem prescale_two_pow {fuel k : Nat} (i : Nat) (h : k ≤ 23 + fuel) :
    prescale fuel (2 ^ k) (2 ^ i) = (2 ^ (i + (k - 23)), 2 ^ min k 23) := by
  induction fuel generalizing k i with
  | zero =>
    rw [prescale, Nat.sub_eq_zero_of_le h, Nat.min_eq_left h, Nat.add_zero]
  | succ fuel ih =>
    have large_iff : pwmModulus ≤ 2 ^ k ↔ 24 ≤ k :=
      Nat.pow_le_pow_iff_right Nat.one_lt_two
    rw [prescale]
    split
    · next large =>
      cases k with
      | zero => exact absurd large (by decide)
      | succ k =>
        have still : 23 ≤ k := Nat.le_of_succ_le_succ (large_iff.mp large)
        rw [Nat.pow_succ, Nat.mul_div_cancel _ Nat.two_pos, ← Nat.pow_succ, ih (i + 1) (by omega),
          Nat.min_eq_right still, Nat.min_eq_right (Nat.le_succ_of_le still), Nat.add_right_comm,
          Nat.add_assoc, Nat.succ_sub still]
    · next small =>
      have fits : k ≤ 23 := Nat.le_of_lt_succ (Nat.not_le.mp (mt large_iff.mpr small))
      rw [Nat.sub_eq_zero_of_le fits, Nat.min_eq_left fits, Nat.add_zero]

/-- The timer period for an output divider of `2 ^ k` (R134). -/
def pwmPeriod (k : Nat) : Nat := 2 ^ min k 23

theorem pwmPeriod_le (k : Nat) : pwmPeriod k ≤ 2 ^ 23 :=
  Nat.pow_le_pow_right (by decide) (Nat.min_le_right k 23)

theorem pwmPeriod_pos (k : Nat) : 0 < pwmPeriod k := Nat.two_pow_pos _

theorem pwmPeriod_even {k : Nat} (h : 2 ≤ k) : pwmPeriod k % 2 = 0 :=
  Nat.mod_eq_zero_of_dvd (dvd_pow_self 2 (by omega))

/-- The whole output stage for the output dividers above 2 that the synthesizer yields (R134 to
R137). -/
theorem outStage_two_pow {k : Nat} (lo : 2 ≤ k) (hi : k ≤ 34) (d : Nat) :
    outStage (2 ^ k) d =
      { hwDiv := 1, presc := 2 ^ (k - 23), period := pwmPeriod k
        compare := pwmCompare d (pwmPeriod k)
        outMode := pwmOutMode (pwmCompare d (pwmPeriod k)) (pwmPeriod k)
        achDuty := pwmDuty (pwmCompare d (pwmPeriod k)) (pwmPeriod k) } := by
  have above : 2 ^ 1 < 2 ^ k := Nat.pow_lt_pow_right Nat.one_lt_two lo
  have loop : prescale loopFuel (2 ^ k) 1 = (2 ^ (k - 23), pwmPeriod k) := by
    have fuel_enough : k ≤ 23 + loopFuel := hi.trans (by decide)
    simpa [pwmPeriod] using prescale_two_pow 0 fuel_enough
  rw [outStage_pwm above, pwmStage, loop]

/-- Settles O23: the exponents are `k - 23` and the smaller of `k` and 23. -/
theorem pwmPrescalerAndPeriod : Obligations.PwmPrescalerAndPeriod := by
  intro k d lo hi
  rw [outStage_two_pow lo hi]
  exact ⟨rfl, k - 23, min k 23, rfl, rfl, by omega, by omega, by omega, by omega⟩

/-! ## The PWM path: the compare value and the achieved duty -/

/-- Rounding by an even divisor adds half of it first (R115). -/
theorem roundDiv_of_even {d : Nat} (n : Nat) (even : d % 2 = 0) :
    roundDiv n d = (n + d / 2) / d := by
  have twice : 2 * n + d = 2 * (n + d / 2) := by omega
  rw [roundDiv, twice, Nat.mul_div_mul_left _ _ Nat.two_pos]

/-- A number is at most a rounded quotient when the doubled terms are in that order (R115). -/
theorem le_roundDiv_iff {n d a : Nat} (hd : 0 < d) : a ≤ roundDiv n d ↔ 2 * d * a ≤ 2 * n + d := by
  rw [roundDiv, Nat.le_div_iff_mul_le (by omega), Nat.mul_comm]

theorem pwmCompare_eq (d p : Nat) : pwmCompare d p = (d * p + 5000) / 10000 :=
  roundDiv_of_even (d * p) (by decide)

/-- The compare value is the nearest number of ticks (R135). -/
theorem pwmCompare_spec (d p : Nat) :
    20000 * pwmCompare d p ≤ 2 * (d * p) + 10000 ∧
      2 * (d * p) + 10000 < 20000 * (pwmCompare d p + 1) :=
  roundDiv_spec (d * p) (d := 10000) (by decide)

theorem pwmCompare_le {d : Nat} (p : Nat) (hd : d ≤ 10000) : pwmCompare d p ≤ p := by
  have full : d * p ≤ 10000 * p := Nat.mul_le_mul_right p hd
  rw [pwmCompare_eq]
  omega

@[simp] theorem pwmCompare_zero (p : Nat) : pwmCompare 0 p = 0 := by
  rw [pwmCompare_eq]
  omega

@[simp] theorem pwmCompare_full (p : Nat) : pwmCompare 10000 p = p := by
  rw [pwmCompare_eq]
  omega

/-- The achieved duty is the nearest to what the compare value comes to (R136). -/
theorem pwmDuty_spec (compare : Nat) {p : Nat} (hp : 0 < p) :
    2 * p * pwmDuty compare p ≤ 2 * (compare * 10000) + p ∧
      2 * (compare * 10000) + p < 2 * p * (pwmDuty compare p + 1) :=
  roundDiv_spec (compare * 10000) hp

@[simp] theorem pwmDuty_zero {p : Nat} (hp : 0 < p) : pwmDuty 0 p = 0 :=
  Nat.div_eq_of_lt (by omega)

/-- A compare value within the period comes to at most the full duty (R136). -/
theorem pwmDuty_le {compare p : Nat} (hp : 0 < p) (hc : compare ≤ p) :
    pwmDuty compare p ≤ 10000 := by
  refine Nat.lt_succ_iff.mp (Nat.not_le.mp fun above => ?_)
  have := (le_roundDiv_iff hp).mp above
  omega

@[simp] theorem pwmDuty_full {p : Nat} (hp : 0 < p) : pwmDuty p p = 10000 :=
  le_antisymm (pwmDuty_le hp le_rfl) ((le_roundDiv_iff hp).mpr (by omega))

/-- A timer with more than 10000 ticks resolves every permyriad of duty (R136). -/
theorem pwmDuty_pwmCompare_of_large {p : Nat} (d : Nat) (large : 10000 < p) :
    pwmDuty (pwmCompare d p) p = d := by
  have hp : 0 < p := Nat.zero_lt_of_lt large
  obtain ⟨compare_le, lt_compare⟩ := pwmCompare_spec d p
  refine le_antisymm (Nat.lt_succ_iff.mp (Nat.not_le.mp fun above => ?_))
    ((le_roundDiv_iff hp).mpr (by linarith))
  have := (le_roundDiv_iff hp).mp above
  linarith

/-- The achieved duty is within one timer tick of the target (R136). -/
theorem pwmDuty_within_one_tick {p : Nat} (d : Nat) (hp : 0 < p) :
    pwmDuty (pwmCompare d p) p * p ≤ d * p + 10000 ∧
      d * p ≤ pwmDuty (pwmCompare d p) p * p + 10000 := by
  rcases Nat.lt_or_ge 10000 p with large | small
  · rw [pwmDuty_pwmCompare_of_large d large]
    exact ⟨Nat.le_add_right _ _, Nat.le_add_right _ _⟩
  · obtain ⟨compare_le, lt_compare⟩ := pwmCompare_spec d p
    obtain ⟨duty_le, lt_duty⟩ := pwmDuty_spec (pwmCompare d p) hp
    constructor <;> linarith

/-- The compare value is 0 exactly at an achieved duty of 0 (R137). -/
theorem pwmCompare_eq_zero_iff {p : Nat} (d : Nat) (hp : 0 < p) :
    pwmCompare d p = 0 ↔ pwmDuty (pwmCompare d p) p = 0 := by
  constructor
  · intro zero
    rw [zero, pwmDuty_zero hp]
  · intro zero
    rcases Nat.lt_or_ge 10000 p with large | small
    · rw [pwmDuty_pwmCompare_of_large d large] at zero
      rw [zero, pwmCompare_zero]
    · have upper := (pwmDuty_spec (pwmCompare d p) hp).2
      rw [zero] at upper
      omega

/-- The compare value is the whole period exactly at an achieved duty of 10000 (R137). -/
theorem pwmCompare_eq_period_iff {p d : Nat} (hp : 0 < p) (hd : d ≤ 10000) :
    pwmCompare d p = p ↔ pwmDuty (pwmCompare d p) p = 10000 := by
  constructor
  · intro full
    rw [full, pwmDuty_full hp]
  · intro full
    rcases Nat.lt_or_ge 10000 p with large | small
    · rw [pwmDuty_pwmCompare_of_large d large] at full
      rw [full, pwmCompare_full]
    · have lower := (pwmDuty_spec (pwmCompare d p) hp).1
      have compare_le := pwmCompare_le p hd
      rw [full] at lower
      omega

/-- The three output modes of the PWM path (R137). -/
theorem pwmOutMode_iff {compare p : Nat} (hp : 0 < p) (hc : compare ≤ p) :
    (pwmOutMode compare p = .staticLow ↔ compare = 0) ∧
      (pwmOutMode compare p = .staticHigh ↔ compare = p) ∧
      (pwmOutMode compare p = .pwm ↔ 0 < compare ∧ compare < p) := by
  unfold pwmOutMode
  split
  · next low => simp [low, hp.ne]
  · next not_low =>
    split
    · next high => simp [high, hp.ne']
    · next not_high => simp [not_low, not_high]; omega

/-- Settles O24: the compare value rounds `d * period / 10000`, for every period. -/
theorem pwmCompareIsNearest : Obligations.PwmCompareIsNearest := by
  intro k d lo hi hd
  rw [outStage_two_pow lo hi]
  obtain ⟨lower, upper⟩ := pwmCompare_spec d (pwmPeriod k)
  exact ⟨pwmCompare_eq d (pwmPeriod k), pwmCompare_le (pwmPeriod k) hd, lower, upper⟩

/-- Settles O25: the achieved duty rounds `compare * 10000 / period`; above 10000 ticks it is the
target itself, and below the two roundings are half a tick each at most. -/
theorem pwmDutyWithinOneTick : Obligations.PwmDutyWithinOneTick := by
  intro k d lo hi _
  rw [outStage_two_pow lo hi]
  obtain ⟨lower, upper⟩ := pwmDuty_spec (pwmCompare d (pwmPeriod k)) (pwmPeriod_pos k)
  obtain ⟨not_above, not_below⟩ := pwmDuty_within_one_tick d (pwmPeriod_pos k)
  exact ⟨roundDiv_of_even _ (pwmPeriod_even lo), lower, upper, not_above, not_below⟩

/-! ## What drives the pin -/

/-- A power of two is at most 2 or the divider of a PWM path. -/
theorem two_pow_le_two_or {k : Nat} : 2 ^ k ≤ 2 ∨ 2 ≤ k := by
  rcases Nat.lt_or_ge k 2 with small | large
  · exact .inl (Nat.pow_le_pow_right (by decide) (Nat.le_of_lt_succ small))
  · exact .inr large

/-- A target of 0 holds the pin low and one of 10000 holds it high, on either path (R137). -/
theorem outStage_static_of_end_duty {k : Nat} (hk : k ≤ 34) :
    (outStage (2 ^ k) 0).outMode = .staticLow ∧ (outStage (2 ^ k) 10000).outMode = .staticHigh := by
  rcases two_pow_le_two_or (k := k) with direct | pwm
  · rw [outStage_direct direct, outStage_direct direct]
    exact ⟨rfl, rfl⟩
  · have positive := pwmPeriod_pos k
    rw [outStage_two_pow pwm hk, outStage_two_pow pwm hk, pwmCompare_zero, pwmCompare_full]
    exact ⟨(pwmOutMode_iff positive (Nat.zero_le _)).1.mpr rfl,
      (pwmOutMode_iff positive le_rfl).2.1.mpr rfl⟩

/-- Settles O26: the modes of the two paths, and the one use of the duty in `synthesize`. -/
theorem staticDriveAtDegenerateDuty : Obligations.StaticDriveAtDegenerateDuty := by
  refine ⟨fun od d direct => ?_, fun k d lo hi hd => ?_, fun k => outStage_static_of_end_duty,
    fun _ _ _ _ _ => rfl⟩
  · rw [outStage_direct direct]
    exact directOutMode_iff d
  · rw [outStage_two_pow lo hi]
    have positive := pwmPeriod_pos k
    obtain ⟨low, high, between⟩ := pwmOutMode_iff positive (pwmCompare_le (pwmPeriod k) hd)
    exact ⟨low, pwmCompare_eq_zero_iff d positive, high, pwmCompare_eq_period_iff positive hd,
      between⟩

end Sys2Proof.Machine
end

