-- ==== Sys2Proof/Proofs/SynthesisFit.lean ====
section
/-! Every result of the synthesizer fits its register (spec/41_synthesizer.md R139), and its worked
example (R144). -/

namespace Sys2Proof.Machine

/-! ## Computed plans and register contents -/

/-- A computed plan is written to the registers exactly as the contents that read as it (R14). -/
theorem RawPlan.fit?_eq_some_iff_raw {r : RawPlan} {p : Plan} : r.fit? = some p ↔ p.raw = r := by
  rw [RawPlan.fit?_eq_some_iff]
  constructor
  · rintro ⟨refDiv, pint, pfrac, outDiv, hwDiv, presc, period, compare, outMode, achFreq, achDuty⟩
    rw [Plan.raw, refDiv, pint, pfrac, outDiv, hwDiv, presc, period, compare, outMode, achFreq,
      achDuty]
  · rintro rfl
    exact ⟨rfl, rfl, rfl, rfl, rfl, rfl, rfl, rfl, rfl, rfl, rfl⟩

/-- Every field of a computed plan is below the bound of its register (R139). -/
structure RawPlan.Fits (r : RawPlan) : Prop where
  refDiv : r.refDiv < 2 ^ 9
  pint : r.pint < 2 ^ 16
  pfrac : r.pfrac < 2 ^ 4
  outDiv : r.outDiv < 2 ^ 64
  hwDiv : r.stage.hwDiv < 2 ^ 2
  presc : r.stage.presc < 2 ^ 40
  period : r.stage.period < 2 ^ 24
  compare : r.stage.compare < 2 ^ 24
  achFreq : r.achFreq < 2 ^ 37
  achDuty : r.stage.achDuty < 2 ^ 14

/-- A computed plan within the registers' bounds is the reading of some register contents. -/
theorem RawPlan.Fits.exists_raw_eq {r : RawPlan} (h : r.Fits) : ∃ p : Plan, p.raw = r := by
  refine ⟨{ refDiv := BitVec.ofNatLT _ h.refDiv, pint := BitVec.ofNatLT _ h.pint
            pfrac := BitVec.ofNatLT _ h.pfrac, outDiv := BitVec.ofNatLT _ h.outDiv
            hwDiv := BitVec.ofNatLT _ h.hwDiv, presc := BitVec.ofNatLT _ h.presc
            period := BitVec.ofNatLT _ h.period, compare := BitVec.ofNatLT _ h.compare
            outMode := r.stage.outMode, achFreq := BitVec.ofNatLT _ h.achFreq
            achDuty := BitVec.ofNatLT _ h.achDuty }, rfl⟩

/-! ## The bounds of the PLL side -/

/-- The lifted target is the target itself or below twice the floor (R122). -/
theorem IsLeastLift.lifted_cases {P f k : Nat} (h : IsLeastLift P f k) :
    f * 2 ^ k ≤ f ∨ f * 2 ^ k < 2 * P := by
  rcases Nat.lt_or_ge 1 (2 ^ k) with above | one
  · exact .inr (h.lt_two_mul above)
  · exact .inl (mul_le_of_le_one_right (Nat.zero_le f) one)

/-- The PLL divisor is at most the lifted target over the least step, plus one (R125, R129). -/
theorem pllDiv_le {T c : Nat} (lo : 11900000001 ≤ c) (hi : c ≤ 12099999999) :
    pllDiv T (winner T c) ≤ T / 1988636 + 1 := by
  obtain ⟨mem, -, step⟩ := winner_fields T c
  have least_step : 1988636 ≤ (winner T c).step := step ▸ (candStep_bounds lo hi mem).1
  exact Nat.add_le_add (Nat.div_le_div_left least_step (by decide)) (Bool.toNat_le _)

/-- The floored products of R132 lose nothing above the exact product. -/
theorem achievedFreq_mul_le (ref pd od : Nat) :
    16 * (achievedFreq ref (pllInt pd) (pllFrac pd) od * od) ≤ ref * pd := by
  obtain ⟨split, -⟩ := pllInt_pllFrac pd
  have division := Nat.div_mul_le_self (ref * pllInt pd + ref * pllFrac pd / 16) od
  calc 16 * (achievedFreq ref (pllInt pd) (pllFrac pd) od * od)
      ≤ 16 * (ref * pllInt pd + ref * pllFrac pd / 16) := Nat.mul_le_mul_left 16 division
    _ ≤ 16 * (ref * pllInt pd) + ref * pllFrac pd := by omega
    _ = ref * (16 * pllInt pd + pllFrac pd) := by ring
    _ = ref * pd := by rw [split]

/-- The PLL divisor reaches at most one step above its target (R129). -/
theorem step_mul_pllDiv_le (T : Nat) (w : Candidate) : w.step * pllDiv T w ≤ T + w.step := by
  rw [pllDiv, Nat.mul_add]
  exact Nat.add_le_add (Nat.mul_div_le T w.step)
    (mul_le_of_le_one_right (Nat.zero_le _) (Bool.toNat_le w.up))

/-- Flooring `step` loses less than a sixteenth of `ref` (R125). -/
theorem winner_ref_le (T c : Nat) : (winner T c).ref ≤ 16 * (winner T c).step + 15 := by
  obtain ⟨-, ref, step⟩ := winner_fields T c
  rw [ref, step, candStep_eq]
  omega

/-- The achieved frequency exceeds the target by at most a step of the winner and what flooring `step`
loses over the whole PLL divisor (R125, R132). -/
theorem achievedFreq_le {f od pd : Nat} {w : Candidate} (hod : 0 < od)
    (ref_le : w.ref ≤ 16 * w.step + 15) (reach : w.step * pd ≤ f * od + w.step) :
    achievedFreq w.ref (pllInt pd) (pllFrac pd) od ≤ f + w.step + pd := by
  have scaled : 16 * (achievedFreq w.ref (pllInt pd) (pllFrac pd) od * od) ≤
      16 * (f * od + w.step + pd) :=
    calc 16 * (achievedFreq w.ref (pllInt pd) (pllFrac pd) od * od)
      _ ≤ w.ref * pd := achievedFreq_mul_le w.ref pd od
      _ ≤ (16 * w.step + 15) * pd := Nat.mul_le_mul_right pd ref_le
      _ = 16 * (w.step * pd) + 15 * pd := by ring
      _ ≤ 16 * (f * od + w.step + pd) := by omega
  refine Nat.le_of_mul_le_mul_right ?_ hod
  calc achievedFreq w.ref (pllInt pd) (pllFrac pd) od * od
    _ ≤ f * od + w.step + pd := Nat.le_of_mul_le_mul_left scaled (by decide)
    _ ≤ f * od + w.step * od + pd * od := by
      gcongr <;> exact Nat.le_mul_of_pos_right _ hod
    _ = (f + w.step + pd) * od := by ring

/-! ## The bounds of the output stage -/

/-- What each field of the output stage is at most, for every divider the synthesizer yields (R139). -/
theorem outStage_bounds {k d : Nat} (hk : k ≤ 34) (hd : d ≤ 10000) :
    (outStage (2 ^ k) d).hwDiv ≤ 2 ∧ (outStage (2 ^ k) d).presc ≤ 2 ^ 11 ∧
      (outStage (2 ^ k) d).period ≤ 2 ^ 23 ∧
      (outStage (2 ^ k) d).compare ≤ (outStage (2 ^ k) d).period ∧
      (outStage (2 ^ k) d).achDuty ≤ 10000 := by
  rcases two_pow_le_two_or (k := k) with direct | pwm
  · rw [outStage_direct direct]
    refine ⟨direct, Nat.zero_le _, Nat.zero_le _, le_rfl, ?_⟩
    show directDuty d ≤ 10000
    have duties := directDuty_cases d
    omega
  · rw [outStage_two_pow pwm hk]
    have compare_le := pwmCompare_le (pwmPeriod k) hd
    exact ⟨one_le_two, Nat.pow_le_pow_right Nat.two_pos (by omega), pwmPeriod_le k, compare_le,
      pwmDuty_le (pwmPeriod_pos k) compare_le⟩

/-! ## The whole plan -/

/-- The declared ranges of the floor and of the synthesizer's three inputs (R7, R139). -/
structure SynthInputs (P f d c : Nat) : Prop where
  floor_hi : P ≤ 1000000000000
  freq_lo : 100 ≤ f
  freq_hi : f ≤ 105000000000
  duty_hi : d ≤ 10000
  crystal_lo : 11900000001 ≤ c
  crystal_hi : c ≤ 12099999999

section SynthInputs

variable {P f d c : Nat}

/-- The output divider of a plan, with the output stage it calls for (R122). -/
theorem SynthInputs.outDiv_eq (h : SynthInputs P f d c) :
    ∃ k, k ≤ 34 ∧ IsLeastLift P f k ∧ (synthesize P f d c).outDiv = 2 ^ k ∧
      (synthesize P f d c).stage = outStage (2 ^ k) d := by
  have enough : P ≤ 2 ^ 64 := h.floor_hi.trans (by decide)
  have positive : 1 ≤ f := (show 1 ≤ 100 by decide).trans h.freq_lo
  obtain ⟨k, power, lift⟩ := outDivider_isLeastLift enough positive
  exact ⟨k, lift.le_34 h.floor_hi h.freq_lo, lift, power, congrArg (outStage · d) power⟩

/-- The output divider and the lifted target (R139). -/
theorem SynthInputs.lifted_bounds (h : SynthInputs P f d c) :
    0 < (synthesize P f d c).outDiv ∧ (synthesize P f d c).outDiv ≤ 2 ^ 34 ∧
      f * (synthesize P f d c).outDiv < 2 * 10 ^ 12 ∧
      (P ≤ 52500000000 → f * (synthesize P f d c).outDiv ≤ 105000000000) := by
  obtain ⟨k, hk, lift, outDiv, -⟩ := h.outDiv_eq
  have floor_hi := h.floor_hi
  have freq_hi := h.freq_hi
  have lifted := lift.lifted_cases
  rw [outDiv]
  exact ⟨Nat.two_pow_pos k, Nat.pow_le_pow_right Nat.two_pos hk, by omega, by omega⟩

/-- The PLL divisor (R129, R130, R139). -/
theorem SynthInputs.divisor_bounds (h : SynthInputs P f d c) :
    16 * (synthesize P f d c).pint + (synthesize P f d c).pfrac
        ≤ f * (synthesize P f d c).outDiv / 1988636 + 1 ∧
      (synthesize P f d c).pfrac < 16 := by
  obtain ⟨split, pfrac_lt⟩ := synthesize_split P f d c
  exact ⟨split.trans_le (pllDiv_le h.crystal_lo h.crystal_hi), pfrac_lt⟩

/-- The reference divider and the achieved frequency, by the winner's bounds (R124, R139). -/
theorem SynthInputs.winner_bounds (h : SynthInputs P f d c) :
    (synthesize P f d c).refDiv ≤ 374 ∧
      (synthesize P f d c).achFreq
        ≤ f + 94531249 + (16 * (synthesize P f d c).pint + (synthesize P f d c).pfrac) := by
  obtain ⟨outDiv_pos, -⟩ := h.lifted_bounds
  obtain ⟨mem, -, step⟩ := winner_fields (f * outDivider P f) c
  have step_le := (candStep_bounds h.crystal_lo h.crystal_hi mem).2
  rw [← step] at step_le
  have achFreq_le := achievedFreq_le outDiv_pos (winner_ref_le (f * outDivider P f) c)
    (step_mul_pllDiv_le (f * outDivider P f) _)
  obtain ⟨split, -⟩ := synthesize_split P f d c
  exact ⟨(mem_refDividers.mp mem).2.1,
    achFreq_le.trans (Nat.add_le_add (Nat.add_le_add_left step_le f) split.ge)⟩

/-- Each field of the output stage (R139). -/
theorem SynthInputs.stage_bounds (h : SynthInputs P f d c) :
    (synthesize P f d c).stage.hwDiv ≤ 2 ∧ (synthesize P f d c).stage.presc ≤ 2 ^ 11 ∧
      (synthesize P f d c).stage.period ≤ 2 ^ 23 ∧
      (synthesize P f d c).stage.compare ≤ (synthesize P f d c).stage.period ∧
      (synthesize P f d c).stage.achDuty ≤ 10000 := by
  obtain ⟨k, hk, -, -, stage⟩ := h.outDiv_eq
  rw [stage]
  exact outStage_bounds hk h.duty_hi

/-- Every field of a plan for inputs in range is below the bound of its register (R139). -/
theorem SynthInputs.fits (h : SynthInputs P f d c) : (synthesize P f d c).Fits := by
  obtain ⟨-, outDiv_le, lifted_lt, -⟩ := h.lifted_bounds
  obtain ⟨divisor_le, pfrac_lt⟩ := h.divisor_bounds
  obtain ⟨refDiv_le, achFreq_le⟩ := h.winner_bounds
  obtain ⟨hwDiv_le, presc_le, period_le, compare_le, achDuty_le⟩ := h.stage_bounds
  have freq_hi := h.freq_hi
  exact
    { refDiv := by omega, pint := by omega, pfrac := pfrac_lt, outDiv := by omega
      hwDiv := by omega, presc := by omega, period := by omega, compare := by omega
      achFreq := by omega, achDuty := by omega }

end SynthInputs

/-- Settles O28: the plan's fields are within their registers' bounds, and fields within bounds are
register contents. -/
theorem synthesisFitsRegisters : Obligations.SynthesisFitsRegisters := by
  intro P f d c _ floor_hi freq_lo freq_hi duty_hi crystal_lo crystal_hi
  have inputs : SynthInputs P f d c :=
    { floor_hi, freq_lo, freq_hi, duty_hi, crystal_lo, crystal_hi }
  obtain ⟨-, outDiv_le, lifted_lt, lifted_le⟩ := inputs.lifted_bounds
  obtain ⟨divisor_le, -⟩ := inputs.divisor_bounds
  obtain ⟨-, presc_le, -⟩ := inputs.stage_bounds
  have fits := inputs.fits
  exact ⟨fits.exists_raw_eq, lifted_lt, divisor_le, by omega, fits.pint, outDiv_le, presc_le,
    fits.period, fits.achFreq, fun low_floor => ⟨lifted_le low_floor, by omega⟩⟩

/-! ## The worked example -/

/-- Both lifted targets of the example are met exactly by the divider 12 (R144). -/
theorem oneMegahertz_winner :
    winner 1000000000 12000000000 = ⟨12, 1000000000, 62500000, 0, false⟩ ∧
      winner 64000000000 12000000000 = ⟨12, 1000000000, 62500000, 0, false⟩ := by
  decide

/-- Settles O29: the candidates, then the two plans from the output divider and the winner of each. -/
theorem oneMegahertzScenario : Obligations.OneMegahertzScenario := by
  obtain ⟨winner_low, winner_high⟩ := oneMegahertz_winner
  have outDivider_low : outDivider 1000000000 1000000000 = 1 := outDivider_of_le le_rfl
  have outDivider_high : outDivider 48000000000 1000000000 = 64 := by decide
  have stage_high : outStage 64 5000 = ⟨1, 1, 64, 32, .pwm, 5000⟩ :=
    (outStage_two_pow (k := 6) (by decide) (by decide) 5000).trans (by decide)
  refine ⟨by decide, by decide, by decide, by decide, ?low, ?high⟩
  case low =>
    simp only [synthesize, outDivider_low, Nat.mul_one, winner_low]
    decide
  case high =>
    simp only [synthesize, outDivider_high, Nat.reduceMul, winner_high, stage_high]
    decide

end Sys2Proof.Machine
end

