-- ==== Sys2Proof/Proofs/Resynthesis.lean ====
section
/-! `resynth` on settings in range, and the stimulus `SYNTH` (spec/41_synthesizer.md R121, R140). -/

namespace Sys2Proof

/-- A host command whose argument is outside its format's legal set is an illegal host word (R93). -/
theorem decode_illegal_of_not_legalArg {op : Opcode} {a : Arg} (host : op.agent = .host)
    (h : ¬ op.LegalArg a) : decode (mkWord op.code a) = .illegalHostWord := by
  have src : srcTag (mkWord op.code a) = false := by
    rw [srcTag_mkWord]
    exact (Laws.opcode_srcBit op).mpr host
  cases verdict : decode (mkWord op.code a) with
  | stimulus i =>
    exact absurd verdict (decode_ne_stimulus_of_no_row ((no_row_selects_code_iff op a).mpr h) i)
  | illegalHostWord => rfl
  | malformedEventWord =>
    rw [decode_eq_malformed_src verdict] at src
    cases src

end Sys2Proof

namespace Sys2Proof.Machine

/-- The plan that `resynth` writes is the one the settings call for (R121). -/
theorem State.plannedPlan?_eq_some_iff {s : State} {p : Plan} :
    s.plannedPlan? = some p ↔ s.PlanFor p := by
  by_cases on : s.ctrl.opmode = .generator ∧ s.ctrl.genEn = true
  · have not_off : ¬ (s.ctrl.opmode = .counter ∨ s.ctrl.genEn = false) := by simp [on.1, on.2]
    rw [State.plannedPlan?_on on.1 on.2, RawPlan.fit?_eq_some_iff_raw]
    exact ⟨fun raw => ⟨fun _ => raw, fun off => absurd off not_off⟩, fun planFor => planFor.1 on⟩
  · have off : s.ctrl.opmode = .counter ∨ s.ctrl.genEn = false := by
      cases mode : s.ctrl.opmode <;> simp_all
    rw [State.plannedPlan?_off off, Option.some.injEq]
    exact ⟨fun reset => ⟨fun is_on => absurd is_on on, fun _ => reset.symm⟩,
      fun planFor => (planFor.2 off).symm⟩

/-- Settings in range are inputs in range of the synthesizer (R50, R139). -/
theorem State.SettingsInRange.synthInputs {s : State} (h : s.SettingsInRange) :
    SynthInputs s.params.P s.freqSet.toNat s.dutySet.toNat s.crystalRef where
  floor_hi := s.params.admitted.2.1
  freq_lo := h.freq_lo
  freq_hi := h.freq_hi
  duty_hi := h.duty_hi
  crystal_lo := h.crystalRef_range.1
  crystal_hi := h.crystalRef_range.2

/-- Settings in range call for a plan that fits the registers (R139). -/
theorem State.SettingsInRange.exists_planFor {s : State} (h : s.SettingsInRange) :
    ∃ p, s.PlanFor p := by
  by_cases off : s.ctrl.opmode = .counter ∨ s.ctrl.genEn = false
  · exact ⟨offPlan, State.plannedPlan?_eq_some_iff.mp (State.plannedPlan?_off off)⟩
  · obtain ⟨p, raw⟩ := h.synthInputs.fits.exists_raw_eq
    exact ⟨p, fun _ => raw, fun is_off => absurd is_off off⟩

theorem exec_synth_eq (s : State) : exec .synth s = ofFit s.generatorChange := rfl

theorem exec_synth_of_counter {s : State} (h : s.ctrl.opmode = .counter) :
    exec .synth s = .next s := by
  rw [exec_synth_eq, ofFit_eq_next_iff]
  exact State.generatorChange_eq_some_iff.mpr (.inl ⟨h, rfl⟩)

/-- `SYNTH` in Generator mode writes the plan the settings call for, and nothing else (R140). -/
theorem exec_synth_of_generator {s : State} {p : Plan} (h : s.ctrl.opmode = .generator)
    (planFor : s.PlanFor p) : exec .synth s = .next (s.withPlan p) := by
  rw [exec_synth_eq, ofFit_eq_next_iff]
  exact State.generatorChange_eq_some_iff.mpr
    (.inr ⟨h, p, State.plannedPlan?_eq_some_iff.mpr planFor, rfl⟩)

/-- Settles O38: the word by its legal argument, and the two modes; a current plan is the one that
`SYNTH` writes. -/
theorem synthRecomputesPlan : Obligations.SynthRecomputesPlan := by
  refine ⟨by decide, fun a nonzero => decode_illegal_of_not_legalArg (op := .synth) rfl nonzero,
    fun s settings => ⟨exec_synth_of_counter, fun generator => ?_, fun current => ?_⟩⟩
  · obtain ⟨p, planFor⟩ := settings.exists_planFor
    exact ⟨p, planFor, exec_synth_of_generator generator planFor⟩
  · cases mode : s.ctrl.opmode with
    | counter => exact exec_synth_of_counter mode
    | generator => exact exec_synth_of_generator mode current

end Sys2Proof.Machine
end

