-- ==== Sys2Proof/Proofs/Measurement.lean ====
section
/-! The measurement engine: where its events act, the smoothing and the close of a gate, the captures
and the end of a window (spec/42_measurement.md R150 to R161). -/

namespace Sys2Proof.Machine

/-! ## Where an event acts (R150) -/

theorem State.onEvent_of_not_live {s : State} {mode : MeasMode} {act : Meas → Option Meas}
    (dead : ¬ s.live mode) : s.onEvent mode act = .next s :=
  State.onEvent_eq_next_iff.mpr (.inl ⟨dead, rfl⟩)

theorem State.onEvent_of_live {s : State} {mode : MeasMode} {act : Meas → Option Meas} {m : Meas}
    (live : s.live mode) (h : act s.meas = some m) : s.onEvent mode act = .next (s.withMeas m) :=
  State.onEvent_eq_next_iff.mpr (.inr ⟨live, m, h, rfl⟩)

/-- Settles O46: each of the four events is an `onEvent` of its own mode. -/
theorem eventsOutsideTheirModeAreIgnored : Obligations.EventsOutsideTheirModeAreIgnored := fun _ =>
  ⟨fun dead => ⟨State.onEvent_of_not_live dead, State.onEvent_of_not_live dead⟩,
    fun dead => ⟨State.onEvent_of_not_live dead, fun _ _ _ => State.onEvent_of_not_live dead⟩⟩

/-! ## The smoothing (R154) -/

theorem smooth_of_far {cur raw : Nat} (far : 10000 < ((raw : Int) - cur).natAbs) :
    smooth cur raw = raw := if_pos far

/-- An eighth, truncated toward zero, is the floored eighth of the size with the sign put back. -/
theorem tdiv_eight_cases (d : Int) :
    (0 ≤ d ∧ d.tdiv 8 = d / 8) ∨ (d < 0 ∧ d.tdiv 8 = -(-d / 8)) := by
  rcases lt_or_ge d 0 with down | up
  · refine .inr ⟨down, ?_⟩
    rw [← Int.tdiv_eq_ediv_of_nonneg (by omega), Int.neg_tdiv, Int.neg_neg]
  · exact .inl ⟨up, Int.tdiv_eq_ediv_of_nonneg up⟩

/-- Taking an eighth, truncated toward zero, off a difference takes an eighth off its size. -/
theorem natAbs_sub_tdiv_eight (d : Int) : (d - d.tdiv 8).natAbs = d.natAbs - d.natAbs / 8 := by
  rcases tdiv_eight_cases d with ⟨up, eighth⟩ | ⟨down, eighth⟩ <;> omega

theorem smooth_of_near {cur raw : Nat} (near : ((raw : Int) - cur).natAbs ≤ 10000) :
    (smooth cur raw : Int) = cur + ((raw : Int) - cur).tdiv 8 := by
  have branch : smooth cur raw = ((cur : Int) + ((raw : Int) - cur).tdiv 8).toNat :=
    if_neg (Nat.not_lt.mpr near)
  have eighth := tdiv_eight_cases ((raw : Int) - cur)
  omega

/-- Settles O41: the two branches of `smooth`, and what an eighth leaves of a difference. -/
theorem asymmetricSmoothing : Obligations.AsymmetricSmoothing := by
  refine fun cur raw => ⟨smooth_of_far, fun near => ⟨smooth_of_near near, ?_⟩⟩
  rw [smooth_of_near near, ← Int.sub_sub, natAbs_sub_tdiv_eight]

/-- The smoothed sample does not pass the larger of the old sample and the new reading. -/
theorem smooth_le_max (cur raw : Nat) : smooth cur raw ≤ max cur raw := by
  rcases Nat.lt_or_ge 10000 ((raw : Int) - cur).natAbs with far | near
  · rw [smooth_of_far far]
    exact Nat.le_max_right cur raw
  · have moved := smooth_of_near near
    have eighth := tdiv_eight_cases ((raw : Int) - cur)
    omega

/-! ## The close of a gate (R152, R153, R155) -/

theorem gateMult_le (g : GateTime) : gateMult g ≤ 10000 := by cases g <;> decide

theorem Meas.edgesSinceOpen_lt (m : Meas) : m.edgesSinceOpen < 2 ^ 40 := by
  have count := m.gateCount.isLt
  have tally := m.gateOvf.isLt
  show m.gateCount.toNat + m.gateOvf.toNat * 2 ^ 24 < 2 ^ 40
  omega

/-- The new sample of any gate fits its register, so no close of a gate is refused (R14). -/
theorem Meas.smooth_gate_lt (m : Meas) (g : GateTime) :
    smooth m.freq.toNat (m.edgesSinceOpen * gateMult g) < 2 ^ 64 := by
  have sample := m.freq.isLt
  have reading : m.edgesSinceOpen * gateMult g ≤ 2 ^ 40 * 10000 :=
    Nat.mul_le_mul m.edgesSinceOpen_lt.le (gateMult_le g)
  have between := smooth_le_max m.freq.toNat (m.edgesSinceOpen * gateMult g)
  omega

/-- Settles O42: the close takes the count, and its sample fits. -/
theorem gateCloseUpdatesSample : Obligations.GateCloseUpdatesSample := by
  refine ⟨by decide, fun s dead => ((eventsOutsideTheirModeAreIgnored s).1 dead).2,
    fun s counter gated => ?_⟩
  obtain ⟨f, sample⟩ : ∃ f : BitVec 64,
      f.toNat = smooth s.meas.freq.toNat (s.meas.edgesSinceOpen * gateMult s.ctrl.gateSel) :=
    ⟨.ofNatLT _ (s.meas.smooth_gate_lt s.ctrl.gateSel), rfl⟩
  refine ⟨f, sample.trans ?_,
    State.onEvent_of_live ⟨counter, gated⟩ (Meas.gateClose_eq_some_iff.mpr ⟨f, sample, rfl⟩)⟩
  cases s.ctrl.gateSel <;> rfl

/-! ## The captures (R157) -/

/-- The `ARG` of a capture: 7 zero bits, the overflow, the pulse and the period (R83). -/
theorem assemble_capture (period pulse : BitVec 24) (ovf : Bool) :
    assemble .evCapture (0#7 ++ BitVec.ofBool ovf ++ pulse ++ period) =
      some (.evCapture period pulse ovf) := by
  have legal : 0#7 ++ BitVec.ofBool ovf ++ pulse ++ period < 0x2000000000000#56 := by
    have flag := (BitVec.ofBool ovf).isLt
    have high := pulse.isLt
    have low := period.isLt
    simp only [BitVec.lt_def, toNat_append_eq_add, BitVec.toNat_ofNat]
    omega
  have low : (0#7 ++ BitVec.ofBool ovf ++ pulse ++ period).extractLsb' 0 24 = period :=
    BitVec.extractLsb'_append_eq_right
  have mid : (0#7 ++ BitVec.ofBool ovf ++ pulse ++ period).extractLsb' 24 24 = pulse :=
    (BitVec.extractLsb'_append_eq_of_le (Nat.le_refl 24)).trans BitVec.extractLsb'_append_eq_right
  have high : (0#7 ++ BitVec.ofBool ovf ++ pulse ++ period).getLsbD 48 = ovf := by
    rw [BitVec.getLsbD_append, if_neg (by decide), BitVec.getLsbD_append, if_neg (by decide),
      BitVec.getLsbD_append, if_pos (by decide)]
    cases ovf <;> rfl
  show (if _ then some _ else none) = _
  rw [if_pos legal, low, mid, high]

theorem decode_capture (period pulse : BitVec 24) (ovf : Bool) :
    decode (mkWord 0x82#8 (0#7 ++ BitVec.ofBool ovf ++ pulse ++ period)) =
      .stimulus (.evCapture period pulse ovf) := by
  rw [decode_eq_stimulus_iff, opcField_mkWord, argField_mkWord]
  exact ⟨.evCapture, rfl, assemble_capture period pulse ovf⟩

/-- Another capture of a window below `2^30` captures fits the three sums (R258). -/
theorem Meas.CaptureFits.sums_lt {m : Meas} (fits : m.CaptureFits) (period pulse : BitVec 24) :
    m.accPeriod.toNat + period.toNat < 2 ^ 64 ∧ m.accDuty.toNat + pulse.toNat < 2 ^ 64 ∧
      m.accEdges.toNat + 1 < 2 ^ 32 := by
  obtain ⟨edges, periods, pulses⟩ := fits
  omega

/-- Settles O43: the capture's fields, and three sums that fit. -/
theorem captureAccumulates : Obligations.CaptureAccumulates := by
  refine ⟨fun period pulse ovf => ⟨decode_capture period pulse ovf,
    fun s dead => ((eventsOutsideTheirModeAreIgnored s).2 dead).2 period pulse ovf⟩,
    fun s period pulse ovf counter direct fits => ?_⟩
  obtain ⟨periods, pulses, edges⟩ := fits.sums_lt period pulse
  exact ⟨.ofNatLT _ periods, .ofNatLT _ pulses, .ofNatLT _ edges, rfl, rfl, rfl,
    State.onEvent_of_live ⟨counter, direct⟩
      (Meas.capture_eq_some_iff.mpr ⟨_, _, _, rfl, rfl, rfl, rfl⟩)⟩

/-! ## The end of a window (R158, R160, R161) -/

theorem Meas.recompute_of_empty {c : Nat} {m : Meas}
    (empty : ¬ (0 < m.accEdges.toNat ∧ 0 < m.accPeriod.toNat)) : m.recompute c = some m :=
  Meas.recompute_eq_some_iff.mpr (.inr ⟨empty, rfl⟩)

/-- The frequency of fewer than `2^30` captures fits, whatever the trim (R258). -/
theorem reciprocalFreq_lt (trim : BitVec 28) {edges : Nat} (few : edges < 2 ^ 30) (period : Nat) :
    crystalRef trim * edges / period < 2 ^ 64 :=
  calc crystalRef trim * edges / period
      ≤ crystalRef trim * edges := Nat.div_le_self _ _
    _ ≤ 12134217727 * 2 ^ 30 := Nat.mul_le_mul (crystalRef_bounds trim).2 few.le
    _ < 2 ^ 64 := by decide

theorem Meas.WindowFits.reciprocalDuty_lt {m : Meas} (fits : m.WindowFits) :
    reciprocalDuty m.accOvf m.accDuty.toNat m.accPeriod.toNat < 2 ^ 64 := by
  cases ovf : m.accOvf with
  | false => exact fits.duty ovf
  | true => exact Nat.two_pow_pos 64

/-- A window with an edge and a period that fits gives a new sample (R160, R161). -/
theorem Meas.WindowFits.exists_recompute {m : Meas} (fits : m.WindowFits) (trim : BitVec 28)
    (window : 0 < m.accEdges.toNat ∧ 0 < m.accPeriod.toNat) :
    ∃ f d : BitVec 64,
      f.toNat = crystalRef trim * m.accEdges.toNat / m.accPeriod.toNat ∧
      d.toNat = reciprocalDuty m.accOvf m.accDuty.toNat m.accPeriod.toNat ∧
      m.recompute (crystalRef trim) =
        some { m with freq := f, duty := d, dutyValid := !m.accOvf, stale := false } :=
  ⟨.ofNatLT _ (reciprocalFreq_lt trim fits.edges _), .ofNatLT _ fits.reciprocalDuty_lt, rfl, rfl,
    Meas.recompute_eq_some_iff.mpr (.inl ⟨window.1, window.2, _, _, rfl, rfl, rfl⟩)⟩

/-- The registers that the end of a window finds: the tick's own bookkeeping is done, and the next
window has begun (R158). -/
def Meas.atWindowEnd (m : Meas) : Meas := { m.graceTick with winTicks := 0 }

/-- The last tick of a window is its window end (R158, R160). -/
theorem exec_evRefTick_last {s : State} {r : Meas} (live : s.live .direct)
    (last : s.meas.winTicks.toNat + 1 = s.params.W)
    (recomputed : s.meas.atWindowEnd.recompute s.crystalRef = some r) :
    exec .evRefTick s = .next (s.withMeas (Meas.modeCycle s.threshPair
      { r with accPeriod := 0, accDuty := 0, accEdges := 0, accOvf := false })) := by
  obtain ⟨-, -, -, wide, -⟩ := s.params.admitted
  refine State.onEvent_of_live live (Meas.windowTick_eq_some_iff.mpr ⟨last ▸ wide, .inl ⟨last, ?_⟩⟩)
  exact Meas.windowEnd_eq_some_iff.mpr ⟨r, recomputed, rfl⟩

/-- Settles O45: the sample of a window with an edge and a period, or the one the tick left. -/
theorem windowEndRecomputesSample : Obligations.WindowEndRecomputesSample := by
  intro s counter direct last fits
  have zero := s.meas.graceTick_zeroTicks_toNat
  by_cases window : 0 < s.meas.accEdges.toNat ∧ 0 < s.meas.accPeriod.toNat
  · have taken : s.meas.atWindowEnd.WindowFits := ⟨fits.edges, fits.duty⟩
    obtain ⟨f, d, freq, duty, recomputed⟩ := taken.exists_recompute s.trim window
    refine ⟨s.meas.graceTick.zeroTicks, f, d, !s.meas.accOvf, false, zero,
      fun _ => ⟨freq, fun clean => ?_, fun overflowed => ?_, rfl⟩,
      fun empty => absurd window empty, exec_evRefTick_last ⟨counter, direct⟩ last recomputed⟩
    · rw [clean]
      exact ⟨duty.trans (congrArg (reciprocalDuty · _ _) clean), rfl⟩
    · rw [overflowed]
      exact ⟨BitVec.eq_of_toNat_eq (duty.trans (congrArg (reciprocalDuty · _ _) overflowed)), rfl⟩
  · refine ⟨s.meas.graceTick.zeroTicks, s.meas.freq, s.meas.duty, s.meas.dutyValid,
      s.meas.graceTick.stale, zero, fun full => absurd full window,
      fun _ => ⟨rfl, rfl, rfl, ?_⟩,
      exec_evRefTick_last ⟨counter, direct⟩ last (Meas.recompute_of_empty window)⟩
    rw [zero, Meas.graceTick_stale]

end Sys2Proof.Machine
end

