-- ==== Sys2Proof/Proofs/ModeController.lean ====
section
/-! The mode controller: the cool-down, the strict comparisons and what a switch clears
(spec/43_mode_controller.md R181 to R185). -/

namespace Sys2Proof.Machine

/-! ## A measurement cycle (R181) -/

/-- The cool-down of a cycle that does not evaluate: one down, and no wrap. -/
theorem cooldown_sub_one_toNat {block : BitVec 2} (cooling : 0 < block.toNat) :
    (block - 1).toNat = block.toNat - 1 :=
  BitVec.toNat_sub_of_le (BitVec.le_def.mpr cooling)

theorem Meas.modeCycle_of_cooling {pair : ThreshPair} {m : Meas} (cooling : 0 < m.block.toNat) :
    m.modeCycle pair = { m with block := m.block - 1 } := by
  have running : m.block ≠ 0 := fun zero => absurd (zero ▸ cooling) (by decide)
  exact if_neg running

theorem Meas.modeCycle_of_block_zero {pair : ThreshPair} {m : Meas} (zero : m.block = 0) :
    m.modeCycle pair = m.evaluate pair :=
  if_pos zero

/-! ## The transition rule (R182) -/

theorem Meas.evaluate_of_gated {pair : ThreshPair} {m : Meas} (gated : m.mmode = .gated) :
    m.evaluate pair = if m.freq.toNat < pair.lo then m.switchTo .direct else m := by
  simp only [Meas.evaluate, gated]

theorem Meas.evaluate_of_direct {pair : ThreshPair} {m : Meas} (direct : m.mmode = .direct) :
    m.evaluate pair = if pair.hi < m.freq.toNat then m.switchTo .gated else m := by
  simp only [Meas.evaluate, direct]

/-- A switch leaves the reset measurement but for the sample, the new mode and the cool-down
(R184, R185). -/
theorem Meas.switchTo_eq (mode : MeasMode) (m : Meas) :
    m.switchTo mode = { Meas.reset with freq := m.freq, mmode := mode, block := 3 } := rfl

/-- Settles O48: the cool-down or, at 0, the comparison of the mode that is active. -/
theorem modeCycleTransitions : Obligations.ModeCycleTransitions := by
  refine fun pair m => ⟨fun cooling => ?_, fun zero gated below => ?_, fun zero gated notBelow => ?_,
    fun zero direct above => ?_, fun zero direct notAbove => ?_⟩
  · exact ⟨m.block - 1, cooldown_sub_one_toNat cooling, Meas.modeCycle_of_cooling cooling⟩
  · rw [Meas.modeCycle_of_block_zero zero, Meas.evaluate_of_gated gated, if_pos below,
      Meas.switchTo_eq]
  · rw [Meas.modeCycle_of_block_zero zero, Meas.evaluate_of_gated gated, if_neg notBelow.not_gt]
  · rw [Meas.modeCycle_of_block_zero zero, Meas.evaluate_of_direct direct, if_pos above,
      Meas.switchTo_eq]
  · rw [Meas.modeCycle_of_block_zero zero, Meas.evaluate_of_direct direct, if_neg notAbove.not_gt]

end Sys2Proof.Machine
end

