-- ==== Sys2Proof/Proofs/HostCommands.lean ====
section
/-! The host's commands that change the settings and the modes: their words, what they store, and what
follows a change (spec/44_instrument_control.md R201 to R214). -/

namespace Sys2Proof

/-! ## The words -/

theorem decode_mkWord_of_assemble {op : Opcode} {a : Arg} {i : Instr} (h : assemble op a = some i) :
    decode (mkWord op.code a) = .stimulus i := by
  rw [decode_eq_stimulus_iff, opcField_mkWord, argField_mkWord]
  exact ⟨op, Opcode.ofCode?_code op, h⟩

theorem decode_setFreq (v : Arg) : decode (mkWord 0x01#8 v) = .stimulus (.setFreq v) :=
  decode_mkWord_of_assemble (op := .setFreq) rfl

theorem decode_setDuty (v : Arg) : decode (mkWord 0x02#8 v) = .stimulus (.setDuty v) :=
  decode_mkWord_of_assemble (op := .setDuty) rfl

theorem decode_setTrim (v : Arg) : decode (mkWord 0x03#8 v) = .stimulus (.setTrim v) :=
  decode_mkWord_of_assemble (op := .setTrim) rfl

theorem decode_setGate (g : GateTime) :
    decode (mkWord 0x04#8 (g.code.setWidth 56)) = .stimulus (.setGate g) :=
  decode_mkWord_of_assemble (op := .setGate) (by cases g <;> decide)

theorem decode_setThresh (t : DirectThreshold) :
    decode (mkWord 0x05#8 (t.code.setWidth 56)) = .stimulus (.setThresh t) :=
  decode_mkWord_of_assemble (op := .setThresh) (by cases t <;> decide)

theorem decode_setGen (on : Bool) :
    decode (mkWord 0x06#8 ((BitVec.ofBool on).setWidth 56)) = .stimulus (.setGen on) :=
  decode_mkWord_of_assemble (op := .setGen) (by cases on <;> decide)

theorem decode_setMode (m : OpMode) :
    decode (mkWord 0x07#8 (m.code.setWidth 56)) = .stimulus (.setMode m) :=
  decode_mkWord_of_assemble (op := .setMode) (by cases m <;> decide)

/-- The `ARG` of a trim step: the direction in bit 3, the cursor below it (R83 format T). -/
theorem decode_trimStep (cursor : BitVec 3) (dir : TrimDir) :
    decode (mkWord 0x08#8 ((dir.bit ++ cursor).setWidth 56)) = .stimulus (.trimStep cursor dir) := by
  have assembled : ∀ c : BitVec 3,
      assemble .trimStep ((dir.bit ++ c).setWidth 56) = some (.trimStep c dir) := by
    cases dir <;> decide
  exact decode_mkWord_of_assemble (op := .trimStep) (assembled cursor)

end Sys2Proof

namespace Sys2Proof.Machine

/-! ## What a command stores is in range (R50 item 1) -/

section Stored

variable {s : State}

theorem State.SettingsInRange.store_clampFreq (h : s.SettingsInRange) (v : Arg) :
    State.SettingsInRange { s with freqSet := clampFreq v } := by
  have stored := clampFreq_toNat v
  exact { h with freq_lo := by simp only [stored]; omega, freq_hi := by simp only [stored]; omega }

theorem State.SettingsInRange.store_clampDuty (h : s.SettingsInRange) (v : Arg) :
    State.SettingsInRange { s with dutySet := clampDuty v } := by
  have stored := clampDuty_toNat v
  exact { h with duty_hi := by simp only [stored]; omega }

theorem State.SettingsInRange.store_clampTrim (h : s.SettingsInRange) (t : Int) :
    State.SettingsInRange { s with trim := clampTrim t } := by
  have stored := clampTrim_toInt t
  exact { h with trim_lo := by simp only [stored]; omega, trim_hi := by simp only [stored]; omega }

/-- `CTRL` is no part of the ranges. -/
theorem State.SettingsInRange.withCtrl (h : s.SettingsInRange) (c : Ctrl) :
    (s.withCtrl c).SettingsInRange :=
  { h with }

/-! ## What follows a change (R213, R214) -/

/-- The generator's half of a change completes: the plan the settings call for in Generator mode, the
plan as it was in Counter mode (R213). -/
theorem State.SettingsInRange.generatorChange_completes (h : s.SettingsInRange) :
    ∃ p, ofFit s.generatorChange = .next (s.withPlan p) ∧
      (s.ctrl.opmode = .generator → s.PlanFor p) ∧ (s.ctrl.opmode = .counter → p = s.plan) := by
  simp only [ofFit_eq_next_iff, State.generatorChange_eq_some_iff]
  cases mode : s.ctrl.opmode with
  | generator =>
    obtain ⟨p, planFor⟩ := h.exists_planFor
    exact ⟨p, .inr ⟨rfl, p, State.plannedPlan?_eq_some_iff.mpr planFor, rfl⟩, fun _ => planFor, nofun⟩
  | counter => exact ⟨s.plan, .inl ⟨rfl, rfl⟩, nofun, fun _ => rfl⟩

theorem State.counterChange_of_generator (h : s.ctrl.opmode = .generator) : s.counterChange = s := by
  simp only [State.counterChange, h]

theorem State.counterChange_of_counter (h : s.ctrl.opmode = .counter) :
    s.counterChange = s.withMeas Meas.reset := by
  simp only [State.counterChange, h, State.measStart_eq]

/-- Both halves of a change of `TRIM` complete: the plan the settings call for in Generator mode, a
measurement started anew in Counter mode (R203, R208). -/
theorem State.SettingsInRange.trimChange_completes (h : s.SettingsInRange) :
    (s.ctrl.opmode = .generator →
      ∃ p, s.PlanFor p ∧ ofFit s.trimChange = .next (s.withPlan p)) ∧
    (s.ctrl.opmode = .counter → ofFit s.trimChange = .next (s.withMeas Meas.reset)) := by
  refine ⟨fun generator => ?_, fun counter => ?_⟩
  · obtain ⟨p, planFor⟩ := h.exists_planFor
    have planned := State.plannedPlan?_eq_some_iff.mpr planFor
    exact ⟨p, planFor, ofFit_eq_next_iff.mpr
      (State.trimChange_eq_some_iff.mpr (.inr ⟨generator, p, planned, rfl⟩))⟩
  · exact ofFit_eq_next_iff.mpr (State.trimChange_eq_some_iff.mpr (.inl ⟨counter, rfl⟩))

end Stored

/-! ## The frequency, the duty and the output enable (R201, R202, R206) -/

/-- Settles O30: the clamped frequency is in range, so the generator's half completes. -/
theorem setFreqStoresClampedFrequency : Obligations.SetFreqStoresClampedFrequency := by
  intro s v settings
  obtain ⟨p, completes, follows, stays⟩ := (settings.store_clampFreq v).generatorChange_completes
  exact ⟨decode_setFreq v, clampFreq v, p, clampFreq_toNat v, completes, follows, stays⟩

/-- Settles O31: the clamped duty is in range, so the generator's half completes. -/
theorem setDutyStoresClampedDuty : Obligations.SetDutyStoresClampedDuty := by
  intro s v settings
  obtain ⟨p, completes, follows, stays⟩ := (settings.store_clampDuty v).generatorChange_completes
  exact ⟨decode_setDuty v, clampDuty v, p, clampDuty_toNat v, completes, follows, stays⟩

/-- Settles O35: the generator's half, whose plan with the generator off is the OFF plan. -/
theorem setGenTurnsOutputOnAndOff : Obligations.SetGenTurnsOutputOnAndOff := by
  intro s on settings
  refine ⟨decode_setGen on,
    fun a large => decode_illegal_of_not_legalArg (op := .setGen) rfl (Nat.not_le.mpr large), ?_⟩
  obtain ⟨p, completes, follows, stays⟩ :=
    (settings.withCtrl { s.ctrl with genEn := on }).generatorChange_completes
  refine ⟨p, completes, fun generator => ⟨follows generator, fun off => ?_⟩, stays⟩
  obtain ⟨-, plan_off⟩ := follows generator
  exact plan_off (.inr off)

/-! ## The trim (R203, R208) -/

/-- Settles O32: the clamped trim is in range, and each half of its change completes. -/
theorem setTrimStoresClampedTrim : Obligations.SetTrimStoresClampedTrim := fun _ v settings =>
  ⟨decode_setTrim v, clampTrim v.toInt, clampTrim_toInt v.toInt,
    (settings.store_clampTrim v.toInt).trimChange_completes⟩

theorem trimDelta_up (cursor : BitVec 3) : trimDelta cursor .up = 10 ^ cursor.toNat :=
  Nat.cast_pow 10 _

theorem trimDelta_down (cursor : BitVec 3) : trimDelta cursor .down = -10 ^ cursor.toNat :=
  congrArg Neg.neg (trimDelta_up cursor)

/-- Settles O33: the exact sum of each direction, then as for `SET_TRIM`. -/
theorem trimStepClampsAfterExactSum : Obligations.TrimStepClampsAfterExactSum := by
  intro s cursor dir settings
  refine ⟨decode_trimStep cursor dir,
    fun a large => decode_illegal_of_not_legalArg (op := .trimStep) rfl (Nat.not_le.mpr large),
    decode_trimStep 3 .up, decode_trimStep 3 .down,
    clampTrim (s.trim.toInt + trimDelta cursor dir), ?up, ?down,
    (settings.store_clampTrim _).trimChange_completes⟩
  case up =>
    rintro rfl
    rw [clampTrim_toInt, trimDelta_up]
  case down =>
    rintro rfl
    rw [clampTrim_toInt, trimDelta_down, Int.sub_eq_add_neg]

/-! ## The gate and the threshold (R204, R205) -/

/-- In Generator mode a setting of the counter is stored and has no effect (R214). -/
theorem State.next_counterChange_of_generator {s : State} (c : Ctrl) (h : c.opmode = .generator) :
    Host.Outcome.next (s.withCtrl c).counterChange = (.next (s.withCtrl c) : Result) :=
  congrArg _ (State.counterChange_of_generator h)

/-- In Counter mode a setting of the counter is stored and the measurement restarts (R214). -/
theorem State.next_counterChange_of_counter {s : State} (c : Ctrl) (h : c.opmode = .counter) :
    Host.Outcome.next (s.withCtrl c).counterChange =
      (.next ((s.withCtrl c).withMeas Meas.reset) : Result) :=
  congrArg _ (State.counterChange_of_counter h)

/-- Settles O34: the words by their codes, and the counter's half of the change in each mode. -/
theorem setGateAndThreshRestartMeasurement : Obligations.SetGateAndThreshRestartMeasurement := by
  refine
    ⟨fun a large => decode_illegal_of_not_legalArg (op := .setGate) rfl (Nat.not_le.mpr large),
      fun a large => decode_illegal_of_not_legalArg (op := .setThresh) rfl (Nat.not_le.mpr large),
      decode_setGate .g0_1s, decode_setGate .g1s, decode_setGate .g5s, decode_setGate .g10s,
      decode_setThresh .alwaysGated, decode_setThresh .t1k, decode_setThresh .t10k,
      decode_setThresh .t100k, decode_setThresh .t1M, fun s => ⟨fun g => ?gate, fun t => ?thresh⟩⟩
  case gate =>
    exact ⟨decode_setGate g, State.next_counterChange_of_generator { s.ctrl with gateSel := g },
      State.next_counterChange_of_counter { s.ctrl with gateSel := g }⟩
  case thresh =>
    exact ⟨decode_setThresh t, State.next_counterChange_of_generator { s.ctrl with threshSel := t },
      State.next_counterChange_of_counter { s.ctrl with threshSel := t }⟩

/-! ## The operating mode (R207) -/

/-- Settles O36: the teardown leaves the settings and the OFF plan, which is what Counter mode calls
for; in Generator mode the plan follows. -/
theorem setModeTearsDownAndSetsUp : Obligations.SetModeTearsDownAndSetsUp := by
  intro s m settings
  refine ⟨decode_setMode m, decode_setMode .generator, decode_setMode .counter,
    fun a large => decode_illegal_of_not_legalArg (op := .setMode) rfl (Nat.not_le.mpr large), ?_⟩
  have torn_down : s.tearDown.SettingsInRange := { settings with }
  obtain ⟨p, completes, follows, stays⟩ :=
    (torn_down.withCtrl { s.ctrl with opmode := m }).generatorChange_completes
  refine ⟨p, completes, ?_⟩
  cases m with
  | generator => exact follows rfl
  | counter =>
    have off : p = Plan.reset := stays rfl
    exact ⟨nofun, fun _ => off⟩

/-! ## The no-operation (R210) -/

/-- Settles O13: the empty meaning, and format Z of its word. -/
theorem nopChangesNothing : Obligations.NopChangesNothing :=
  ⟨fun _ => rfl, decode_mkWord_of_assemble (op := .nop) (a := 0) rfl,
    fun _ nonzero => decode_illegal_of_not_legalArg (op := .nop) rfl nonzero⟩

end Sys2Proof.Machine
end

