-- ==== Sys2Proof/Proofs/GateCount.lean ====
section
/-! A gate from its edges to its close: the two count registers hold one number, each edge adds one to
it, and the close takes all of it (spec/70_reset_and_hazards.md R256; spec/20_memory.md R68). -/

namespace Sys2Proof.Machine

/-! ## Runs -/

theorem runInstrs_cons_of_next {i : Instr} {s t : State} (h : exec i s = .next t)
    (rest : List Instr) : runInstrs (i :: rest) s = runInstrs rest t := by
  simp only [runInstrs, h]

/-- A run of two lists is the run of the first and, from where it ends, of the second. -/
theorem runInstrs_append_of_next {is : List Instr} {s t : State} (h : runInstrs is s = .next t)
    (rest : List Instr) : runInstrs (is ++ rest) s = runInstrs rest t := by
  induction is generalizing s with
  | nil =>
    cases h
    rfl
  | cons i is ih =>
    cases first : exec i s with
    | next u =>
      rw [runInstrs_cons_of_next first] at h
      rw [List.cons_append, runInstrs_cons_of_next first, ih h]
    | fault r => cases r
    | refused r =>
      simp only [runInstrs, first] at h
      cases h

/-! ## The count of a gate as one number (R151) -/

theorem Meas.edgesSinceOpen_eq (m : Meas) :
    m.edgesSinceOpen = m.gateCount.toNat + m.gateOvf.toNat * 2 ^ 24 := rfl

/-- The measurement registers with `n` edges counted since the gate opened: `GATE_COUNT` has its low
24 bits and `GATE_OVF` the rest (R151). -/
def Meas.withEdges (n : Nat) (m : Meas) : Meas :=
  { m with gateCount := BitVec.ofNat 24 n, gateOvf := BitVec.ofNat 16 (n / 2 ^ 24) }

/-- The two registers are determined by the number they make up. -/
theorem Meas.withEdges_eq {m : Meas} {n : Nat} {count : BitVec 24} {tally : BitVec 16}
    (h : n = count.toNat + tally.toNat * 2 ^ 24) :
    m.withEdges n = { m with gateCount := count, gateOvf := tally } := by
  have count_lt := count.isLt
  have tally_lt := tally.isLt
  have low : BitVec.ofNat 24 n = count :=
    BitVec.eq_of_toNat_eq (by rw [BitVec.toNat_ofNat]; omega)
  have high : BitVec.ofNat 16 (n / 2 ^ 24) = tally :=
    BitVec.eq_of_toNat_eq (by rw [BitVec.toNat_ofNat]; omega)
  rw [Meas.withEdges, low, high]

@[simp] theorem Meas.withEdges_edgesSinceOpen (m : Meas) : m.withEdges m.edgesSinceOpen = m :=
  Meas.withEdges_eq rfl

theorem Meas.edgesSinceOpen_withEdges (m : Meas) {n : Nat} (h : n < 2 ^ 40) :
    (m.withEdges n).edgesSinceOpen = n := by
  show (BitVec.ofNat 24 n).toNat + (BitVec.ofNat 16 (n / 2 ^ 24)).toNat * 2 ^ 24 = n
  rw [BitVec.toNat_ofNat, BitVec.toNat_ofNat]
  omega

@[simp] theorem Meas.withEdges_withEdges (m : Meas) (n k : Nat) :
    (m.withEdges n).withEdges k = m.withEdges k := rfl

@[simp] theorem Meas.withEdges_freq (m : Meas) (n : Nat) : (m.withEdges n).freq = m.freq := rfl

@[simp] theorem State.withMeas_withMeas (s : State) (m m' : Meas) :
    (s.withMeas m).withMeas m' = s.withMeas m' := rfl

theorem State.live_withEdges {s : State} {mode : MeasMode} (live : s.live mode) (n : Nat) :
    (s.withMeas (s.meas.withEdges n)).live mode := live

/-- An edge adds exactly one, whether `GATE_COUNT` wraps or not (R151). -/
theorem Meas.countEdge_of_edgeFits {m : Meas} (fits : m.EdgeFits) :
    m.countEdge = some (m.withEdges (m.edgesSinceOpen + 1)) := by
  have count_lt := m.gateCount.isLt
  have total := m.edgesSinceOpen_eq
  unfold Meas.EdgeFits at fits
  rw [Meas.countEdge_eq_some_iff]
  by_cases full : m.gateCount.toNat = 16777215
  · have tally_fits : m.gateOvf.toNat + 1 < 65536 := by omega
    refine .inl ⟨full, tally_fits, Meas.withEdges_eq ?_⟩
    have zero : (0 : BitVec 24).toNat = 0 := rfl
    rw [zero, BitVec.toNat_ofNat]
    omega
  · refine .inr ⟨full, Meas.withEdges_eq ?_⟩
    have one : (1 : BitVec 24).toNat = 1 := rfl
    rw [BitVec.toNat_add, one]
    omega

/-! ## The edges of a gate -/

/-- `n` edges in a row add exactly `n` (R256). -/
theorem runInstrs_edges {n : Nat} {s : State} (live : s.live .gated)
    (fits : s.meas.edgesSinceOpen + n < 2 ^ 40) :
    runInstrs (List.replicate n .evEdge) s =
      .next (s.withMeas (s.meas.withEdges (s.meas.edgesSinceOpen + n))) := by
  induction n generalizing s with
  | zero =>
    rw [Nat.add_zero, Meas.withEdges_edgesSinceOpen, List.replicate_zero]
    rfl
  | succ n ih =>
    have edge_fits : s.meas.edgesSinceOpen + 1 < 2 ^ 40 := by omega
    have edge : exec .evEdge s =
        .next (s.withMeas (s.meas.withEdges (s.meas.edgesSinceOpen + 1))) :=
      State.onEvent_of_live live (Meas.countEdge_of_edgeFits edge_fits)
    have counted := s.meas.edgesSinceOpen_withEdges edge_fits
    have rest := ih (State.live_withEdges live (s.meas.edgesSinceOpen + 1))
      (by rw [State.withMeas_meas, counted]; omega)
    rw [State.withMeas_meas, counted, Meas.withEdges_withEdges, State.withMeas_withMeas,
      Nat.add_assoc, Nat.add_comm 1] at rest
    rw [List.replicate_succ, runInstrs_cons_of_next edge, rest]

/-! ## The close of a gate -/

/-- The mode cycle keeps the sample, on a switch too (R181, R184). -/
@[simp] theorem Meas.modeCycle_freq (pair : ThreshPair) (m : Meas) :
    (m.modeCycle pair).freq = m.freq := by
  rcases m.modeCycle_cases pair with ⟨-, e⟩ | ⟨-, -, -, e⟩ | ⟨-, -, -, e⟩ | ⟨-, e⟩ <;> rw [e] <;> rfl

/-- The mode cycle keeps the count of a gate or clears it (R181, R185). -/
theorem Meas.modeCycle_counts_zero {pair : ThreshPair} {m : Meas} (count : m.gateCount = 0)
    (tally : m.gateOvf = 0) :
    (m.modeCycle pair).gateCount = 0 ∧ (m.modeCycle pair).gateOvf = 0 := by
  rcases m.modeCycle_cases pair with ⟨-, e⟩ | ⟨-, -, -, e⟩ | ⟨-, -, -, e⟩ | ⟨-, e⟩ <;> rw [e]
  · exact ⟨count, tally⟩
  · exact ⟨rfl, rfl⟩
  · exact ⟨rfl, rfl⟩
  · exact ⟨count, tally⟩

/-- A live gate's close takes the whole count into the sample and leaves none of it (R152, R256). -/
theorem exists_exec_evGateClose {s : State} (live : s.live .gated) :
    ∃ u, exec .evGateClose s = .next u ∧
      u.meas.freq.toNat =
        smooth s.meas.freq.toNat (s.meas.edgesSinceOpen * gateMult s.ctrl.gateSel) ∧
      u.meas.gateCount = 0 ∧ u.meas.gateOvf = 0 := by
  obtain ⟨-, -, closes⟩ := gateCloseUpdatesSample
  obtain ⟨counter, gated⟩ := live
  obtain ⟨f, sample, close⟩ := closes s counter gated
  refine ⟨_, close, ?_, Meas.modeCycle_counts_zero rfl rfl⟩
  rw [Meas.modeCycle_freq, sample]
  cases s.ctrl.gateSel <;> rfl

/-- Settles O40: the edges make the count grow by their number, and the close takes that count. -/
theorem noEdgeLostInAGate : Obligations.NoEdgeLostInAGate := by
  simp only [Obligations.NoEdgeLostInAGate, ← Meas.edgesSinceOpen_eq]
  intro n s counter gated fits
  have live : s.live .gated := ⟨counter, gated⟩
  have edges := runInstrs_edges live fits
  generalize s.meas.edgesSinceOpen + n = total at edges fits ⊢
  have counted := s.meas.edgesSinceOpen_withEdges fits
  obtain ⟨u, close, sample, count, tally⟩ :=
    exists_exec_evGateClose (State.live_withEdges live total)
  refine ⟨_, u, edges, counted, rfl, ?run, ?sample, count, tally⟩
  case run =>
    show runInstrs (List.replicate n .evEdge ++ [.evGateClose]) s = .next u
    rw [runInstrs_append_of_next edges, runInstrs_cons_of_next close]
    rfl
  case sample =>
    rw [sample, State.withMeas_meas, State.withMeas_ctrl, Meas.withEdges_freq, counted]

end Sys2Proof.Machine
end

