-- ==== Sys2Proof/Proofs/Reset.lean ====
section
/-! `RESET` and the state after it (spec/70_reset_and_hazards.md R250, R251). -/

namespace Sys2Proof.Machine

/-- An unmapped index reads 0 (R63). -/
theorem State.regRead_of_unmapped {idx : BitVec 8} (h : Reg.ofIndex? idx = none) (s : State) :
    s.regRead idx = 0 := by
  simp only [State.regRead, h]

/-- What each of the 28 registers shows after reset (R251). -/
theorem State.regValue_reset (r : Reg) :
    State.reset.regValue r =
      if r = .freqSet then 100#64
      else if r = .crystalRef then 12000000000#64
      else if r = .gateTicks then 1200000#64
      else 0#64 := by
  cases r <;> rfl

/-- Settles O10: the 28 registers, and the unmapped indices, among which the three are not. -/
theorem resetRegisterValues : Obligations.ResetRegisterValues := by
  intro idx
  cases mapped : Reg.ofIndex? idx with
  | none =>
    have unmapped : ∀ r : Reg, idx ≠ r.index := by
      rintro r rfl
      rw [Reg.ofIndex?_index] at mapped
      cases mapped
    rw [State.regRead_of_unmapped mapped]
    exact ((if_neg (unmapped .freqSet)).trans ((if_neg (unmapped .crystalRef)).trans
      (if_neg (unmapped .gateTicks)))).symm
  | some r =>
    obtain rfl := Reg.index_of_ofIndex? mapped
    rw [State.regRead_index, State.regValue_reset]
    cases r <;> rfl

/-- `RESET` is no command of the host, so the command port cannot carry its word (R81, R90). -/
theorem decode_hostWord_ne_reset (p : BitVec 63) : decode (hostWord p) ≠ .stimulus .reset := by
  intro h
  have host : Agent.reset = .host := agent_of_decode_host (srcTag_hostWord p) h
  cases host

/-- Settles O52: the word's decoding, the port, the flag's one way back to 0, and the registers that
`RESET` writes. -/
theorem resetWritesEveryRegister : Obligations.ResetWritesEveryRegister := by
  refine ⟨decode_mkWord_of_assemble (op := .reset) (a := 0) rfl, decode_hostWord_ne_reset,
    fun i s t run set clear => ?_, fun s => ⟨_, _, execReset_eq s⟩⟩
  by_contra not_reset
  rw [exec_keeps_illegal run not_reset set] at clear
  cases clear

end Sys2Proof.Machine
end

