-- ==== Sys2Proof/Proofs/Codec.lean ====
section
/-! The encoder and the decoder are inverse to each other, operand by operand (spec/30_encoding.md
R82, R83, R96), and what a step makes of a word (R93, R95). -/

namespace Sys2Proof

open Sys2Proof.Machine (toNat_append_eq_add decode_capture)

/-! ## The operands, by format (R83) -/

theorem GateTime.ofCode?_eq_some_iff {e : Arg} {g : GateTime} :
    GateTime.ofCode? e = some g ↔ e = g.code.setWidth 56 := by
  constructor
  · intro h
    unfold GateTime.ofCode? at h
    split_ifs at h with h0 h1 h2 h3 <;> cases h <;> assumption
  · rintro rfl
    cases g <;> decide

theorem DirectThreshold.ofCode?_eq_some_iff {e : Arg} {t : DirectThreshold} :
    DirectThreshold.ofCode? e = some t ↔ e = t.code.setWidth 56 := by
  constructor
  · intro h
    unfold DirectThreshold.ofCode? at h
    split_ifs at h with h0 h1 h2 h3 h4 <;> cases h <;> assumption
  · rintro rfl
    cases t <;> decide

theorem OpMode.ofCode?_eq_some_iff {e : Arg} {m : OpMode} :
    OpMode.ofCode? e = some m ↔ e = m.code.setWidth 56 := by
  constructor
  · intro h
    unfold OpMode.ofCode? at h
    split_ifs at h with h0 h1 <;> cases h <;> assumption
  · rintro rfl
    cases m <;> decide

theorem onOff?_eq_some_iff {e : Arg} {on : Bool} :
    onOff? e = some on ↔ e = (BitVec.ofBool on).setWidth 56 := by
  constructor
  · intro h
    unfold onOff? at h
    split_ifs at h with h0 h1 <;> cases h <;> assumption
  · rintro rfl
    cases on <;> decide

theorem TrimDir.bit_ofBit (b : Bool) : (TrimDir.ofBit b).bit = BitVec.ofBool b := by
  cases b <;> rfl

/-- The low byte of an argument that is no more than a byte is all of it (format R). -/
theorem setWidth_extractLsb'_byte {a : Arg} (h : a.toNat ≤ 255) :
    (a.extractLsb' 0 8).setWidth 56 = a := by
  refine BitVec.eq_of_toNat_eq ?_
  rw [BitVec.toNat_setWidth_of_le (by decide), BitVec.extractLsb'_toNat, Nat.shiftRight_zero,
    Nat.mod_eq_of_lt (by omega)]

theorem extractLsb'_setWidth_byte (x : BitVec 8) : (x.setWidth 56).extractLsb' 0 8 = x := by
  refine BitVec.eq_of_toNat_eq ?_
  rw [BitVec.extractLsb'_toNat, BitVec.toNat_setWidth_of_le (by decide), Nat.shiftRight_zero,
    Nat.mod_eq_of_lt x.isLt]

/-- The bit `k` of an argument as a number. -/
theorem toNat_ofBool_getLsbD (a : Arg) (k : Nat) :
    (BitVec.ofBool (a.getLsbD k)).toNat = a.toNat / 2 ^ k % 2 := by
  rw [BitVec.toNat_ofBool, ← BitVec.testBit_toNat, Nat.toNat_testBit]

/-- The direction bit above the cursor make up a trim step's argument again (format T). -/
theorem trimStep_fields {a : Arg} (h : a.toNat ≤ 15) :
    ((TrimDir.ofBit (a.getLsbD 3)).bit ++ a.extractLsb' 0 3).setWidth 56 = a := by
  refine BitVec.eq_of_toNat_eq ?_
  rw [TrimDir.bit_ofBit, BitVec.toNat_setWidth_of_le (by decide), toNat_append_eq_add,
    toNat_ofBool_getLsbD, BitVec.extractLsb'_toNat, Nat.shiftRight_zero]
  omega

/-- The overflow above the pulse above the period make up a capture's argument again (format C). -/
theorem evCapture_fields {a : Arg} (h : a.toNat < 2 ^ 49) :
    (BitVec.ofBool (a.getLsbD 48) ++ a.extractLsb' 24 24 ++ a.extractLsb' 0 24).setWidth 56 =
      a := by
  refine BitVec.eq_of_toNat_eq ?_
  rw [BitVec.toNat_setWidth_of_le (by decide), toNat_append_eq_add, toNat_append_eq_add,
    toNat_ofBool_getLsbD, BitVec.extractLsb'_toNat, BitVec.extractLsb'_toNat, Nat.shiftRight_zero,
    Nat.shiftRight_eq_div_pow]
  omega

/-- The reserved bits of a capture's argument are 0 (format C). -/
theorem setWidth_capture_eq_append (period pulse : BitVec 24) (ovf : Bool) :
    (BitVec.ofBool ovf ++ pulse ++ period).setWidth 56 =
      0#7 ++ BitVec.ofBool ovf ++ pulse ++ period := by
  refine BitVec.eq_of_toNat_eq ?_
  simp only [BitVec.toNat_setWidth_of_le (show 1 + 24 + 24 ≤ 56 by decide), toNat_append_eq_add,
    BitVec.toNat_ofNat]
  omega

/-! ## Assembling operands and taking them apart -/

/-- The operands that an argument assembles to are well formed, and they encode to that argument
(R83). -/
theorem arg_of_assemble {op : Opcode} {a : Arg} {i : Instr} (h : assemble op a = some i) :
    i.arg = a ∧ i.wellFormed = true := by
  have legal : op.LegalArg a := (assemble_isSome op a).mp (by rw [h]; rfl)
  cases op with
  | nop | synth | evEdge | evGateClose | evRefTick | reset =>
    obtain ⟨rfl, rfl⟩ := noOperand_eq_some_iff.mp h
    exact ⟨rfl, rfl⟩
  | setFreq | setDuty | setTrim =>
    cases h
    exact ⟨rfl, rfl⟩
  | setGate =>
    obtain ⟨g, code, rfl⟩ := Option.map_eq_some_iff.mp h
    exact ⟨(GateTime.ofCode?_eq_some_iff.mp code).symm, rfl⟩
  | setThresh =>
    obtain ⟨t, code, rfl⟩ := Option.map_eq_some_iff.mp h
    exact ⟨(DirectThreshold.ofCode?_eq_some_iff.mp code).symm, rfl⟩
  | setGen =>
    obtain ⟨on, code, rfl⟩ := Option.map_eq_some_iff.mp h
    exact ⟨(onOff?_eq_some_iff.mp code).symm, rfl⟩
  | setMode =>
    obtain ⟨m, code, rfl⟩ := Option.map_eq_some_iff.mp h
    exact ⟨(OpMode.ofCode?_eq_some_iff.mp code).symm, rfl⟩
  | trimStep =>
    obtain ⟨-, fields⟩ := Option.ite_none_right_eq_some.mp h
    cases fields
    exact ⟨trimStep_fields legal, rfl⟩
  | rd =>
    obtain ⟨-, fields⟩ := Option.ite_none_right_eq_some.mp h
    cases fields
    exact ⟨setWidth_extractLsb'_byte legal.1, legal.2⟩
  | evCapture =>
    obtain ⟨-, fields⟩ := Option.ite_none_right_eq_some.mp h
    cases fields
    exact ⟨evCapture_fields legal, rfl⟩

/-- Settles O3: the number of a decoded operation is the word's `OPC`, and its operands make up the
word's `ARG`. -/
theorem encodeOfDecodeIsIdentity : Obligations.EncodeOfDecodeIsIdentity := by
  intro w i h
  obtain ⟨op, code, assembled⟩ := decode_eq_stimulus_iff.mp h
  obtain ⟨arg, wellFormed⟩ := arg_of_assemble assembled
  refine ⟨?_, wellFormed⟩
  rw [encode, arg, opcode_of_assemble assembled, Opcode.code_of_ofCode? code, mkWord_fields]

/-- `RD` of a mapped index (format R). -/
theorem decode_rd {idx : BitVec 8} (mapped : mappedIndex idx = true) :
    decode (mkWord 0x0A#8 (idx.setWidth 56)) = .stimulus (.rd idx) := by
  have legal : idx.setWidth 56 ≤ 255 ∧ mappedIndex ((idx.setWidth 56).extractLsb' 0 8) = true := by
    rw [extractLsb'_setWidth_byte, BitVec.le_def, BitVec.toNat_setWidth_of_le (by decide)]
    exact ⟨Nat.le_of_lt_succ idx.isLt, mapped⟩
  refine decode_mkWord_of_assemble (op := .rd) ((if_pos legal).trans ?_)
  rw [extractLsb'_setWidth_byte]

/-- Settles O2: each stimulus by the format of its operands. -/
theorem decodeOfEncodeIsIdentity : Obligations.DecodeOfEncodeIsIdentity := by
  intro i wellFormed
  cases i with
  | nop => exact decode_mkWord_of_assemble (op := .nop) rfl
  | setFreq v => exact decode_setFreq v
  | setDuty v => exact decode_setDuty v
  | setTrim v => exact decode_setTrim v
  | setGate g => exact decode_setGate g
  | setThresh t => exact decode_setThresh t
  | setGen on => exact decode_setGen on
  | setMode m => exact decode_setMode m
  | trimStep cursor dir => exact decode_trimStep cursor dir
  | synth => exact decode_mkWord_of_assemble (op := .synth) rfl
  | rd idx => exact decode_rd wellFormed
  | evEdge => exact decode_mkWord_of_assemble (op := .evEdge) rfl
  | evGateClose => exact decode_mkWord_of_assemble (op := .evGateClose) rfl
  | evCapture period pulse ovf =>
    have word : encode (.evCapture period pulse ovf) =
        mkWord 0x82#8 (0#7 ++ BitVec.ofBool ovf ++ pulse ++ period) :=
      congrArg (mkWord 0x82#8) (setWidth_capture_eq_append period pulse ovf)
    rw [word]
    exact decode_capture period pulse ovf
  | evRefTick => exact decode_mkWord_of_assemble (op := .evRefTick) rfl
  | reset => exact decode_mkWord_of_assemble (op := .reset) rfl

/-- Settles O1: the words of R84 to R86 and of the test vectors, evaluated. -/
theorem knownWordsDecode : Obligations.KnownWordsDecode := by
  unfold Obligations.KnownWordsDecode
  decide

/-! ## Illegal host words (R93) -/

/-- The undefined numbers with `SRC = 0` (R90, R93). -/
theorem Opcode.ofCode?_eq_none_of_host {o : Opc} (src : o.toNat < 0x80) :
    Opcode.ofCode? o = none ↔ 0x0B ≤ o.toNat := by
  have all : ∀ c : Opc, c.toNat < 0x80 → (Opcode.ofCode? c = none ↔ 0x0B ≤ c.toNat) := by decide
  exact all o src

/-- R93: the illegal words, among those with `SRC = 0`. -/
theorem no_row_selects_host_iff {o : Opc} (src : o.toNat < 0x80) (a : Arg) :
    (∀ op : Opcode, op.selects (mkWord o a) = false) ↔
      0x0B ≤ o.toNat ∨
      ((o = 0x00#8 ∨ o = 0x09#8) ∧ a ≠ 0) ∨
      (o = 0x04#8 ∧ 3 < a.toNat) ∨
      (o = 0x05#8 ∧ 4 < a.toNat) ∨
      ((o = 0x06#8 ∨ o = 0x07#8) ∧ 1 < a.toNat) ∨
      (o = 0x08#8 ∧ 15 < a.toNat) ∨
      (o = 0x0A#8 ∧ (255 < a.toNat ∨ mappedIndex (a.extractLsb' 0 8) = false)) := by
  cases found : Opcode.ofCode? o with
  | none =>
    exact iff_of_true (no_row_selects_of_undefined found a)
      (.inl ((Opcode.ofCode?_eq_none_of_host src).mp found))
  | some op =>
    obtain rfl := Opcode.code_of_ofCode? found
    rw [no_row_selects_code_iff]
    cases op with
    | nop | setFreq | setDuty | setTrim | setGate | setThresh | setGen | setMode | trimStep
    | synth =>
      simp [Opcode.LegalArg, Opcode.code]
    | rd => simp [Opcode.LegalArg, Opcode.code, imp_iff_not_or]
    | evEdge | evGateClose | evCapture | evRefTick | reset => exact absurd src (by decide)

/-- A host word that no row selects is illegal (R93, R95). -/
theorem decode_of_no_row_host {w : Word} (src : srcTag w = false)
    (no_row : ∀ op : Opcode, op.selects w = false) : decode w = .illegalHostWord := by
  cases verdict : decode w with
  | stimulus i => exact absurd verdict (decode_ne_stimulus_of_no_row no_row i)
  | illegalHostWord => rfl
  | malformedEventWord =>
    rw [decode_eq_malformed_src verdict] at src
    cases src

end Sys2Proof

namespace Sys2Proof.Machine

theorem step_illegalHostWord {s : State} {w : Word} {rest : List Word} (trace : s.trace = w :: rest)
    (h : decode w = .illegalHostWord) :
    step s = .next (State.illegalWord (isRdWord w) { s with trace := rest }) :=
  (step_cons trace).trans (accept_illegalHostWord h _)

/-- Settles O5: the step accepts the word, which is illegal; the words in question are those whose
number or argument R83 and R90 leave out. -/
theorem illegalHostWordSetsOneFlag : Obligations.IllegalHostWordSetsOneFlag := by
  refine ⟨fun s w rest trace src no_row => ?_, fun _ arg src => no_row_selects_host_iff src arg⟩
  rw [step_illegalHostWord trace (decode_of_no_row_host src no_row)]
  simp [State.illegalWord, State.flagIllegal, isRdWord, opcField, Opcode.code]

/-! ## Reading a register (R61, R63, R211) -/

/-- The mapped indices are those of the registers (R61). -/
theorem Reg.ofIndex?_isSome (idx : BitVec 8) : (Reg.ofIndex? idx).isSome = mappedIndex idx := by
  have all : ∀ idx : BitVec 8, (Reg.ofIndex? idx).isSome = mappedIndex idx := by decide
  exact all idx

/-- Settles O12: the two kinds of index, by the register map. -/
theorem readShowsRegisterAndChangesNone : Obligations.ReadShowsRegisterAndChangesNone := by
  intro s idx
  constructor
  · intro mapped
    obtain ⟨r, found⟩ := Option.isSome_iff_exists.mp ((Reg.ofIndex?_isSome idx).trans mapped)
    obtain rfl := Reg.index_of_ofIndex? found
    refine ⟨decode_rd mapped, ?_⟩
    rw [exec_rd_of_mapped found, State.regRead_index]
  · intro unmapped
    have none_found : Reg.ofIndex? idx = none := by
      simpa [unmapped] using Reg.ofIndex?_isSome idx
    have not_legal : ¬ Opcode.rd.LegalArg (idx.setWidth 56) := by
      rintro ⟨-, mapped⟩
      rw [extractLsb'_setWidth_byte, unmapped] at mapped
      cases mapped
    have illegal : decode (mkWord 0x0A#8 (idx.setWidth 56)) = .illegalHostWord :=
      decode_illegal_of_not_legalArg (op := .rd) rfl not_legal
    refine ⟨State.regRead_of_unmapped none_found s, fun rest => ?_,
      exec_rd_of_unmapped none_found s⟩
    have opcode : isRdWord (mkWord 0x0A#8 (idx.setWidth 56)) = true := by
      rw [isRdWord, opcField_mkWord]
      rfl
    refine (step_illegalHostWord rfl illegal).trans ?_
    rw [opcode]
    rfl

/-! ## Steps and cycles (R21, R95, R236) -/

/-- Settles O8: accepting a word runs the operation it decodes to. -/
theorem stepRunsDecodedStimulus : Obligations.StepRunsDecodedStimulus := by
  refine ⟨fun s w rest i trace h => (step_cons trace).trans ?_, fun s => step_nil⟩
  simp only [accept, h]

/-- A strobe's word decodes to the strobe, when it is asserted (R81). -/
theorem map_decode_strobeWord (on : Bool) {i : Instr} (h : i.wellFormed = true) :
    (strobeWord on i).map decode = if on then [.stimulus i] else [] := by
  cases on with
  | false => rfl
  | true => exact congrArg (fun v => [v]) (decodeOfEncodeIsIdentity i h)

/-- Settles O9: the words of a cycle, each of which decodes to the stimulus it encodes. -/
theorem coincidentStrobesInFixedOrder : Obligations.CoincidentStrobesInFixedOrder := by
  refine fun c s => ⟨c.words, rfl, fun reset => ?_, fun running => ?_⟩
  · rw [Cycle.words, if_pos reset]
    exact congrArg (fun v => [v]) (decodeOfEncodeIsIdentity .reset rfl)
  · have capture (d : CaptureData) : decode (encode (.evCapture d.period d.pulse d.ovf)) =
        .stimulus (.evCapture d.period d.pulse d.ovf) := decodeOfEncodeIsIdentity _ rfl
    rw [Cycle.words, if_neg (by simp [running])]
    simp only [List.map_append, map_decode_strobeWord _ (i := .evEdge) rfl,
      map_decode_strobeWord _ (i := .evGateClose) rfl,
      map_decode_strobeWord _ (i := .evRefTick) rfl]
    cases c.capture <;> cases c.host <;> simp [capture]

end Sys2Proof.Machine
end

