-- ==== Sys2Proof/Proofs/Effects.lean ====
section
/-! What a completed stimulus has done, kind by kind: the host's commands by the settings they store
and by what follows on the plan and on the measurement (spec/44_instrument_control.md R201 to R214),
the events by the measurement registers (spec/42_measurement.md R150). -/

namespace Sys2Proof.Machine

/-! ## The host's commands -/

/-- The stimulus is a command of the host other than `RD`: it acts through the settings. -/
def isCommand : Instr → Bool
  | .nop | .setFreq _ | .setDuty _ | .setTrim _ | .setGate _ | .setThresh _ | .setGen _ | .setMode _
  | .trimStep _ _ | .synth => true
  | .rd _ | .evEdge | .evGateClose | .evCapture _ _ _ | .evRefTick | .reset => false

/-- The settings registers as a command leaves them, nothing else done yet (R201 to R208). -/
def storeSettings : Instr → State → State
  | .setFreq v, s => { s with freqSet := clampFreq v }
  | .setDuty v, s => { s with dutySet := clampDuty v }
  | .setTrim v, s => { s with trim := clampTrim (operandS v) }
  | .trimStep cursor dir, s => { s with trim := clampTrim (s.trim.toInt + trimDelta cursor dir) }
  | .setGate g, s => s.withCtrl { s.ctrl with gateSel := g }
  | .setThresh u, s => s.withCtrl { s.ctrl with threshSel := u }
  | .setGen on, s => s.withCtrl { s.ctrl with genEn := on }
  | .setMode m, s => s.withCtrl { s.ctrl with opmode := m }
  | .nop, s | .synth, s | .rd _, s | .evEdge, s | .evGateClose, s | .evCapture _ _ _, s
  | .evRefTick, s | .reset, s => s

section StoreSettings

variable (i : Instr) (s : State)

@[simp] theorem storeSettings_params : (storeSettings i s).params = s.params := by cases i <;> rfl
@[simp] theorem storeSettings_illegal : (storeSettings i s).illegal = s.illegal := by
  cases i <;> rfl
@[simp] theorem storeSettings_plan : (storeSettings i s).plan = s.plan := by cases i <;> rfl
@[simp] theorem storeSettings_meas : (storeSettings i s).meas = s.meas := by cases i <;> rfl
@[simp] theorem storeSettings_readPort : (storeSettings i s).readPort = s.readPort := by
  cases i <;> rfl
@[simp] theorem storeSettings_trace : (storeSettings i s).trace = s.trace := by cases i <;> rfl

/-- What a command stores does not depend on the plan and on the measurement, and leaves them alone.
-/
theorem storeSettings_withPlan_withMeas (p : Plan) (m : Meas) :
    storeSettings i ((s.withPlan p).withMeas m) = ((storeSettings i s).withPlan p).withMeas m := by
  cases i <;> rfl

variable {i s}

/-- Only a command that restarts the measurement changes the operating mode or the threshold. -/
theorem storeSettings_ctrl_of_not_restarts (h : restartsMeasurement i = false) :
    (storeSettings i s).ctrl.opmode = s.ctrl.opmode ∧
      (storeSettings i s).ctrl.threshSel = s.ctrl.threshSel := by
  cases i with
  | setTrim | setGate | setThresh | setMode | trimStep | reset => cases h
  | _ => exact ⟨rfl, rfl⟩

/-- Every command stores values in range (R50 item 1). -/
theorem State.SettingsInRange.storeSettings (h : s.SettingsInRange) :
    (storeSettings i s).SettingsInRange := by
  cases i with
  | setFreq v => exact h.store_clampFreq v
  | setDuty v => exact h.store_clampDuty v
  | setTrim v => exact h.store_clampTrim v.toInt
  | trimStep cursor dir => exact h.store_clampTrim _
  | setGate | setThresh | setGen | setMode => exact h.withCtrl _
  | _ => exact h

end StoreSettings

/-! ## The plan that the settings call for (R121) -/

/-- The settings call for one plan only. -/
theorem State.PlanFor.unique {s : State} {p q : Plan} (hp : s.PlanFor p) (hq : s.PlanFor q) :
    p = q := by
  rw [← State.plannedPlan?_eq_some_iff] at hp hq
  exact Option.some.inj (hp.symm.trans hq)

/-- The plan depends on the parameters, the settings and the two generator bits alone. -/
theorem State.PlanFor.congr {s t : State} {p : Plan} (h : s.PlanFor p)
    (params : t.params = s.params) (freqSet : t.freqSet = s.freqSet)
    (dutySet : t.dutySet = s.dutySet) (trim : t.trim = s.trim)
    (opmode : t.ctrl.opmode = s.ctrl.opmode) (genEn : t.ctrl.genEn = s.ctrl.genEn) :
    t.PlanFor p := by
  rw [← State.plannedPlan?_eq_some_iff] at h ⊢
  rw [State.plannedPlan?_congr params freqSet dutySet trim opmode genEn, h]

/-- In Counter mode the plan is the OFF plan (R138). -/
theorem State.planFor_iff_of_counter {s : State} {p : Plan} (h : s.ctrl.opmode = .counter) :
    s.PlanFor p ↔ p = Plan.reset := by
  rw [← State.plannedPlan?_eq_some_iff, State.plannedPlan?_off (.inl h), offPlan_eq_reset,
    Option.some.injEq, eq_comm]

/-! ## What a command does -/

/-- What a completed command `i` has done to `s`: it stored its settings; it wrote the plan they
call for, or kept the plan, which is as current as it was; it restarted the measurement, or kept it.
-/
structure CommandEffect (i : Instr) (s t : State) : Prop where
  frame : t = ((storeSettings i s).withPlan t.plan).withMeas t.meas
  plan : (synthesizes i = true ∧ (storeSettings i s).PlanFor t.plan) ∨
    (t.plan = s.plan ∧ (s.PlanCurrent → (storeSettings i s).PlanFor t.plan))
  meas : (restartsMeasurement i = true ∧ t.meas = Meas.reset) ∨
    (t.meas = s.meas ∧ (restartsMeasurement i = true → s.ctrl.opmode = .generator))

section CommandEffect

variable {i : Instr} {s t : State}

/-- A plan kept in Counter mode stays the OFF plan. -/
theorem planFor_storeSettings_of_counter (counter : s.ctrl.opmode = .counter)
    (same : (storeSettings i s).ctrl.opmode = s.ctrl.opmode) (current : s.PlanCurrent) :
    (storeSettings i s).PlanFor s.plan :=
  (State.planFor_iff_of_counter (same.trans counter)).mpr
    ((State.planFor_iff_of_counter counter).mp current)

/-- A change that concerns the generator alone (R213). -/
theorem CommandEffect.of_generatorChange (synth : synthesizes i = true)
    (keeps : restartsMeasurement i = false)
    (h : ofFit (storeSettings i s).generatorChange = .next t) : CommandEffect i s t := by
  have same := (storeSettings_ctrl_of_not_restarts (s := s) keeps).1
  have no_restart : restartsMeasurement i = true → s.ctrl.opmode = .generator := by
    rw [keeps]
    nofun
  rcases State.generatorChange_eq_some_iff.mp (ofFit_eq_next_iff.mp h) with
    ⟨counter, rfl⟩ | ⟨-, p, planned, rfl⟩
  · have was_counter := same.symm.trans counter
    refine ⟨rfl, .inr ⟨storeSettings_plan i s, fun current => ?_⟩,
      .inr ⟨storeSettings_meas i s, no_restart⟩⟩
    rw [storeSettings_plan]
    exact planFor_storeSettings_of_counter was_counter same current
  · exact ⟨rfl, .inl ⟨synth, State.plannedPlan?_eq_some_iff.mp planned⟩,
      .inr ⟨storeSettings_meas i s, no_restart⟩⟩

/-- A change of `TRIM`, which concerns both halves (R213, R214). -/
theorem CommandEffect.of_trimChange (synth : synthesizes i = true)
    (restarts : restartsMeasurement i = true)
    (same : (storeSettings i s).ctrl.opmode = s.ctrl.opmode)
    (h : ofFit (storeSettings i s).trimChange = .next t) : CommandEffect i s t := by
  rcases State.trimChange_eq_some_iff.mp (ofFit_eq_next_iff.mp h) with
    ⟨counter, rfl⟩ | ⟨generator, p, planned, rfl⟩
  · refine ⟨rfl, .inr ⟨storeSettings_plan i s, fun current => ?_⟩, .inl ⟨restarts, rfl⟩⟩
    rw [State.withMeas_plan, storeSettings_plan]
    exact planFor_storeSettings_of_counter (same.symm.trans counter) same current
  · exact ⟨rfl, .inl ⟨synth, State.plannedPlan?_eq_some_iff.mp planned⟩,
      .inr ⟨storeSettings_meas i s, fun _ => same.symm.trans generator⟩⟩

/-- A change of `GATE_SEL` or `THRESH_SEL`, on which no plan depends (R214). -/
theorem CommandEffect.of_counterChange (restarts : restartsMeasurement i = true)
    (same : (storeSettings i s).ctrl.opmode = s.ctrl.opmode)
    (current : s.PlanCurrent → (storeSettings i s).PlanFor s.plan) :
    CommandEffect i s (storeSettings i s).counterChange := by
  rcases (storeSettings i s).counterChange_cases with ⟨generator, e⟩ | ⟨-, e⟩ <;> rw [e]
  · refine ⟨rfl, .inr ⟨storeSettings_plan i s, ?_⟩,
      .inr ⟨storeSettings_meas i s, fun _ => same.symm.trans generator⟩⟩
    rwa [storeSettings_plan]
  · refine ⟨rfl, .inr ⟨storeSettings_plan i s, ?_⟩, .inl ⟨restarts, rfl⟩⟩
    rwa [State.withMeas_plan, storeSettings_plan]

/-- The change of the owner of the PLL (R207). -/
theorem CommandEffect.of_setMode {m : OpMode} (h : exec (.setMode m) s = .next t) :
    CommandEffect (.setMode m) s t := by
  rcases State.generatorChange_eq_some_iff.mp (ofFit_eq_next_iff.mp h) with
    ⟨counter, rfl⟩ | ⟨-, p, planned, rfl⟩
  · exact ⟨rfl, .inl ⟨rfl, (State.planFor_iff_of_counter counter).mpr rfl⟩, .inl ⟨rfl, rfl⟩⟩
  · have planFor := State.plannedPlan?_eq_some_iff.mp planned
    exact ⟨rfl, .inl ⟨rfl, planFor.congr rfl rfl rfl rfl rfl rfl⟩, .inl ⟨rfl, rfl⟩⟩

/-- Everything a command can do when it completes (R201 to R214, R140). -/
theorem commandEffect_of_exec (command : isCommand i = true) (h : exec i s = .next t) :
    CommandEffect i s t := by
  cases i with
  | nop =>
    cases h
    exact ⟨rfl, .inr ⟨rfl, id⟩, .inr ⟨rfl, nofun⟩⟩
  | setFreq | setDuty | setGen | synth => exact .of_generatorChange rfl rfl h
  | setTrim | trimStep => exact .of_trimChange rfl rfl rfl h
  | setGate | setThresh =>
    cases h
    exact .of_counterChange rfl rfl fun current => current.congr rfl rfl rfl rfl rfl rfl
  | setMode => exact .of_setMode h
  | rd | evEdge | evGateClose | evCapture | evRefTick | reset => cases command

/-- Every command completes from settings in range (R139). -/
theorem State.SettingsInRange.command_completes (h : s.SettingsInRange)
    (command : isCommand i = true) : ∃ t, exec i s = .next t := by
  have stored : (Machine.storeSettings i s).SettingsInRange := h.storeSettings
  obtain ⟨p, generator, -⟩ := stored.generatorChange_completes
  cases i with
  | nop | setGate | setThresh => exact ⟨_, rfl⟩
  | setFreq | setDuty | setGen | synth => exact ⟨_, generator⟩
  | setTrim | trimStep =>
    obtain ⟨of_generator, of_counter⟩ := stored.trimChange_completes
    cases mode : s.ctrl.opmode with
    | generator =>
      obtain ⟨q, -, completes⟩ := of_generator mode
      exact ⟨_, completes⟩
    | counter => exact ⟨_, of_counter mode⟩
  | setMode m =>
    obtain ⟨-, -, -, -, q, completes, -⟩ := setModeTearsDownAndSetsUp s m h
    exact ⟨_, completes⟩
  | rd | evEdge | evGateClose | evCapture | evRefTick | reset => cases command

end CommandEffect

/-! ## The events and `RD` -/

/-- An event changes the measurement registers at most (R150). -/
theorem exec_event_frame {i : Instr} {s t : State} (event : isEvent i = true)
    (h : exec i s = .next t) : t = s.withMeas t.meas := by
  cases i with
  | evEdge | evGateClose | evCapture | evRefTick => exact State.onEvent_frame h
  | _ => cases event

/-- `RD` of a mapped index changes the read port alone, and of an unmapped one the flag too (R211,
R63). -/
theorem exec_rd_cases {idx : BitVec 8} {s t : State} (h : exec (.rd idx) s = .next t) :
    (∃ v, t = { s with readPort := v }) ∨
      (mappedIndex idx = false ∧ t = s.illegalWord true) := by
  cases found : Reg.ofIndex? idx with
  | some r =>
    rw [exec_rd_of_mapped found] at h
    cases h
    exact .inl ⟨_, rfl⟩
  | none =>
    rw [exec_rd_of_unmapped found] at h
    cases h
    exact .inr ⟨by rw [← Reg.ofIndex?_isSome, found]; rfl, rfl⟩

/-- Every stimulus is a command, an `RD`, an event or `RESET` (R9). -/
theorem instr_kinds (i : Instr) :
    isCommand i = true ∨ (∃ idx, i = .rd idx) ∨ isEvent i = true ∨ i = .reset := by
  cases i with
  | rd idx => exact .inr (.inl ⟨idx, rfl⟩)
  | evEdge | evGateClose | evCapture | evRefTick => exact .inr (.inr (.inl rfl))
  | reset => exact .inr (.inr (.inr rfl))
  | _ => exact .inl rfl

end Sys2Proof.Machine
end

