-- ==== Sys2Proof/Proofs/Invariants.lean ====
section
/-! The invariants of spec/10_state.md R50: they hold after reset, every step keeps them, and under
the obligations on the environment no stimulus is refused from a state that meets them. -/

namespace Sys2Proof

/-- A window has at least one tick (R7). -/
theorem Params.W_pos (p : Params) : 0 < p.W := by
  obtain ⟨-, -, positive, -⟩ := p.admitted
  exact positive

/-- `W` fits `WIN_TICKS` (R7). -/
theorem Params.W_lt (p : Params) : p.W < 2 ^ 32 := by
  obtain ⟨-, -, -, wide, -⟩ := p.admitted
  exact wide

/-- AlwaysGated has no lower threshold (R183). -/
theorem Params.alwaysGated_lo (p : Params) : (p.pair .alwaysGated).lo = 0 := by
  obtain ⟨-, -, -, -, zero, -⟩ := p.admitted
  exact zero

end Sys2Proof

namespace Sys2Proof.Machine

/-! ## The measurement registers by themselves -/

/-- The part of R50 that is about the measurement registers alone, for a window of `W` ticks. -/
structure Meas.Inv (W : Nat) (m : Meas) : Prop where
  zeroTicks : m.zeroTicks.toNat ≤ 16
  winTicks : m.winTicks.toNat < W
  gated : m.mmode = .gated → m.GatedClean
  direct : m.mmode = .direct → m.DirectClean
  duty : m.dutyValid = false → m.duty = 0

section Meas

variable {W : Nat} {m m' : Meas}

/-- A reinitialised measurement meets the invariants, whatever the sample, the mode and the
cool-down (R184 to R186). -/
theorem Meas.inv_cleared (hW : 0 < W) (freq : BitVec 64) (mmode : MeasMode) (block : BitVec 2) :
    Meas.Inv W { Meas.reset with freq, mmode, block } where
  zeroTicks := Nat.zero_le 16
  winTicks := hW
  gated _ := ⟨rfl, rfl, rfl, rfl, rfl, rfl, rfl, rfl, rfl, rfl⟩
  direct _ := ⟨rfl, rfl⟩
  duty _ := rfl

theorem Meas.inv_reset (hW : 0 < W) : Meas.reset.Inv W := Meas.inv_cleared hW 0 .gated 0

theorem Meas.inv_switchTo (hW : 0 < W) (mode : MeasMode) (m : Meas) : (m.switchTo mode).Inv W :=
  Meas.inv_cleared hW m.freq mode 3

theorem Meas.Inv.withBlock (h : m.Inv W) (b : BitVec 2) : Meas.Inv W { m with block := b } :=
  { h with
    gated := fun gated => { h.gated gated with }
    direct := fun direct => { h.direct direct with } }

/-- A measurement cycle keeps the invariants (R181). -/
theorem Meas.Inv.modeCycle (h : m.Inv W) (pair : ThreshPair) : (m.modeCycle pair).Inv W := by
  have hW : 0 < W := Nat.zero_lt_of_lt h.winTicks
  rcases m.modeCycle_cases pair with ⟨-, e⟩ | ⟨-, -, -, e⟩ | ⟨-, -, -, e⟩ | ⟨-, e⟩ <;> rw [e]
  · exact h.withBlock _
  · exact m.inv_switchTo hW .direct
  · exact m.inv_switchTo hW .gated
  · exact h

/-- An edge in Gated mode (R151). -/
theorem Meas.Inv.countEdge (h : m.Inv W) (gated : m.mmode = .gated) (run : m.countEdge = some m') :
    m'.Inv W := by
  have clean := h.gated gated
  have not_direct : m.mmode = .direct → False := by simp [gated]
  rcases Meas.countEdge_eq_some_iff.mp run with ⟨-, -, rfl⟩ | ⟨-, rfl⟩ <;>
    exact { h with gated := fun _ => { clean with }, direct := fun d => (not_direct d).elim }

/-- The close of a gate (R152, R155). -/
theorem Meas.Inv.gateClose (h : m.Inv W) {mult : Nat} {pair : ThreshPair}
    (run : m.gateClose mult pair = some m') : m'.Inv W := by
  obtain ⟨f, -, rfl⟩ := Meas.gateClose_eq_some_iff.mp run
  refine Meas.Inv.modeCycle ?_ pair
  exact
    { h with
      gated := fun gated => { h.gated gated with dutyValid := rfl, duty := rfl }
      direct := fun _ => ⟨rfl, rfl⟩
      duty := fun _ => rfl }

/-- A capture in Direct mode (R157). -/
theorem Meas.Inv.capture (h : m.Inv W) (direct : m.mmode = .direct) {period pulse : BitVec 24}
    {ovf : Bool} (run : m.capture period pulse ovf = some m') : m'.Inv W := by
  obtain ⟨p, d, e, -, -, -, rfl⟩ := Meas.capture_eq_some_iff.mp run
  have not_gated : m.mmode = .gated → False := by simp [direct]
  exact
    { h with
      gated := fun gated => (not_gated gated).elim
      direct := fun direct => { h.direct direct with } }

/-- What the window end computes is no valid duty only when it is 0 (R161). -/
theorem Meas.Inv.recompute (h : m.Inv W) (direct : m.mmode = .direct) {c : Nat}
    (run : m.recompute c = some m') : m'.Inv W ∧ m'.mmode = .direct := by
  rcases Meas.recompute_eq_some_iff.mp run with ⟨-, -, f, d, -, duty, rfl⟩ | ⟨-, rfl⟩
  · have not_gated : m.mmode = .gated → False := by simp [direct]
    refine ⟨{ h with
      gated := fun gated => (not_gated gated).elim
      direct := fun direct => { h.direct direct with }
      duty := fun invalid => ?_ }, direct⟩
    have overflowed : m.accOvf = true := by simpa using invalid
    rw [overflowed] at duty
    exact BitVec.eq_of_toNat_eq duty
  · exact ⟨h, direct⟩

/-- The end of a window (R160). -/
theorem Meas.Inv.windowEnd (h : m.Inv W) (direct : m.mmode = .direct) {c : Nat} {pair : ThreshPair}
    (run : m.windowEnd c pair = some m') : m'.Inv W := by
  obtain ⟨r, recomputed, rfl⟩ := Meas.windowEnd_eq_some_iff.mp run
  obtain ⟨inv, still_direct⟩ := h.recompute direct recomputed
  have not_gated : r.mmode = .gated → False := by simp [still_direct]
  refine Meas.Inv.modeCycle ?_ pair
  exact
    { inv with
      gated := fun gated => (not_gated gated).elim
      direct := fun direct => { inv.direct direct with } }

/-- The tick's own bookkeeping, with the window at any tick below `W` (R158). -/
theorem Meas.Inv.graceTick (h : m.Inv W) (direct : m.mmode = .direct) {n : BitVec 32}
    (hn : n.toNat < W) : Meas.Inv W { m.graceTick with winTicks := n } where
  zeroTicks := m.graceTick_zeroTicks_toNat.trans_le (zeroTicksAfter_le _ _)
  winTicks := hn
  gated gated := absurd (direct.symm.trans gated) (by decide)
  direct d := { h.direct d with }
  duty := h.duty

/-- A reference tick in Direct mode (R158). -/
theorem Meas.Inv.refTick (h : m.Inv W) (direct : m.mmode = .direct) {c : Nat} {pair : ThreshPair}
    (run : m.refTick W c pair = some m') : m'.Inv W := by
  have hW : 0 < W := Nat.zero_lt_of_lt h.winTicks
  have within : m.graceTick.winTicks.toNat < W := h.winTicks
  obtain ⟨fits, ⟨-, ended⟩ | ⟨more, rfl⟩⟩ := Meas.windowTick_eq_some_iff.mp run
  · exact (h.graceTick direct (n := 0) hW).windowEnd direct ended
  · refine h.graceTick direct ?_
    rw [BitVec.toNat_ofNat, Nat.mod_eq_of_lt fits]
    omega

end Meas

/-! ## The whole state -/

/-- Without a lower threshold no measurement cycle leaves Gated mode (R182, R188 item 4). -/
theorem Meas.modeCycle_gated_of_lo_zero {pair : ThreshPair} {m : Meas} (lo : pair.lo = 0)
    (gated : m.mmode = .gated) : (m.modeCycle pair).mmode = .gated := by
  rcases m.modeCycle_cases pair with ⟨-, e⟩ | ⟨-, -, below, -⟩ | ⟨-, -, -, e⟩ | ⟨-, e⟩
  · rw [e]
    exact gated
  · rw [lo] at below
    exact absurd below (Nat.not_lt_zero _)
  · rw [e]
    rfl
  · rw [e]
    exact gated

theorem State.threshPair_of_threshSel {s : State} {u : DirectThreshold} (h : s.ctrl.threshSel = u) :
    s.threshPair = s.params.pair u :=
  congrArg s.params.pair h

section State

variable {s t : State}

theorem State.Inv.meas (h : s.Inv) : s.meas.Inv s.params.W :=
  { h with }

/-- The invariants by their parts: settings, plan, the measurement by itself, and the two that tie
it to `CTRL`. -/
theorem State.Inv.of_parts (settings : s.SettingsInRange) (plan : s.PlanCurrent)
    (meas : s.meas.Inv s.params.W) (idle : s.ctrl.opmode = .generator → s.meas = Meas.reset)
    (alwaysGated : s.ctrl.threshSel = .alwaysGated → s.meas.mmode = .gated) : s.Inv :=
  { meas with settings, plan, idle, alwaysGated }

/-- The flag, the read port and the model's own counter and trace are no part of the invariants. -/
theorem State.Inv.unobserved (h : s.Inv) (illegal : Bool) (readPort : Word) (freeCount : Nat)
    (trace : List Word) : State.Inv { s with illegal, readPort, freeCount, trace } :=
  { h with settings := { h.settings with } }

/-- The registers after reset meet the invariants, whatever the parameters (R251). -/
theorem State.inv_reset (params : Params) (readPort : Word) (freeCount : Nat) (trace : List Word) :
    State.Inv { State.reset with params, readPort, freeCount, trace } := by
  refine .of_parts ⟨?_, ?_, ?_, ?_, ?_⟩ ⟨fun ⟨_, on⟩ => (nomatch on), fun _ => rfl⟩
    (Meas.inv_reset params.W_pos) (fun _ => rfl) (fun _ => rfl) <;>
  simp [State.reset]

/-- Settles O53. -/
theorem resetStateMeetsInvariants : Obligations.ResetStateMeetsInvariants :=
  State.inv_reset Config.params (Config.readPortAfterReset 0) 1 []

/-- An event keeps the invariants when its effect on the measurement registers does (R150). -/
theorem State.Inv.onEvent (h : s.Inv) {mode : MeasMode} {act : Meas → Option Meas}
    (keeps : ∀ m, s.meas.mmode = mode → act s.meas = some m → m.Inv s.params.W ∧
      (s.ctrl.threshSel = .alwaysGated → m.mmode = .gated))
    (run : s.onEvent mode act = .next t) : t.Inv := by
  rcases State.onEvent_eq_next_iff.mp run with ⟨-, rfl⟩ | ⟨⟨counter, live⟩, m, acted, rfl⟩
  · exact h
  · obtain ⟨inv, gated⟩ := keeps m live acted
    exact .of_parts { h.settings with } h.plan inv
      (fun generator => absurd (counter.symm.trans generator) (by decide)) gated

/-- A command keeps the invariants: what it stores is in range, the plan is the one the settings
call for, and a measurement that it does not restart is one of the same mode and threshold, or at
rest. -/
theorem State.Inv.command (h : s.Inv) {i : Instr} (effect : CommandEffect i s t) : t.Inv := by
  obtain ⟨frame, plan, meas⟩ := effect
  have planFor : (storeSettings i s).PlanFor t.plan := by
    rcases plan with ⟨-, planFor⟩ | ⟨-, kept⟩
    · exact planFor
    · exact kept h.plan
  have settings : (storeSettings i s).SettingsInRange := h.settings.storeSettings
  have registers : t.meas.Inv s.params.W ∧
      ((storeSettings i s).ctrl.opmode = .generator → t.meas = Meas.reset) ∧
      ((storeSettings i s).ctrl.threshSel = .alwaysGated → t.meas.mmode = .gated) := by
    rcases meas with ⟨-, reset⟩ | ⟨same, owner⟩
    · rw [reset]
      exact ⟨Meas.inv_reset s.params.W_pos, fun _ => rfl, fun _ => rfl⟩
    · rw [same]
      cases restarts : restartsMeasurement i with
      | true =>
        rw [h.idle (owner restarts)]
        exact ⟨Meas.inv_reset s.params.W_pos, fun _ => rfl, fun _ => rfl⟩
      | false =>
        obtain ⟨opmode, threshSel⟩ := storeSettings_ctrl_of_not_restarts (s := s) restarts
        rw [opmode, threshSel]
        exact ⟨h.meas, h.idle, h.alwaysGated⟩
  obtain ⟨inv, idle, gated⟩ := registers
  rw [frame]
  refine .of_parts { settings with } (planFor.congr rfl rfl rfl rfl rfl rfl) ?_ idle gated
  simpa using inv

/-- The four events keep the invariants: each acts in one mode, and AlwaysGated is in Gated mode. -/
theorem State.Inv.event (h : s.Inv) {i : Instr} (event : isEvent i = true)
    (run : exec i s = .next t) : t.Inv := by
  have not_pinned (direct : s.meas.mmode = .direct) :
      s.ctrl.threshSel = .alwaysGated → False := fun pinned =>
    absurd (direct.symm.trans (h.alwaysGated pinned)) (by decide)
  cases i with
  | evEdge =>
    refine h.onEvent (fun m gated acted => ⟨h.meas.countEdge gated acted, fun _ => ?_⟩) run
    rcases Meas.countEdge_eq_some_iff.mp acted with ⟨-, -, rfl⟩ | ⟨-, rfl⟩ <;> exact gated
  | evGateClose =>
    refine h.onEvent (fun m gated acted => ⟨h.meas.gateClose acted, fun pinned => ?_⟩) run
    obtain ⟨f, -, rfl⟩ := Meas.gateClose_eq_some_iff.mp acted
    rw [State.threshPair_of_threshSel pinned]
    exact Meas.modeCycle_gated_of_lo_zero s.params.alwaysGated_lo gated
  | evCapture period pulse ovf =>
    exact h.onEvent (fun m direct acted =>
      ⟨h.meas.capture direct acted, fun pinned => (not_pinned direct pinned).elim⟩) run
  | evRefTick =>
    exact h.onEvent (fun m direct acted =>
      ⟨h.meas.refTick direct acted, fun pinned => (not_pinned direct pinned).elim⟩) run
  | _ => cases event

/-- Every stimulus keeps the invariants (R50). -/
theorem State.Inv.exec (h : s.Inv) {i : Instr} (run : exec i s = .next t) : t.Inv := by
  rcases instr_kinds i with command | ⟨idx, rfl⟩ | event | rfl
  · exact h.command (commandEffect_of_exec command run)
  · rcases exec_rd_cases run with ⟨v, rfl⟩ | ⟨-, rfl⟩
    · exact h.unobserved s.illegal v s.freeCount s.trace
    · exact h.unobserved true 0 s.freeCount s.trace
  · exact h.event event run
  · cases run
    exact State.inv_reset s.params _ _ s.trace

end State

/-- Settles O54: a step rests, runs a stimulus, or flags an illegal word. -/
theorem stepKeepsInvariants : Obligations.StepKeepsInvariants := by
  intro s t inv run
  rcases step_eq_next_cases run with ⟨-, rfl⟩ | ⟨w, rest, -, ⟨i, -, ran⟩ | ⟨-, rfl⟩⟩
  · exact inv
  · exact (inv.unobserved s.illegal s.readPort s.freeCount rest).exec ran
  · exact inv.unobserved true _ s.freeCount rest

/-! ## Completion (R258, R262) -/

/-- A tick that is not the last of its window completes (R158). -/
theorem exec_evRefTick_inside {s : State} (live : s.live .direct)
    (inside : s.meas.winTicks.toNat + 1 < s.params.W) :
    exec .evRefTick s = .next (s.withMeas
      { s.meas.graceTick with winTicks := BitVec.ofNat 32 (s.meas.winTicks.toNat + 1) }) := by
  exact State.onEvent_of_live live
    (Meas.windowTick_eq_some_iff.mpr ⟨inside.trans s.params.W_lt, .inr ⟨inside.ne, rfl⟩⟩)

/-- An event that is ignored where its mode is not live completes if it does where it is (R150). -/
theorem State.onEvent_completes {s : State} {mode : MeasMode} {act : Meas → Option Meas}
    (h : s.live mode → ∃ t, s.onEvent mode act = .next t) : ∃ t, s.onEvent mode act = .next t := by
  by_cases live : s.live mode
  · exact h live
  · exact ⟨s, State.onEvent_of_not_live live⟩

/-- Settles O55: the commands complete from settings in range, and each event from what the
environment owes it. -/
theorem everyStimulusCompletesUnderObligations :
    Obligations.EveryStimulusCompletesUnderObligations := by
  intro i s inv edge capture window
  cases i with
  | rd idx =>
    cases found : Reg.ofIndex? idx with
    | some r => exact ⟨_, exec_rd_of_mapped found s⟩
    | none => exact ⟨_, exec_rd_of_unmapped found s⟩
  | evEdge =>
    refine State.onEvent_completes fun live => ?_
    exact ⟨_, State.onEvent_of_live live (Meas.countEdge_of_edgeFits (edge rfl live.2))⟩
  | evGateClose =>
    refine State.onEvent_completes fun live => ?_
    obtain ⟨t, run, -⟩ := exists_exec_evGateClose live
    exact ⟨t, run⟩
  | evCapture period pulse ovf =>
    refine State.onEvent_completes fun ⟨counter, direct⟩ => ?_
    obtain ⟨_, _, _, -, -, -, run⟩ :=
      captureAccumulates.2 s period pulse ovf counter direct (capture rfl direct)
    exact ⟨_, run⟩
  | evRefTick =>
    refine State.onEvent_completes fun ⟨counter, direct⟩ => ?_
    rcases Nat.lt_or_eq_of_le (Nat.succ_le_of_lt inv.winTicks) with inside | last
    · exact ⟨_, exec_evRefTick_inside ⟨counter, direct⟩ inside⟩
    · obtain ⟨_, _, _, _, _, -, -, -, run⟩ :=
        windowEndRecomputesSample s counter direct last (window rfl direct last)
      exact ⟨_, run⟩
  | reset => exact ⟨_, execReset_eq s⟩
  | _ => exact inv.settings.command_completes rfl

/-! ## The operating mode, there and back (R207) -/

/-- `SET_MODE` is determined by the plan that the new mode calls for (R207). -/
theorem exec_setMode_of_planFor {s : State} {m : OpMode} {p : Plan} (settings : s.SettingsInRange)
    (planFor : State.PlanFor { s with ctrl := { s.ctrl with opmode := m } } p) :
    exec (.setMode m) s =
      .next { s with ctrl := { s.ctrl with opmode := m }, plan := p, meas := Meas.reset } := by
  obtain ⟨-, -, -, -, q, completes, follows⟩ := setModeTearsDownAndSetsUp s m settings
  rw [completes, follows.unique planFor]

/-- `SET_MODE 0` restores a state of Generator mode from any state that differs from it in the owner
of the PLL, the plan and the measurement only. -/
theorem exec_setMode_generator_restores {s t : State} (current : s.PlanCurrent)
    (differs : { t with ctrl := { t.ctrl with opmode := .generator }, plan := s.plan
                        meas := Meas.reset } = s) (settings : t.SettingsInRange) :
    exec (.setMode .generator) t = .next s := by
  have planFor : State.PlanFor { t with ctrl := { t.ctrl with opmode := .generator } } s.plan := by
    rw [State.PlanCurrent, ← differs] at current
    exact current
  rw [exec_setMode_of_planFor settings planFor, differs]

/-- Settles O37: in Generator mode the measurement is at rest and the plan is the one that `SET_MODE
0` writes. -/
theorem modeRoundTripRestoresState : Obligations.ModeRoundTripRestoresState := by
  intro s inv generator
  have at_rest : { s with ctrl := { s.ctrl with opmode := .generator }, plan := s.plan
                          meas := Meas.reset } = s := by
    rw [← generator, ← inv.idle generator]
  refine ⟨exec_setMode_generator_restores inv.plan at_rest inv.settings, _,
    exec_setMode_of_planFor (m := .counter) inv.settings
      ((State.planFor_iff_of_counter rfl).mpr rfl), rfl, ?_⟩
  exact exec_setMode_generator_restores inv.plan at_rest { inv.settings with }

end Sys2Proof.Machine
end

