-- ==== Sys2Proof/Proofs/Writers.lean ====
section
/-! Which stimulus writes which register (spec/10_state.md R23, R47), and what a measurement cycle
does to the measurement mode (spec/43_mode_controller.md R180, R181). -/

namespace Sys2Proof.Machine

/-! ## The settings, the plan, the flag and the read port -/

section Writers

variable {i : Instr} {s t : State}

/-- Every stimulus but `RESET` leaves in the settings what it stores there (R23). -/
theorem exec_settings (not_reset : i ≠ .reset) (h : exec i s = .next t) :
    t.ctrl = (storeSettings i s).ctrl ∧ t.freqSet = (storeSettings i s).freqSet ∧
      t.dutySet = (storeSettings i s).dutySet ∧ t.trim = (storeSettings i s).trim := by
  rcases instr_kinds i with command | ⟨idx, rfl⟩ | event | rfl
  · rw [(commandEffect_of_exec command h).frame]
    exact ⟨rfl, rfl, rfl, rfl⟩
  · rcases exec_rd_cases h with ⟨v, rfl⟩ | ⟨-, rfl⟩ <;> exact ⟨rfl, rfl, rfl, rfl⟩
  · have stores_nothing : storeSettings i s = s := by
      cases i with
      | evEdge | evGateClose | evCapture | evRefTick => rfl
      | _ => cases event
    rw [exec_event_frame event h, stores_nothing]
    exact ⟨rfl, rfl, rfl, rfl⟩
  · exact absurd rfl not_reset

/-- No stimulus changes the parameters or the waiting stimuli (R10, R21). -/
theorem exec_keeps_params_trace (h : exec i s = .next t) :
    t.params = s.params ∧ t.trace = s.trace := by
  rcases instr_kinds i with command | ⟨idx, rfl⟩ | event | rfl
  · rw [(commandEffect_of_exec command h).frame]
    exact ⟨storeSettings_params i s, storeSettings_trace i s⟩
  · rcases exec_rd_cases h with ⟨v, rfl⟩ | ⟨-, rfl⟩ <;> exact ⟨rfl, rfl⟩
  · rw [exec_event_frame event h]
    exact ⟨rfl, rfl⟩
  · cases h
    exact ⟨rfl, rfl⟩

/-- The one command that stores each setting (R23). -/
theorem storeSettings_writers (i : Instr) (s : State) :
    ((storeSettings i s).ctrl.opmode ≠ s.ctrl.opmode → ∃ m, i = .setMode m) ∧
    ((storeSettings i s).ctrl.genEn ≠ s.ctrl.genEn → ∃ b, i = .setGen b) ∧
    ((storeSettings i s).ctrl.gateSel ≠ s.ctrl.gateSel → ∃ g, i = .setGate g) ∧
    ((storeSettings i s).ctrl.threshSel ≠ s.ctrl.threshSel → ∃ u, i = .setThresh u) ∧
    ((storeSettings i s).freqSet ≠ s.freqSet → ∃ v, i = .setFreq v) ∧
    ((storeSettings i s).dutySet ≠ s.dutySet → ∃ v, i = .setDuty v) ∧
    ((storeSettings i s).trim ≠ s.trim → (∃ v, i = .setTrim v) ∨ ∃ c d, i = .trimStep c d) := by
  cases i <;> simp [storeSettings]

/-- The plan changes only by a stimulus that runs the synthesizer (R121). -/
theorem synthesizes_of_plan_ne (h : exec i s = .next t) (changed : t.plan ≠ s.plan) :
    synthesizes i = true := by
  rcases instr_kinds i with command | ⟨idx, rfl⟩ | event | rfl
  · rcases (commandEffect_of_exec command h).plan with ⟨synth, -⟩ | ⟨same, -⟩
    · exact synth
    · exact absurd same changed
  · rcases exec_rd_cases h with ⟨v, rfl⟩ | ⟨-, rfl⟩ <;> exact absurd rfl changed
  · rw [exec_event_frame event h] at changed
    exact absurd rfl changed
  · rfl

/-- Only an ill-formed `rd` changes the flag, and only an `rd` the read port, `RESET` aside (R30,
R211). -/
theorem exec_illegal_readPort_writers (not_reset : i ≠ .reset) (h : exec i s = .next t) :
    (t.illegal ≠ s.illegal → ∃ idx, i = .rd idx ∧ mappedIndex idx = false) ∧
      (t.readPort ≠ s.readPort → ∃ idx, i = .rd idx) := by
  rcases instr_kinds i with command | ⟨idx, rfl⟩ | event | rfl
  · rw [(commandEffect_of_exec command h).frame]
    exact ⟨fun changed => absurd (storeSettings_illegal i s) changed,
      fun changed => absurd (storeSettings_readPort i s) changed⟩
  · refine ⟨fun changed => ⟨idx, rfl, ?_⟩, fun _ => ⟨idx, rfl⟩⟩
    rcases exec_rd_cases h with ⟨v, rfl⟩ | ⟨unmapped, -⟩
    · exact absurd rfl changed
    · exact unmapped
  · rw [exec_event_frame event h]
    exact ⟨fun changed => absurd rfl changed, fun changed => absurd rfl changed⟩
  · exact absurd rfl not_reset

/-! ## The measurement registers -/

/-- The writers of the measurement registers and flags that R23 and R47 list, `RESET` among the
restarts: what changed from `s` to `t` is what `i` may write. -/
structure MeasWriters (i : Instr) (s t : State) : Prop where
  freq : t.meas.freq ≠ s.meas.freq →
    i = .evGateClose ∨ i = .evRefTick ∨ restartsMeasurement i = true
  duty : t.meas.duty ≠ s.meas.duty ∨ t.meas.dutyValid ≠ s.meas.dutyValid →
    i = .evGateClose ∨ i = .evRefTick ∨ reinitializes i s t
  mode : t.meas.mmode ≠ s.meas.mmode ∨ t.meas.block ≠ s.meas.block →
    completesCycle i s = true ∨ restartsMeasurement i = true
  stale : t.meas.stale ≠ s.meas.stale → i = .evRefTick ∨ reinitializes i s t
  act : t.meas.act ≠ s.meas.act → i.opcode = .evCapture ∨ i = .evRefTick ∨ reinitializes i s t
  accOvf : t.meas.accOvf ≠ s.meas.accOvf →
    (∃ period pulse, i = .evCapture period pulse true) ∨ i = .evRefTick ∨ reinitializes i s t
  gate : t.meas.gateCount ≠ s.meas.gateCount ∨ t.meas.gateOvf ≠ s.meas.gateOvf →
    i = .evEdge ∨ i = .evGateClose ∨ reinitializes i s t
  acc : t.meas.accPeriod ≠ s.meas.accPeriod ∨ t.meas.accDuty ≠ s.meas.accDuty ∨
      t.meas.accEdges ≠ s.meas.accEdges →
    i.opcode = .evCapture ∨ i = .evRefTick ∨ reinitializes i s t
  ticks : t.meas.winTicks ≠ s.meas.winTicks ∨ t.meas.zeroTicks ≠ s.meas.zeroTicks →
    i = .evRefTick ∨ reinitializes i s t

theorem MeasWriters.of_meas_eq (same : t.meas = s.meas) : MeasWriters i s t := by
  constructor <;> simp [same]

theorem MeasWriters.of_restarts (restarts : restartsMeasurement i = true) : MeasWriters i s t := by
  constructor <;> simp [restarts, reinitializes]

/-- A measurement cycle touches the cool-down alone, or it switches the mode (R181). -/
theorem Meas.modeCycle_eq_or_switches (pair : ThreshPair) (m : Meas) :
    (∃ b, m.modeCycle pair = { m with block := b }) ∨ (m.modeCycle pair).mmode ≠ m.mmode := by
  rcases m.modeCycle_cases pair with ⟨-, e⟩ | ⟨-, gated, -, e⟩ | ⟨-, direct, -, e⟩ | ⟨-, e⟩ <;>
    rw [e]
  · exact .inl ⟨_, rfl⟩
  · exact .inr (by simp [gated])
  · exact .inr (by simp [direct])
  · exact .inl ⟨m.block, rfl⟩

/-- An edge that is counted writes the count of the gate (R151). -/
theorem measWriters_evEdge {m : Meas} (counted : s.meas.countEdge = some m) :
    MeasWriters .evEdge s (s.withMeas m) := by
  rcases Meas.countEdge_eq_some_iff.mp counted with ⟨-, -, rfl⟩ | ⟨-, rfl⟩ <;> constructor <;> simp

/-- A capture that is taken in writes the sums, and sets the overflow only from its own (R157). -/
theorem measWriters_evCapture {period pulse : BitVec 24} {ovf : Bool} {m : Meas}
    (captured : s.meas.capture period pulse ovf = some m) :
    MeasWriters (.evCapture period pulse ovf) s (s.withMeas m) := by
  obtain ⟨p, d, e, -, -, -, rfl⟩ := Meas.capture_eq_some_iff.mp captured
  constructor <;> cases ovf <;> simp [Instr.opcode]

/-- The mode cycle at the end of a measurement cycle writes the mode and the cool-down; where it
switches, it reinitialises the rest but for the sample (R181, R185). -/
theorem MeasWriters.modeCycle {m : Meas} (writes : MeasWriters i s (s.withMeas m))
    (mmode : m.mmode = s.meas.mmode) (completes : completesCycle i s = true) (pair : ThreshPair) :
    MeasWriters i s (s.withMeas (m.modeCycle pair)) := by
  rcases m.modeCycle_eq_or_switches pair with ⟨b, e⟩ | switches
  · rw [e]
    exact { writes with mode := fun _ => .inl completes }
  · have reinit : reinitializes i s (s.withMeas (m.modeCycle pair)) := .inr (mmode ▸ switches)
    exact
      { freq := by simpa using writes.freq
        duty := fun _ => .inr (.inr reinit)
        mode := fun _ => .inl completes
        stale := fun _ => .inr reinit
        act := fun _ => .inr (.inr reinit)
        accOvf := fun _ => .inr (.inr reinit)
        gate := fun _ => .inr (.inr reinit)
        acc := fun _ => .inr (.inr reinit)
        ticks := fun _ => .inr reinit }

/-- The close of a gate writes the count, the sample and the duty, and ends a measurement cycle
(R152, R155). -/
theorem measWriters_evGateClose {mult : Nat} {pair : ThreshPair} {m : Meas} (live : s.live .gated)
    (closed : s.meas.gateClose mult pair = some m) : MeasWriters .evGateClose s (s.withMeas m) := by
  obtain ⟨f, -, rfl⟩ := Meas.gateClose_eq_some_iff.mp closed
  have completes : completesCycle .evGateClose s = true := decide_eq_true live
  refine MeasWriters.modeCycle ?_ ?_ completes pair
  · constructor <;> simp
  · rfl

/-- The sample of a window end and its flags are all that recomputing writes (R160, R161). -/
theorem Meas.recompute_frame {c : Nat} {m r : Meas} (h : m.recompute c = some r) :
    ∃ freq duty dutyValid stale, r = { m with freq, duty, dutyValid, stale } := by
  rcases Meas.recompute_eq_some_iff.mp h with ⟨-, -, f, d, -, -, rfl⟩ | ⟨-, rfl⟩
  · exact ⟨f, d, _, false, rfl⟩
  · exact ⟨r.freq, r.duty, r.dutyValid, r.stale, rfl⟩

/-- A tick that completes is inside its window, or it is the window end (R158). -/
theorem Meas.refTick_cases {W c : Nat} {pair : ThreshPair} {m m' : Meas}
    (h : m.refTick W c pair = some m') :
    (m.winTicks.toNat + 1 ≠ W ∧ m' = { m.graceTick with
      winTicks := BitVec.ofNat 32 (m.winTicks.toNat + 1) }) ∨
    (m.winTicks.toNat + 1 = W ∧ ∃ r, m.atWindowEnd.recompute c = some r ∧
      m' = Meas.modeCycle pair
        { r with accPeriod := 0, accDuty := 0, accEdges := 0, accOvf := false }) := by
  obtain ⟨-, ⟨last, ended⟩ | ⟨inside, rfl⟩⟩ := Meas.windowTick_eq_some_iff.mp h
  · exact .inr ⟨last, Meas.windowEnd_eq_some_iff.mp ended⟩
  · exact .inl ⟨inside, rfl⟩

/-- What the mode cycle of a completed measurement cycle acts on has the mode and the cool-down from
before (R180, R181). -/
theorem exec_of_completesCycle (completes : completesCycle i s = true) (h : exec i s = .next t) :
    ∃ m : Meas, t.meas = m.modeCycle s.threshPair ∧ m.mmode = s.meas.mmode ∧
      m.block = s.meas.block := by
  cases i with
  | evGateClose =>
    have live : s.live .gated := of_decide_eq_true completes
    rcases State.onEvent_eq_next_iff.mp h with ⟨dead, -⟩ | ⟨-, m, closed, rfl⟩
    · exact absurd live dead
    · obtain ⟨f, -, rfl⟩ := Meas.gateClose_eq_some_iff.mp closed
      exact ⟨_, rfl, rfl, rfl⟩
  | evRefTick =>
    obtain ⟨live, last⟩ : s.live .direct ∧ s.meas.winTicks.toNat + 1 = s.params.W := by
      simpa [completesCycle] using completes
    rcases State.onEvent_eq_next_iff.mp h with ⟨dead, -⟩ | ⟨-, m, ticked, rfl⟩
    · exact absurd live dead
    · rcases Meas.refTick_cases ticked with ⟨inside, -⟩ | ⟨-, r, recomputed, rfl⟩
      · exact absurd last inside
      · obtain ⟨_, _, _, _, rfl⟩ := Meas.recompute_frame recomputed
        exact ⟨_, rfl, rfl, rfl⟩
  | _ => cases completes

/-- A tick writes the sample, the sums and the ticks, and at a window end it ends a measurement
cycle (R158, R160). -/
theorem measWriters_evRefTick {c : Nat} {pair : ThreshPair} {m : Meas} (live : s.live .direct)
    (ticked : s.meas.refTick s.params.W c pair = some m) :
    MeasWriters .evRefTick s (s.withMeas m) := by
  rcases Meas.refTick_cases ticked with ⟨-, rfl⟩ | ⟨last, r, recomputed, rfl⟩
  · constructor <;> simp
  · have completes : completesCycle .evRefTick s = true := by simp [completesCycle, live, last]
    obtain ⟨_, _, _, _, rfl⟩ := Meas.recompute_frame recomputed
    refine MeasWriters.modeCycle ?_ ?_ completes pair
    · constructor <;> simp [Meas.atWindowEnd]
    · rfl

/-- Every stimulus changes only those measurement registers it is listed for (R23, R47). -/
theorem measWriters_of_exec (h : exec i s = .next t) : MeasWriters i s t := by
  rcases instr_kinds i with command | ⟨idx, rfl⟩ | event | rfl
  · rcases (commandEffect_of_exec command h).meas with ⟨restarts, -⟩ | ⟨same, -⟩
    · exact .of_restarts restarts
    · exact .of_meas_eq same
  · rcases exec_rd_cases h with ⟨v, rfl⟩ | ⟨-, rfl⟩ <;> exact .of_meas_eq rfl
  · cases i with
    | evEdge =>
      rcases State.onEvent_eq_next_iff.mp h with ⟨-, rfl⟩ | ⟨-, m, counted, rfl⟩
      · exact .of_meas_eq rfl
      · exact measWriters_evEdge counted
    | evGateClose =>
      rcases State.onEvent_eq_next_iff.mp h with ⟨-, rfl⟩ | ⟨live, m, closed, rfl⟩
      · exact .of_meas_eq rfl
      · exact measWriters_evGateClose live closed
    | evCapture =>
      rcases State.onEvent_eq_next_iff.mp h with ⟨-, rfl⟩ | ⟨-, m, captured, rfl⟩
      · exact .of_meas_eq rfl
      · exact measWriters_evCapture captured
    | evRefTick =>
      rcases State.onEvent_eq_next_iff.mp h with ⟨-, rfl⟩ | ⟨live, m, ticked, rfl⟩
      · exact .of_meas_eq rfl
      · exact measWriters_evRefTick live ticked
    | _ => cases event
  · exact .of_restarts rfl

end Writers

/-- A step changes the flag only by an illegal host word or `RESET`: no word decodes to an
ill-formed `rd` (R30, R96). -/
theorem step_illegal_writers {s t : State} (h : step s = .next t)
    (changed : t.illegal ≠ s.illegal) :
    ∃ (w : Word) (rest : List Word), s.trace = w :: rest ∧
      (decode w = .illegalHostWord ∨ decode w = .stimulus .reset) := by
  rcases step_eq_next_cases h with ⟨-, rfl⟩ | ⟨w, rest, trace, ⟨i, hw, run⟩ | ⟨illegal, -⟩⟩
  · exact absurd rfl changed
  · refine ⟨w, rest, trace, .inr ?_⟩
    by_cases reset : i = .reset
    · exact reset ▸ hw
    · obtain ⟨idx, rfl, unmapped⟩ := (exec_illegal_readPort_writers reset run).1 changed
      have mapped : mappedIndex idx = true := (encodeOfDecodeIsIdentity w _ hw).2
      rw [mapped] at unmapped
      cases unmapped
  · exact ⟨w, rest, trace, .inl illegal⟩

/-- Settles O56: the settings by what each command stores, the other registers by what each kind of
stimulus does. -/
theorem registersWrittenOnlyByTheirWriters : Obligations.RegistersWrittenOnlyByTheirWriters := by
  refine ⟨fun i s t run => ?_, fun s t => step_illegal_writers⟩
  obtain ⟨params, trace⟩ := exec_keeps_params_trace run
  refine ⟨params, trace, fun not_reset => ?_⟩
  obtain ⟨ctrl, freqSet, dutySet, trim⟩ := exec_settings not_reset run
  obtain ⟨opmode, genEn, gateSel, threshSel, freq, duty, trimWriters⟩ := storeSettings_writers i s
  obtain ⟨illegal, readPort⟩ := exec_illegal_readPort_writers not_reset run
  have meas := measWriters_of_exec run
  rw [ctrl, freqSet, dutySet, trim]
  exact ⟨opmode, genEn, gateSel, threshSel, freq, duty, trimWriters, synthesizes_of_plan_ne run,
    meas.freq, meas.duty, meas.mode, meas.stale, meas.act, meas.accOvf, meas.gate, meas.acc,
    meas.ticks, illegal, readPort⟩

end Sys2Proof.Machine
end

