-- ==== Sys2Proof/Proofs/ModeSafety.lean ====
section
/-! Safety of the mode controller along a run: the cool-down keeps two switches apart, AlwaysGated
keeps the machine in Gated mode, and the hysteresis band is proper (spec/43_mode_controller.md R183,
R188). -/

namespace Sys2Proof.Machine

/-! ## The cool-down (R181, R188 item 1) -/

section Cooldown

variable {i : Instr} {s t : State}

/-- A switch of the mode comes from a cool-down of 0 and starts one of 3 (R181, R184). -/
theorem Meas.modeCycle_of_switch {pair : ThreshPair} {m : Meas}
    (switched : (m.modeCycle pair).mmode ≠ m.mmode) :
    m.block = 0 ∧ (m.modeCycle pair).block = 3 := by
  rcases m.modeCycle_cases pair with ⟨-, e⟩ | ⟨zero, -, -, e⟩ | ⟨zero, -, -, e⟩ | ⟨-, e⟩ <;>
    rw [e] at switched ⊢
  · exact absurd rfl switched
  · exact ⟨zero, rfl⟩
  · exact ⟨zero, rfl⟩
  · exact absurd rfl switched

theorem restartsMeasurement_of_isEvent (h : isEvent i = true) : restartsMeasurement i = false := by
  cases i with
  | evEdge | evGateClose | evCapture | evRefTick => rfl
  | _ => cases h

/-- A stimulus that neither restarts the measurement nor completes a cycle keeps the mode and the
cool-down (R180). -/
theorem exec_keeps_mode (keeps : restartsMeasurement i = false) (h : exec i s = .next t)
    (incomplete : completesCycle i s = false) :
    t.meas.mmode = s.meas.mmode ∧ t.meas.block = s.meas.block := by
  by_contra changed
  rw [not_and_or] at changed
  rcases (measWriters_of_exec h).mode changed with completes | restarts
  · simp [incomplete] at completes
  · simp [keeps] at restarts

/-- A measurement cycle in the cool-down counts it down and keeps the mode (R181). -/
theorem exec_completesCycle_of_cooling (completes : completesCycle i s = true)
    (h : exec i s = .next t) (cooling : 0 < s.meas.block.toNat) :
    t.meas.mmode = s.meas.mmode ∧ t.meas.block.toNat = s.meas.block.toNat - 1 := by
  obtain ⟨m, cycle, mmode, block⟩ := exec_of_completesCycle completes h
  rw [← block] at cooling ⊢
  rw [cycle, Meas.modeCycle_of_cooling cooling]
  exact ⟨mmode, cooldown_sub_one_toNat cooling⟩

/-- What a run's first stimulus does and what the rest of the run does. -/
theorem runInstrs_cons_eq_next {rest : List Instr} (h : runInstrs (i :: rest) s = .next t) :
    ∃ u, exec i s = .next u ∧ runInstrs rest u = .next t := by
  cases first : exec i s with
  | next u => exact ⟨u, rfl, (runInstrs_cons_of_next first rest).symm.trans h⟩
  | fault r => cases r
  | refused r => simp [runInstrs, first] at h

theorem cyclesIn_cons_of_next (h : exec i s = .next t) (rest : List Instr) :
    cyclesIn (i :: rest) s = (if completesCycle i s then 1 else 0) + cyclesIn rest t := by
  simp only [cyclesIn, h]

/-- As long as no more cycles complete than the cool-down counts, each counts it down and none
switches (R181, R188 item 1). -/
theorem runInstrs_in_cooldown {es : List Instr}
    (keeps : ∀ i ∈ es, restartsMeasurement i = false) (h : runInstrs es s = .next t)
    (few : cyclesIn es s ≤ s.meas.block.toNat) :
    t.meas.mmode = s.meas.mmode ∧ t.meas.block.toNat = s.meas.block.toNat - cyclesIn es s := by
  induction es generalizing s with
  | nil =>
    cases h
    exact ⟨rfl, rfl⟩
  | cons i es ih =>
    obtain ⟨u, first, later⟩ := runInstrs_cons_eq_next h
    obtain ⟨keeps_first, keeps_later⟩ := List.forall_mem_cons.mp keeps
    rw [cyclesIn_cons_of_next first] at few ⊢
    cases complete : completesCycle i s with
    | false =>
      obtain ⟨mmode, block⟩ := exec_keeps_mode keeps_first first complete
      simp only [complete, Bool.false_eq_true, if_false, Nat.zero_add] at few ⊢
      rw [← mmode, ← block]
      exact ih keeps_later later (block ▸ few)
    | true =>
      simp only [complete, if_true] at few ⊢
      obtain ⟨mmode, block⟩ := exec_completesCycle_of_cooling complete first (by omega)
      obtain ⟨mmode', block'⟩ := ih keeps_later later (by omega)
      exact ⟨mmode'.trans mmode, by omega⟩

end Cooldown

/-- Settles O49: a switch is that of the mode cycle of a completed cycle; after it the cool-down
covers three cycles. -/
theorem neverTwoSwitchesWithinThreeCycles : Obligations.NeverTwoSwitchesWithinThreeCycles := by
  refine ⟨fun i s t event run switched => ?_, fun es s t keeps block run few => ?_⟩
  · have completes : completesCycle i s = true := by
      rcases (measWriters_of_exec run).mode (.inl switched) with completes | restarts
      · exact completes
      · rw [restartsMeasurement_of_isEvent event] at restarts
        cases restarts
    obtain ⟨m, cycle, mmode, block⟩ := exec_of_completesCycle completes run
    rw [cycle, ← mmode] at switched
    rw [cycle, ← block]
    exact ⟨completes, Meas.modeCycle_of_switch switched⟩
  · have three : s.meas.block.toNat = 3 := by rw [block]; rfl
    have cooled := runInstrs_in_cooldown keeps run (by omega)
    rwa [three] at cooled

/-! ## AlwaysGated (R188 item 4) -/

/-- With AlwaysGated selected and kept, no stimulus leaves Gated mode. -/
theorem exec_keeps_alwaysGated {i : Instr} {s t : State} (pinned : s.ctrl.threshSel = .alwaysGated)
    (gated : s.meas.mmode = .gated) (keeps : ∀ u, i = .setThresh u → u = .alwaysGated)
    (run : exec i s = .next t) : t.meas.mmode = .gated ∧ t.ctrl.threshSel = .alwaysGated := by
  rcases instr_kinds i with command | ⟨idx, rfl⟩ | event | rfl
  · have effect := commandEffect_of_exec command run
    constructor
    · rcases effect.meas with ⟨-, reset⟩ | ⟨same, -⟩
      · rw [reset]
        rfl
      · rw [same, gated]
    · obtain ⟨-, -, -, writers, -⟩ := storeSettings_writers i s
      rw [effect.frame]
      by_contra changed
      obtain ⟨u, rfl⟩ := writers fun same => changed (same.trans pinned)
      exact changed (keeps u rfl)
  · rcases exec_rd_cases run with ⟨v, rfl⟩ | ⟨-, rfl⟩ <;> exact ⟨gated, pinned⟩
  · refine ⟨?_, by rw [exec_event_frame event run]; exact pinned⟩
    cases complete : completesCycle i s with
    | true =>
      obtain ⟨m, cycle, mmode, -⟩ := exec_of_completesCycle complete run
      rw [cycle, State.threshPair_of_threshSel pinned]
      exact Meas.modeCycle_gated_of_lo_zero s.params.alwaysGated_lo (mmode.trans gated)
    | false =>
      exact (exec_keeps_mode (restartsMeasurement_of_isEvent event) run complete).1.trans gated
  · cases run
    exact ⟨rfl, rfl⟩

/-- Settles O50: by induction on the list of stimuli. -/
theorem alwaysGatedNeverLeavesGated : Obligations.AlwaysGatedNeverLeavesGated := by
  intro es s t pinned gated keeps run
  induction es generalizing s with
  | nil =>
    cases run
    exact ⟨gated, pinned⟩
  | cons i es ih =>
    obtain ⟨u, first, later⟩ := runInstrs_cons_eq_next run
    obtain ⟨keeps_first, keeps_later⟩ := List.forall_mem_cons.mp keeps
    obtain ⟨gated', pinned'⟩ := exec_keeps_alwaysGated pinned gated keeps_first first
    exact ih u pinned' gated' keeps_later later

/-! ## The hysteresis band (R183, R188 items 2 and 3) -/

/-- An admitted threshold with a nominal value straddles it (R183). -/
theorem straddles_of_nominal {p : Params} {u : DirectThreshold} {nominal : Nat}
    (h : u.nominal? = some nominal) : (p.pair u).Straddles nominal := by
  obtain ⟨-, -, -, -, -, t1k, t10k, t100k, t1M⟩ := p.admitted
  cases u with
  | alwaysGated => cases h
  | t1k => cases h; exact t1k
  | t10k => cases h; exact t10k
  | t100k => cases h; exact t100k
  | t1M => cases h; exact t1M

/-- A sample inside the band switches nothing, in either mode (R182). -/
theorem Meas.modeCycle_mmode_of_in_band {pair : ThreshPair} {m : Meas} (lo : pair.lo ≤ m.freq.toNat)
    (hi : m.freq.toNat ≤ pair.hi) : (m.modeCycle pair).mmode = m.mmode := by
  rcases m.modeCycle_cases pair with ⟨-, e⟩ | ⟨-, -, below, -⟩ | ⟨-, -, above, -⟩ | ⟨-, e⟩
  · rw [e]
  · exact absurd lo below.not_ge
  · exact absurd hi above.not_ge
  · rw [e]

/-- Settles O51: the constraint on the table, the comparisons of the transition rule, and the
constructor of parameter sets. -/
theorem hysteresisBandIsProper : Obligations.HysteresisBandIsProper := by
  refine ⟨fun p u nominal h => ?_, Params.alwaysGated_lo, fun r => ?_⟩
  · obtain ⟨positive, below, above⟩ : (p.pair u).Straddles nominal := straddles_of_nominal h
    exact ⟨positive, below, above, fun x ⟨lt_lo, hi_lt⟩ => by omega,
      fun m => Meas.modeCycle_mmode_of_in_band⟩
  · simp [Params.ofRaw?]

end Sys2Proof.Machine
end

