-- ==== Sys2Proof/Proofs/StartUp.lean ====
section
/-! The start-up of the host: its commands store their settings in any order, and `SET_MODE` makes
the plan and the measurement from what is stored (spec/70_reset_and_hazards.md R254). -/

namespace Sys2Proof.Machine

/-- The settings as a list of commands leaves them. -/
def storeAll (es : List Instr) (s : State) : State := es.foldl (fun u i => storeSettings i u) s

theorem State.SettingsInRange.storeAll {s : State} (h : s.SettingsInRange) (es : List Instr) :
    (storeAll es s).SettingsInRange := by
  induction es generalizing s with
  | nil => exact h
  | cons i es ih => exact ih h.storeSettings

/-- Commands that run from settings in range run through, and but for the plan and the measurement
they store their settings (R201 to R208). -/
theorem runInstrs_commands {es : List Instr} (commands : ∀ i ∈ es, isCommand i = true) {s : State}
    (settings : s.SettingsInRange) (p : Plan) (m : Meas) :
    ∃ p' m', runInstrs es ((s.withPlan p).withMeas m) =
      .next (((storeAll es s).withPlan p').withMeas m') := by
  induction es generalizing s p m with
  | nil => exact ⟨p, m, rfl⟩
  | cons i es ih =>
    obtain ⟨command, later⟩ := List.forall_mem_cons.mp commands
    have in_range : ((s.withPlan p).withMeas m).SettingsInRange := { settings with }
    obtain ⟨t, first⟩ := in_range.command_completes command
    have frame := (commandEffect_of_exec command first).frame
    rw [storeSettings_withPlan_withMeas] at frame
    rw [runInstrs_cons_of_next first, frame]
    exact ih later settings.storeSettings t.plan t.meas

/-- After the commands, `SET_MODE` ends in a state that their settings and the mode determine
(R207). -/
theorem runInstrs_commands_setMode {es : List Instr} (commands : ∀ i ∈ es, isCommand i = true)
    {s : State} (settings : s.SettingsInRange) {mode : OpMode} {p : Plan}
    (planFor : ((storeAll es s).withCtrl { (storeAll es s).ctrl with opmode := mode }).PlanFor p) :
    runInstrs (es ++ [.setMode mode]) s =
      .next ((((storeAll es s).withCtrl
        { (storeAll es s).ctrl with opmode := mode }).withPlan p).withMeas Meas.reset) := by
  obtain ⟨p', m', stored⟩ : ∃ p' m', runInstrs es s =
      .next (((storeAll es s).withPlan p').withMeas m') :=
    runInstrs_commands commands settings s.plan s.meas
  have in_range : (((storeAll es s).withPlan p').withMeas m').SettingsInRange :=
    { settings.storeAll es with }
  have last := exec_setMode_of_planFor in_range (planFor.congr rfl rfl rfl rfl rfl rfl)
  rw [runInstrs_append_of_next stored, runInstrs_cons_of_next last]
  rfl

/-- The setting commands of the start-up, each of which writes a register or a field of its own. -/
theorem mem_startUp_commands {c : StoredSettings} {i : Instr} (h : i ∈ c.commands) :
    i = .setTrim c.trim ∨ i = .setFreq c.freq ∨ i = .setDuty c.duty ∨ i = .setGate c.gate ∨
      i = .setThresh c.thresh ∨ i = .setGen (c.gen.getD false) := by
  cases gen : c.gen with
  | none =>
    have listed : i = .setTrim c.trim ∨ i = .setFreq c.freq ∨ i = .setDuty c.duty ∨
        i = .setGate c.gate ∨ i = .setThresh c.thresh := by
      simpa [StoredSettings.commands, gen] using h
    tauto
  | some on => simpa [StoredSettings.commands, gen] using h

theorem isCommand_of_mem_startUp {c : StoredSettings} {i : Instr} (h : i ∈ c.commands) :
    isCommand i = true := by
  rcases mem_startUp_commands h with rfl | rfl | rfl | rfl | rfl | rfl <;> rfl

/-- Any two of the setting commands store in either order alike (R254). -/
theorem storeSettings_comm_of_mem_startUp {c : StoredSettings} {i j : Instr} (hi : i ∈ c.commands)
    (hj : j ∈ c.commands) (s : State) :
    storeSettings j (storeSettings i s) = storeSettings i (storeSettings j s) := by
  rcases mem_startUp_commands hi with rfl | rfl | rfl | rfl | rfl | rfl <;>
    rcases mem_startUp_commands hj with rfl | rfl | rfl | rfl | rfl | rfl <;> rfl

/-- Settles O58: the permuted commands store the same settings, and `SET_MODE` does the rest. -/
theorem startUpOrderIsIrrelevant : Obligations.StartUpOrderIsIrrelevant := by
  intro c order s settings perm
  have same : storeAll c.commands s = storeAll order s :=
    (perm.symm.foldl_eq' (fun i hi j hj u => storeSettings_comm_of_mem_startUp hi hj u) s)
  have commands : ∀ i ∈ c.commands, isCommand i = true := fun _ => isCommand_of_mem_startUp
  have permuted : ∀ i ∈ order, isCommand i = true := fun i hi => commands i (perm.subset hi)
  obtain ⟨p, planFor⟩ := ((settings.storeAll c.commands).withCtrl
    { (storeAll c.commands s).ctrl with opmode := c.mode }).exists_planFor
  refine ⟨_, runInstrs_commands_setMode commands settings planFor, ?_⟩
  rw [same] at planFor ⊢
  exact runInstrs_commands_setMode permuted settings planFor

end Sys2Proof.Machine
end

