-- ==== Sys2Proof/Proofs/Events.lean ====
section
/-! One edge, one reference tick, and any number of ticks without a capture
(spec/42_measurement.md R151, R158, R159). -/

namespace Sys2Proof.Machine

/-! ## One event (R151, R158) -/

theorem State.onEvent_refused {s : State} {mode : MeasMode} {act : Meas → Option Meas}
    (live : s.live mode) (misfit : act s.meas = none) :
    s.onEvent mode act = .refused .resultMisfit := by
  rw [State.onEvent, if_pos live, misfit]
  rfl

/-- One more on the tally, as a register (R151). -/
theorem ofNat_toNat_succ (tally : BitVec 16) :
    BitVec.ofNat 16 (tally.toNat + 1) = tally + 1 := by
  refine BitVec.eq_of_toNat_eq ?_
  rw [BitVec.toNat_ofNat, BitVec.toNat_add]
  rfl

/-- Settles O39: the count below its last value, at it, and at it with the tally full. -/
theorem edgeIsCountedOnce : Obligations.EdgeIsCountedOnce := by
  refine ⟨decode_mkWord_of_assemble (op := .evEdge) (a := 0) rfl,
    fun s dead => ((eventsOutsideTheirModeAreIgnored s).1 dead).1, fun s counter gated => ?_⟩
  have live : s.live .gated := ⟨counter, gated⟩
  refine ⟨fun below => ?_, fun full fits => ?_, fun full misfits => ?_⟩
  · exact State.onEvent_of_live live (Meas.countEdge_eq_some_iff.mpr (.inr ⟨by omega, rfl⟩))
  · rw [← ofNat_toNat_succ]
    exact State.onEvent_of_live live
      (Meas.countEdge_eq_some_iff.mpr (.inl ⟨by omega, fits, rfl⟩))
  · refine State.onEvent_refused live (Option.eq_none_iff_forall_ne_some.mpr fun m counted => ?_)
    rcases Meas.countEdge_eq_some_iff.mp counted with ⟨-, fits, -⟩ | ⟨not_full, -⟩ <;> omega

/-- Settles O44: the tick's own bookkeeping, then the tick inside the window or the window end. -/
theorem referenceTickBookkeeping : Obligations.ReferenceTickBookkeeping := by
  refine ⟨decode_mkWord_of_assemble (op := .evRefTick) (a := 0) rfl,
    fun s dead => ((eventsOutsideTheirModeAreIgnored s).2 dead).1, fun s counter direct => ?_⟩
  have live : s.live .direct := ⟨counter, direct⟩
  have zero := s.meas.graceTick_zeroTicks_toNat
  refine ⟨s.meas.graceTick.zeroTicks, s.meas.graceTick, zero, ?_, fun inside => ?_, fun last => ?_⟩
  · rw [zero, ← Meas.graceTick_stale]
    rfl
  · refine ⟨BitVec.ofNat 32 (s.meas.winTicks.toNat + 1), ?_, exec_evRefTick_inside live inside⟩
    rw [BitVec.toNat_ofNat, Nat.mod_eq_of_lt (inside.trans s.params.W_lt)]
  · split
    · next m ended =>
      exact State.onEvent_of_live live
        (Meas.windowTick_eq_some_iff.mpr ⟨last ▸ s.params.W_lt, .inl ⟨last, ended⟩⟩)
    · next misfit =>
      refine State.onEvent_refused live (Option.eq_none_iff_forall_ne_some.mpr fun m ticked => ?_)
      obtain ⟨-, ⟨-, ended⟩ | ⟨inside, -⟩⟩ := Meas.windowTick_eq_some_iff.mp ticked
      · cases misfit.symm.trans ended
      · exact inside last

/-! ## Silence (R159) -/

/-- Direct mode with no capture taken in since the last tick and none in the window. -/
structure Meas.Silent (W : Nat) (m : Meas) : Prop where
  direct : m.mmode = .direct
  act : m.act = false
  accEdges : m.accEdges = 0
  winTicks : m.winTicks.toNat < W
  zeroTicks : m.zeroTicks.toNat ≤ 16

/-- `m'` shows the duty that `m` shows, `n` capture-free ticks of Direct mode later. -/
structure Meas.FrozenFor (n : Nat) (m m' : Meas) : Prop where
  duty : m'.duty = m.duty
  dutyValid : m'.dutyValid = m.dutyValid
  zeroTicks : m'.zeroTicks.toNat = min (m.zeroTicks.toNat + n) 16
  stale : m'.stale = (m.stale || decide (0 < n ∧ 16 ≤ m.zeroTicks.toNat + n))

theorem Meas.FrozenFor.zero {m : Meas} (h : m.zeroTicks.toNat ≤ 16) : m.FrozenFor 0 m where
  duty := rfl
  dutyValid := rfl
  zeroTicks := (Nat.min_eq_left h).symm
  stale := by simp

theorem Meas.FrozenFor.succ {n : Nat} {m m₁ m' : Meas} (first : m.FrozenFor 1 m₁)
    (later : m₁.FrozenFor n m') : m.FrozenFor (n + 1) m' where
  duty := later.duty.trans first.duty
  dutyValid := later.dutyValid.trans first.dutyValid
  zeroTicks := by
    rw [later.zeroTicks, first.zeroTicks]
    omega
  stale := by
    rw [later.stale, first.stale, first.zeroTicks, Bool.or_assoc, ← Bool.decide_or]
    congr 2
    exact propext (by omega)

section Silence

variable {W : Nat} {m : Meas} {s : State}

theorem Meas.Silent.zeroTicksAfter (h : m.Silent W) :
    zeroTicksAfter m.act m.zeroTicks.toNat = min (m.zeroTicks.toNat + 1) 16 := by
  rw [h.act]
  rfl

/-- The bookkeeping of one tick keeps the silence, at any tick of the window, and freezes the duty.
-/
theorem Meas.Silent.graceTick (h : m.Silent W) {n : BitVec 32} (hn : n.toNat < W)
    (accPeriod accDuty : BitVec 64) (accOvf : Bool) (block : BitVec 2) :
    Meas.Silent W { m.graceTick with
      winTicks := n, accPeriod, accDuty, accEdges := 0, accOvf, block } ∧
    m.FrozenFor 1 { m.graceTick with
      winTicks := n, accPeriod, accDuty, accEdges := 0, accOvf, block } := by
  have ticks := m.graceTick_zeroTicks_toNat.trans h.zeroTicksAfter
  refine ⟨⟨h.direct, rfl, rfl, hn, ticks.trans_le (Nat.min_le_right _ _)⟩, rfl, rfl, ticks, ?_⟩
  show m.graceTick.stale = _
  rw [Meas.graceTick_stale, h.zeroTicksAfter]
  congr 2
  exact propext (by omega)

/-- One tick in silence keeps the frequency; the machine returns to Gated mode, or the silence goes
on (R159, R189). -/
theorem exec_evRefTick_of_silent (counter : s.ctrl.opmode = .counter)
    (silent : s.meas.Silent s.params.W) :
    ∃ m, exec .evRefTick s = .next (s.withMeas m) ∧ m.freq = s.meas.freq ∧
      (m.mmode ≠ .direct ∨ (m.Silent s.params.W ∧ s.meas.FrozenFor 1 m)) := by
  have live : s.live .direct := ⟨counter, silent.direct⟩
  have no_edges := silent.accEdges
  rcases Nat.lt_or_eq_of_le (Nat.succ_le_of_lt silent.winTicks) with inside | last
  · refine ⟨_, exec_evRefTick_inside live inside, rfl, .inr ?_⟩
    have next : (BitVec.ofNat 32 (s.meas.winTicks.toNat + 1)).toNat < s.params.W := by
      rwa [BitVec.toNat_ofNat, Nat.mod_eq_of_lt (inside.trans s.params.W_lt)]
    have ticked := silent.graceTick next s.meas.accPeriod s.meas.accDuty s.meas.accOvf s.meas.block
    rwa [← no_edges] at ticked
  · have empty : ¬ (0 < s.meas.atWindowEnd.accEdges.toNat ∧
        0 < s.meas.atWindowEnd.accPeriod.toNat) := by
      rintro ⟨some_edge, -⟩
      have none : s.meas.atWindowEnd.accEdges = 0 := no_edges
      rw [none] at some_edge
      exact absurd some_edge (by decide)
    refine ⟨_, exec_evRefTick_last live last (Meas.recompute_of_empty empty),
      Meas.modeCycle_freq _ _, ?_⟩
    rcases Meas.modeCycle_eq_or_switches s.threshPair { s.meas.atWindowEnd with
      accPeriod := 0, accDuty := 0, accEdges := 0, accOvf := false } with ⟨b, e⟩ | switches
    · rw [e]
      exact .inr (silent.graceTick (n := 0) s.params.W_pos 0 0 false b)
    · exact .inl fun direct => switches (direct.trans silent.direct.symm)

/-- Out of Direct mode, ticks are ignored (R150). -/
theorem runInstrs_ticks_of_not_direct (n : Nat) (h : s.meas.mmode ≠ .direct) :
    runInstrs (List.replicate n .evRefTick) s = .next s := by
  have ignored : exec .evRefTick s = .next s :=
    State.onEvent_of_not_live fun live => h live.2
  induction n with
  | zero => rfl
  | succ n ih => rw [List.replicate_succ, runInstrs_cons_of_next ignored, ih]

/-- Any number of ticks in silence keeps the frequency, and the duty while in Direct mode (R159). -/
theorem runInstrs_ticks_of_silent {n : Nat} (counter : s.ctrl.opmode = .counter)
    (silent : s.meas.Silent s.params.W) :
    ∃ t, runInstrs (List.replicate n .evRefTick) s = .next t ∧ t.meas.freq = s.meas.freq ∧
      (t.meas.mmode = .direct → s.meas.FrozenFor n t.meas) := by
  induction n generalizing s with
  | zero => exact ⟨s, rfl, rfl, fun _ => .zero silent.zeroTicks⟩
  | succ n ih =>
    obtain ⟨m, first, freq, left | ⟨silent', frozen⟩⟩ := exec_evRefTick_of_silent counter silent
    · refine ⟨s.withMeas m, ?_, freq, fun direct => absurd direct left⟩
      rw [List.replicate_succ, runInstrs_cons_of_next first]
      exact runInstrs_ticks_of_not_direct n left
    · obtain ⟨t, later, freq', frozen'⟩ := ih (s := s.withMeas m) counter silent'
      refine ⟨t, ?_, freq'.trans freq, fun direct => frozen.succ (frozen' direct)⟩
      rw [List.replicate_succ, runInstrs_cons_of_next first, later]

end Silence

/-- Settles O47: by induction on the number of ticks. -/
theorem silenceFreezesSample : Obligations.SilenceFreezesSample := by
  intro n s counter direct act accEdges winTicks zeroTicks
  obtain ⟨t, run, freq, frozen⟩ :=
    runInstrs_ticks_of_silent (n := n) counter ⟨direct, act, accEdges, winTicks, zeroTicks⟩
  refine ⟨t, run, freq, fun still_direct => ?_⟩
  obtain ⟨duty, dutyValid, ticks, stale⟩ := frozen still_direct
  exact ⟨duty, dutyValid, ticks, stale⟩

end Sys2Proof.Machine
end

