-- ==== Sys2Proof/Proofs/LeastError.lean ====
section
/-! The reference divider search finds the first divider of least error, and the frequency achieved
with it is within one fractional step of the target (spec/41_synthesizer.md R124 to R132). -/

namespace Sys2Proof.Machine

/-! ## The search (R124, R126, R127) -/

/-- `w` errs by less than every candidate tried before it, and by no more than any other, among
`rds` and what was the best before them. -/
def LeastError (T c : Nat) (best w : Candidate) (rds : List Nat) : Prop :=
  w.err ≤ best.err ∧ (best.rd < w.rd → w.err < best.err) ∧
    ∀ rd ∈ rds, w.err ≤ (candidate T c rd).err ∧ (rd < w.rd → w.err < (candidate T c rd).err)

section Search

variable {T c : Nat}

@[simp] theorem candidate_rd (rd : Nat) : (candidate T c rd).rd = rd := (candidate_fields T c rd).1

/-- An exact candidate has no error (R127). -/
theorem candidate_err_of_exact {rd : Nat} (h : candResidual T c rd = 0) :
    (candidate T c rd).err = 0 := by
  obtain ⟨-, -, -, err, -⟩ := candidate_fields T c rd
  have residual : T % candStep c rd = 0 := h
  omega

/-- The better of the best and the next divider's candidate is the first of least error of the two.
-/
theorem leastError_better {best : Candidate} {rd : Nat} (later : best.rd ≤ rd) :
    LeastError T c best (better (some best) (candidate T c rd)) [rd] ∧
      (better (some best) (candidate T c rd)).rd ≤ rd := by
  rcases better_cases best (candidate T c rd) with ⟨smaller, e⟩ | ⟨no_smaller, e⟩ <;> rw [e]
  · simp [LeastError, smaller, smaller.le]
  · simp [LeastError, no_smaller, later, later.not_gt]

/-- From a best found, the search over later dividers in ascending order ends with the first of
least error. -/
theorem searchFrom_leastError {rds : List Nat} {best : Candidate} (sorted : rds.Pairwise (· < ·))
    (later : ∀ rd ∈ rds, best.rd ≤ rd) :
    ∃ w, searchFrom T c (some best) rds = some w ∧ LeastError T c best w rds := by
  induction rds generalizing best with
  | nil => exact ⟨best, rfl, le_rfl, fun h => absurd h (lt_irrefl _), nofun⟩
  | cons rd rest ih =>
    obtain ⟨rd_first, sorted_rest⟩ := List.pairwise_cons.mp sorted
    obtain ⟨rd_later, -⟩ := List.forall_mem_cons.mp later
    obtain ⟨⟨best_le, best_lt, rd_least⟩, rd_le⟩ := leastError_better (T := T) (c := c) rd_later
    obtain ⟨rd_err_le, rd_err_lt⟩ := rd_least rd (List.mem_singleton_self rd)
    rw [searchFrom]
    split
    · next exact_match =>
      have no_error := candidate_err_of_exact exact_match
      refine ⟨_, rfl, best_le, best_lt, List.forall_mem_cons.mpr ⟨⟨rd_err_le, rd_err_lt⟩, ?_⟩⟩
      intro rd' mem
      have after := rd_first rd' mem
      exact ⟨by omega, by omega⟩
    · obtain ⟨w, found, w_le, w_lt, rest_least⟩ :=
        ih sorted_rest fun rd' mem => rd_le.trans (rd_first rd' mem).le
      exact ⟨w, found, w_le.trans best_le, by omega,
        List.forall_mem_cons.mpr ⟨⟨by omega, by omega⟩, rest_least⟩⟩

/-- The first candidate becomes the best in any case (R127, R128). -/
theorem searchFrom_none_cons (rd : Nat) (rest : List Nat) :
    searchFrom T c none (rd :: rest) = searchFrom T c (some (candidate T c rd)) (rd :: rest) := by
  simp [searchFrom, better]

theorem refDividers_sorted : refDividers.Pairwise (· < ·) :=
  List.pairwise_lt_range' 2 Nat.two_pos

/-- The winner is the first candidate of least error (R127). -/
theorem winner_least (T c : Nat) : ∀ rd ∈ refDividers,
    (winner T c).err ≤ (candidate T c rd).err ∧
      (rd < (winner T c).rd → (winner T c).err < (candidate T c rd).err) := by
  obtain ⟨rest, dividers⟩ := refDividers_eq_cons
  have from_eight : ∀ rd ∈ refDividers, (candidate T c 8).rd ≤ rd := by
    intro rd mem
    rw [candidate_rd]
    exact (mem_refDividers.mp mem).1
  obtain ⟨w, found, -, -, least⟩ := searchFrom_leastError (T := T) refDividers_sorted from_eight
  obtain ⟨is_winner, -⟩ := searchFrom_eq_winner T c
  rw [dividers, searchFrom_none_cons, ← dividers, found] at is_winner
  rwa [← Option.some.inj is_winner]

end Search

/-- Settles O17: the winner is one of the candidates, and the search finds the first of least error.
-/
theorem searchFindsFirstLeastError : Obligations.SearchFindsFirstLeastError := by
  intro T c err w
  have least := winner_least T c
  obtain ⟨-, rd, mem, cand⟩ := searchFrom_eq_winner T c
  obtain ⟨same_rd, ref, step, err_eq, up⟩ := candidate_fields T c rd
  obtain ⟨lo, hi, even⟩ := mem_refDividers.mp mem
  have w_eq : w = candidate T c rd := cand
  rw [w_eq, same_rd, step]
  refine ⟨lo, hi, even, ref, rfl, err_eq, up, fun rd' lo' hi' even' => ?_⟩
  obtain ⟨-, -, -, err_eq', -⟩ := candidate_fields T c rd'
  have least' := least rd' (mem_refDividers.mpr ⟨lo', hi', even'⟩)
  rwa [cand, same_rd, err_eq'] at least'

/-! ## The achieved frequency (R132) -/

section Achieved

variable {ref step pd od T : Nat}

/-- The floored products of R132 keep at least what `step` makes of the PLL divisor. -/
theorem step_mul_le_products (floor : 16 * step ≤ ref) :
    step * pd ≤ ref * pllInt pd + ref * pllFrac pd / 16 := by
  obtain ⟨split, -⟩ := pllInt_pllFrac pd
  have frac : step * pllFrac pd ≤ ref * pllFrac pd / 16 := by
    rw [Nat.le_div_iff_mul_le (by decide), Nat.mul_right_comm, Nat.mul_comm step]
    exact Nat.mul_le_mul_right _ floor
  calc step * pd
    _ = step * (16 * pllInt pd + pllFrac pd) := by rw [split]
    _ = 16 * step * pllInt pd + step * pllFrac pd := by ring
    _ ≤ ref * pllInt pd + ref * pllFrac pd / 16 :=
      Nat.add_le_add (Nat.mul_le_mul_right _ floor) frac

/-- Dividing by `od` loses less than `od` (R132). -/
theorem products_lt_mul_achievedFreq (hod : 0 < od) :
    ref * pllInt pd + ref * pllFrac pd / 16 <
      od * achievedFreq ref (pllInt pd) (pllFrac pd) od + od := by
  rw [achievedFreq, ← Nat.mul_succ]
  exact Nat.lt_mul_div_succ _ hod

/-- The achieved frequency exceeds what `step` makes of the PLL divisor by what flooring `step`
loses. -/
theorem mul_achievedFreq_le (ref_le : ref ≤ 16 * step + 15) :
    16 * (od * achievedFreq ref (pllInt pd) (pllFrac pd) od) ≤ 16 * (step * pd) + 15 * pd :=
  calc 16 * (od * achievedFreq ref (pllInt pd) (pllFrac pd) od)
    _ = 16 * (achievedFreq ref (pllInt pd) (pllFrac pd) od * od) := by rw [Nat.mul_comm od]
    _ ≤ ref * pd := achievedFreq_mul_le ref pd od
    _ ≤ (16 * step + 15) * pd := Nat.mul_le_mul_right pd ref_le
    _ = 16 * (step * pd) + 15 * pd := by ring

/-- The PLL divisor of a candidate is nearest to the target: at most half a step above it, and less
than a step below it (R126, R129). -/
theorem step_mul_pllDiv_candidate (T c rd : Nat) (positive : 0 < candStep c rd) :
    2 * (candStep c rd * pllDiv T (candidate T c rd)) ≤ 2 * T + candStep c rd ∧
      T < candStep c rd * pllDiv T (candidate T c rd) + candStep c rd := by
  obtain ⟨-, -, step, -, up⟩ := candidate_fields T c rd
  have division := Nat.div_add_mod T (candStep c rd)
  have residual_lt := Nat.mod_lt T positive
  rw [pllDiv, step, Nat.mul_add]
  cases rounds : (candidate T c rd).up with
  | false =>
    rw [Bool.toNat_false]
    omega
  | true =>
    have closer := up.mp rounds
    rw [Bool.toNat_true]
    omega

/-- The frequency achieved with the winner is within one of its steps of the target, up to the last
floor: above by half a step from rounding the divisor and less than half a step from flooring
`step`; below by less than a step from rounding and less than `od` from the last floor (R132). -/
theorem winner_achieves {c : Nat} (lo : 11900000001 ≤ c) (hi : c ≤ 12099999999)
    (lifted_lt : T < 2 * 10 ^ 12) (hod : 0 < od) (hpd : pd = pllDiv T (winner T c)) :
    od * achievedFreq (winner T c).ref (pllInt pd) (pllFrac pd) od ≤ T + (winner T c).step ∧
      T < od * achievedFreq (winner T c).ref (pllInt pd) (pllFrac pd) od + (winner T c).step
        + od := by
  have divisor_le := pllDiv_le (T := T) lo hi
  have ref_le := winner_ref_le T c
  obtain ⟨mem, ref, step⟩ := winner_fields T c
  obtain ⟨-, rd, -, cand⟩ := searchFrom_eq_winner T c
  have step_ge := (candStep_bounds lo hi mem).1
  have floor : 16 * (winner T c).step ≤ (winner T c).ref := by
    rw [ref, step, candStep_eq]
    exact Nat.mul_div_le _ _
  have step_pos : 0 < candStep c (winner T c).rd := by omega
  obtain ⟨above, below⟩ := step_mul_pllDiv_candidate T c (winner T c).rd step_pos
  rw [← step] at step_ge above below
  have same : candidate T c (winner T c).rd = winner T c := by rw [cand, candidate_rd]
  rw [same, ← hpd] at above below
  rw [← hpd] at divisor_le
  have upper := mul_achievedFreq_le (od := od) (pd := pd) ref_le
  have lower := products_lt_mul_achievedFreq (ref := (winner T c).ref) (pd := pd) hod
  have products := step_mul_le_products (pd := pd) floor
  exact ⟨by omega, by omega⟩

end Achieved

/-- Settles O21: the lifted target is that of the winner, whose step is `c / refDiv / 16`. -/
theorem achievedFrequencyWithinOneStep : Obligations.AchievedFrequencyWithinOneStep := by
  intro P f d c _ floor_hi freq_lo freq_hi crystal_lo crystal_hi p step
  have inputs : SynthInputs P f 0 c :=
    { floor_hi, freq_lo, freq_hi, duty_hi := Nat.zero_le _, crystal_lo, crystal_hi }
  obtain ⟨outDiv_pos, -, lifted_lt, -⟩ :
      0 < outDivider P f ∧ _ ∧ f * outDivider P f < 2 * 10 ^ 12 ∧ _ := inputs.lifted_bounds
  obtain ⟨-, -, step_eq⟩ := winner_fields (f * outDivider P f) c
  have achieved := winner_achieves crystal_lo crystal_hi lifted_lt outDiv_pos rfl
  rwa [step_eq] at achieved

end Sys2Proof.Machine
end
